-- ==== Sys2Proof/Word.lean ====
section
/-! DEFINITION. The two word types of go6502 CORE (00_scope.md R4, R6): a byte is 8 bits, an address is 16 bits. -/

namespace Sys2Proof

/-- `u8` of R6: a byte, an integer from 0 to 255; its arithmetic wraps modulo 256 (R140). -/
abbrev Byte := BitVec 8

/-- `u16` of R6: a word, an integer from 0 to 65535; its arithmetic wraps modulo 65536 (R140). -/
abbrev Word := BitVec 16

end Sys2Proof
end

