-- ==== Sys2Proof/Machine/Bits.lean ====
section
/-! DEFINITION. Bit fields, byte order and sign extension, as 00_scope.md R6 defines them. -/

namespace Sys2Proof

/-- `lo(w)` of R6: the low byte of a word. -/
def lo (w : Word) : Byte := w.extractLsb' 0 8

/-- `hi(w)` of R6: the high byte of a word. -/
def hi (w : Word) : Byte := w.extractLsb' 8 8

/-- `word(h, l)` of R6: `h * 256 + l`. -/
def joinWord (h l : Byte) : Word := h ++ l

/-- `zext_16(b)` of R6. -/
def zext16 (b : Byte) : Word := b.setWidth 16

/-- `sext_16(b)` of R6: the byte read as a two's complement number. -/
def sext16 (b : Byte) : Word := b.signExtend 16

/-- Bit `i` of `v` as a truth value. -/
def bitOf (v : Byte) (i : Nat) : Bool := v.getLsbD i

/-- `v` with bit `i` set to `b` and the other bits kept (R7: "the other bits of `P` keep their value"). -/
def withBit (v : Byte) (i : Nat) (b : Bool) : Byte :=
  (v &&& ~~~(1#8 <<< i)) ||| (if b then 1#8 <<< i else 0#8)

end Sys2Proof
end

