-- ==== Sys2Proof/Config.lean ====
section
/-! DEFINITION. The open parameters of 00_scope.md R5, all but the device map and the images (those are in State,
in the devices themselves). A `Config` is one constant part of State, which no step changes (log 1). -/

namespace Sys2Proof

/-- The open parameters of R5, under the spec's names. -/
structure Config where
  /-- `ROUTE_END_INCLUSIVE`: whether the router's match interval includes `base + size` (R35). -/
  routeEndInclusive : Bool
  /-- `HALT_OPCODE`: the opcode value of `HLT` (R86). -/
  haltOpcode : Byte
  /-- `RESET_A` (R26). -/
  resetA : Byte
  /-- `RESET_X` (R26). -/
  resetX : Byte
  /-- `RESET_Y` (R26). -/
  resetY : Byte
  /-- `RESET_SP` (R26). -/
  resetSP : Byte
  /-- `RESET_STATUS` (R26); reset forces bit 5. -/
  resetStatus : Byte
  /-- `KBD_DATA_OFF` (R50). -/
  kbdDataOff : Nat
  /-- `KBD_CTRL_OFF` (R50). -/
  kbdCtrlOff : Nat
  /-- `TERM_DATA_OFF` (R55). -/
  termDataOff : Nat
  /-- `TERM_CTRL_OFF` (R55). -/
  termCtrlOff : Nat
  /-- `PERIPH_SIZE`: the size of a keyboard or terminal record (R5). -/
  periphSize : Nat
  /-- `TERM_ROWS` (R55). -/
  termRows : Nat
  /-- `TERM_COLS` (R55). -/
  termCols : Nat
  /-- `TERM_BLANK`: the byte a blank grid cell holds (R55). -/
  termBlank : Byte
  deriving DecidableEq, Repr

/-- The defaults of R5 ("given only so that the test vectors can be run ... not a claim about the hardware").
DESIGN CHOICE (logs 1, 4, 5): State.reset uses them; unsafe for a statement about State.reset only. -/
def Config.default : Config where
  routeEndInclusive := true
  haltOpcode := 0xDB#8
  resetA := 0x00#8
  resetX := 0x00#8
  resetY := 0x00#8
  resetSP := 0xFF#8
  resetStatus := 0x20#8
  kbdDataOff := 0
  kbdCtrlOff := 1
  termDataOff := 0
  termCtrlOff := 1
  periphSize := 2
  termRows := 24
  termCols := 40
  termBlank := 0x20#8

end Sys2Proof
end

