-- ==== Sys2Proof/Machine/State.lean ====
section
/-! DEFINITION. The state of go6502 CORE as plain data: the eight CPU fields (10_state.md R10), the ordered device
registry with each device's own state (20_memory.md R31, R44, R50, R55; 10_state.md R25), the open parameters
(00_scope.md R5), the host's coming key appends (20_memory.md R53; 70_reset_and_hazards.md R238), and where the host
stands in the order of a run (R235). -/

namespace Sys2Proof.Machine

/-- The contents of a memory device: (index, byte) pairs, indices strictly rising, none equal to what an unlisted
index reads as (`Memory.wf`). -/
abbrev Memory := List Host.Cell

/-- R44: a memory device's own state; `offset` is the record's `base`. -/
structure MemoryDevice where
  /-- The number of bytes of the buffer. -/
  size : Nat
  /-- True for ROM, false for RAM; fixed at creation. -/
  readOnly : Bool
  /-- The buffer, indexed from 0. -/
  bytes : Memory
  /-- Written by `load`, read by nothing (R25, R49). -/
  writeCursor : Nat
  /-- The model's own field (log 12): a `load` has been made into this device, so a second one is refused (93 U9). -/
  loaded : Bool
  deriving DecidableEq, Repr

/-- R50: the keyboard's own state. -/
structure Keyboard where
  /-- Pending input bytes, oldest first, unbounded. -/
  queue : List Byte
  configured : Bool
  deriving DecidableEq, Repr

/-- R55: the terminal's own state. -/
structure Terminal where
  /-- The rows of the grid, top first. -/
  grid : List (List Byte)
  row : Nat
  col : Nat
  configured : Bool
  deriving DecidableEq, Repr

/-- The `kind` of a device record (R31) together with that device's own state. -/
inductive DeviceUnit where
  | memory (m : MemoryDevice)
  | keyboard (k : Keyboard)
  | terminal (t : Terminal)
  deriving DecidableEq, Repr

/-- R31: a device record. Its `size` is the device's own: a memory device's buffer length, `PERIPH_SIZE` for a
peripheral (R32), so it is not stored a second time. -/
structure Device where
  /-- A label for the host only; it affects nothing (R31). -/
  name : String
  base : Word
  unit : DeviceUnit
  deriving DecidableEq, Repr

/-- One `KbdEnqueue(k)` of the host (R53): the number of the device in the registry, and the key byte. -/
structure KeyPress where
  device : Nat
  key : Byte
  deriving DecidableEq, Repr

/-- Where the host stands in the order of a run (R235): steps 1 and 2 there come before reset, step 4 after it. -/
inductive Phase where
  /-- Before reset: devices are registered and images loaded, in either order (DESIGN CHOICE, log 12). -/
  | setup
  /-- From reset on, or from a step that no reset came before (DESIGN CHOICE, log 12): the device map is fixed and steps
  are taken. -/
  | running
  deriving DecidableEq, Repr

/-- Everything the spec gives the machine. -/
structure State where
  /-- `PC` (R11). -/
  pc : Word
  /-- `SP` (R12). -/
  sp : Byte
  /-- `A` (R13). -/
  a : Byte
  /-- `X` (R13). -/
  x : Byte
  /-- `Y` (R13). -/
  y : Byte
  /-- `P` (R14); read it through `State.status` and `State.flag`, which show bit 5 as 1 (R15). -/
  p : Byte
  /-- `LEA` (R19). -/
  lea : Word
  /-- `HALTED` (R20). -/
  halted : Bool
  /-- The open parameters (R5); no step changes them (log 1). -/
  cfg : Config
  /-- The device registry in registration order (R31). -/
  devices : List Device
  /-- The model's own field, the run's input (R238, log 8): what the host appends before each coming bus operation of
  the CPU. -/
  arrivals : List (List KeyPress)
  /-- The model's own field (R235, R238, log 12): whether the host may still register devices and load images. -/
  phase : Phase
  deriving DecidableEq, Repr

/-- The kinds of bus error (R43). -/
inductive BusError where
  /-- Raised by every bus operation when no device claims the address (R37 to R41). Safe: the spec says the step
  returns this error. -/
  | deviceNotFound
  /-- Raised by the selected device when the address, or the second byte of a word, is outside its buffer or is neither
  of a peripheral's two addresses (R45 to R48, R51, R52, R54, R58, R59). Safe: the spec says the step returns this
  error. -/
  | outOfRange
  /-- Raised by a memory device's `set` and `set_word` when it is read-only (R46, R48). Safe: the spec says the step
  returns this error. -/
  | readOnlyViolation
  /-- Raised by the host's `load` alone when the image does not fit (R49); never by a step (R224). Safe. -/
  | imageTooLarge
  deriving DecidableEq, Repr

/-- What the spec fixes of the machine after a step that ends in a bus error (R211 item 1): every device, with the
effects of the bus operations that completed earlier in the step, and the run's input still to come. It holds no CPU
register: those are not specified (R211 item 2, 93 U1). -/
structure Aftermath where
  devices : List Device
  arrivals : List (List KeyPress)
  deriving DecidableEq, Repr

/-- Why the machine stops. It stops at a bus error and at nothing else (R210). -/
inductive Fault where
  /-- Raised by the bus operation of a step that fails, whatever the instruction: the kind that `step` returns, and what
  is left (R104, R211, R215). Safe: the spec ends the step and the run here (R216). -/
  | busError (kind : BusError) (left : Aftermath)
  deriving DecidableEq, Repr

/-- What the model declines. No step of the machine ever answers one: every instruction has its meaning. The rest are
the host's calls that R235 and R238 rule out. -/
inductive Refusal where
  /-- Raised by nothing now: kept for an arm of `exec` that would have no meaning yet. Safe. -/
  | notModelled (mnemonic : String)
  /-- Raised by the host's `load` when it is addressed to a keyboard or a terminal (R54, R59, 93 U8). Safe: the spec
  does not define it and asks a model to refuse it. -/
  | peripheralLoad
  /-- Raised by the host's `register_device` after reset (R32, R235, R238, 93 U10). Safe: the device map is fixed. -/
  | lateRegistration
  /-- Raised by the host's `register_device` for a record with `size = 0` or `base + size > 0x10000` (R34, 93 U10).
  Safe: the spec asks a model to refuse it. -/
  | badRecord
  /-- Raised by the host's `load` after reset (R41, R235, R238, 93 U9). Safe: the spec asks a model to refuse it. -/
  | lateLoad
  /-- Raised by the host's second `load` into one device (R49, R238, 93 U9). Safe: the spec asks a model to refuse
  it. -/
  | secondLoad
  /-- Raised by the host's `reset` after a reset (R238: once, not repeated during a run), and after a step that no reset
  came before (DESIGN CHOICE, log 12: R238 assumes that reset comes before the first step). Safe: the spec defines
  neither. -/
  | lateReset
  deriving DecidableEq, Repr

/-- The outcome of an instruction or of a step. -/
abbrev Out := Host.Outcome State Fault Refusal

/-- A memory device as created: nothing loaded (R44). -/
def MemoryDevice.new (size : Nat) (readOnly : Bool) : MemoryDevice where
  size := size
  readOnly := readOnly
  bytes := []
  writeCursor := 0
  loaded := false

/-- A keyboard as created (R50): no key pending, unconfigured. -/
def Keyboard.new : Keyboard where
  queue := []
  configured := false

/-- A row of `TERM_COLS` blank cells (R56, R57). -/
def blankRow (c : Config) : List Byte := List.replicate c.termCols c.termBlank

/-- The grid with every cell `TERM_BLANK` (R55, R56). -/
def blankGrid (c : Config) : List (List Byte) := List.replicate c.termRows (blankRow c)

/-- A terminal as created (R55): blank grid, cursor (0, 0), unconfigured. -/
def Terminal.new (c : Config) : Terminal where
  grid := blankGrid c
  row := 0
  col := 0
  configured := false

/-- DESIGN CHOICE (log 2): the device map of program P4 of 95_test_vectors.md, the one map of the spec that holds every
kind of device; the map is an open parameter (R5), so this is unsafe for a statement about State.reset only. -/
def defaultDevices : List Device :=
  [ { name := "RAM", base := 0x0000#16, unit := .memory (MemoryDevice.new 0x8000 false) },
    { name := "keyboard", base := 0xD010#16, unit := .keyboard Keyboard.new },
    { name := "terminal", base := 0xD020#16, unit := .terminal (Terminal.new Config.default) },
    { name := "ROM", base := 0xF000#16, unit := .memory (MemoryDevice.new 0x1000 true) } ]

/-- The machine right after reset (R230, R26), with the defaults of R5 (logs 1 to 5) and nothing loaded: the reset
vector's two bytes then read 0x00 (log 3), so the pc is 0x0000. Reset is done, so the phase is `running` (log 12). -/
def State.reset : State where
  pc := 0x0000#16
  sp := Config.default.resetSP
  a := Config.default.resetA
  x := Config.default.resetX
  y := Config.default.resetY
  p := Config.default.resetStatus ||| 0x20#8
  lea := 0x0000#16
  halted := false
  cfg := Config.default
  devices := defaultDevices
  arrivals := []
  phase := .running

end Sys2Proof.Machine
end

