-- ==== Sys2Proof/Machine/Memory.lean ====
section
/-! DEFINITION. The contents of a memory device as a list of (index, byte) pairs in one canonical form: what an unlisted
index reads as, reading, writing, and the form itself (20_memory.md R44). -/

namespace Sys2Proof.Machine

/-- What a byte no `load` and no instruction wrote reads as. DESIGN CHOICE (log 3): R44 leaves it open ("any value");
this is `INIT_IMAGE`'s default of R5. -/
def unlistedByte : Byte := 0x00#8

/-- The canonical form: indices strictly rising, no entry equal to what an unlisted index reads as. -/
abbrev Memory.wf (m : Memory) : Prop :=
  (m.map Prod.fst).Pairwise (· < ·) ∧ ∀ c ∈ m, c.2 ≠ unlistedByte

/-- The byte at index `i`. -/
def Memory.read : Memory → Nat → Byte
  | [], _ => unlistedByte
  | (k, w) :: rest, i =>
    if i < k then unlistedByte else if i = k then w else Memory.read rest i

/-- One more entry in front, unless the byte is what an unlisted index reads as. -/
def consByte (i : Nat) (v : Byte) (rest : Memory) : Memory :=
  if v = unlistedByte then rest else (i, v) :: rest

/-- The contents after `bytes[i] <- v`. -/
def Memory.write : Memory → Nat → Byte → Memory
  | [], i, v => consByte i v []
  | (k, w) :: rest, i, v =>
    if i < k then consByte i v ((k, w) :: rest)
    else if i = k then consByte i v rest
    else (k, w) :: Memory.write rest i v

/-- The contents after `bytes[i + j] <- data[j]` for every `j` (R49). -/
def Memory.writeAll (m : Memory) (i : Nat) : List Byte → Memory
  | [] => m
  | v :: rest => Memory.writeAll (m.write i v) (i + 1) rest

end Sys2Proof.Machine
end

