-- ==== Sys2Proof/Machine/Devices.lean ====
section
/-! DEFINITION. The three kinds of device behind the bus: the memory device (20_memory.md R44 to R49), the keyboard
(R50 to R54) and the terminal (R55 to R59). A device operation takes the offset of the address from the record's `base`
(R44: `idx = addr - base`). -/

namespace Sys2Proof.Machine

/-! ## The memory device -/

/-- R45. -/
def MemoryDevice.get (m : MemoryDevice) (idx : Nat) : Except BusError Byte :=
  if idx ≥ m.size then .error .outOfRange else .ok (m.bytes.read idx)

/-- R46: the read-only test comes before the range test. -/
def MemoryDevice.set (m : MemoryDevice) (idx : Nat) (v : Byte) : Except BusError MemoryDevice :=
  if m.readOnly then .error .readOnlyViolation
  else if idx ≥ m.size then .error .outOfRange
  else .ok { m with bytes := m.bytes.write idx v }

/-- R47: both bytes inside the buffer; the low byte at the lower index. -/
def MemoryDevice.getWord (m : MemoryDevice) (idx : Nat) : Except BusError Word :=
  if idx + 1 ≥ m.size then .error .outOfRange
  else .ok (joinWord (m.bytes.read (idx + 1)) (m.bytes.read idx))

/-- R48: both bytes are written or neither. -/
def MemoryDevice.setWord (m : MemoryDevice) (idx : Nat) (w : Word) : Except BusError MemoryDevice :=
  if m.readOnly then .error .readOnlyViolation
  else if idx + 1 ≥ m.size then .error .outOfRange
  else .ok { m with bytes := (m.bytes.write idx (lo w)).write (idx + 1) (hi w) }

/-- R49: `load` ignores `read_only`; nothing is written if the image does not fit. -/
def MemoryDevice.load (m : MemoryDevice) (start : Nat) (data : List Byte) : Except BusError MemoryDevice :=
  if start + data.length > m.size then .error .imageTooLarge
  else .ok { m with bytes := m.bytes.writeAll start data, writeCursor := start + data.length, loaded := true }

/-! ## The keyboard -/

/-- R51: the data address pops the oldest key with bit 7 forced to 1, the control address shows whether one is
pending. -/
def Keyboard.get (c : Config) (k : Keyboard) (off : Nat) : Except BusError (Byte × Keyboard) :=
  if off = c.kbdDataOff then
    match k.queue with
    | [] => .ok (0x00#8, k)
    | key :: rest => .ok (key ||| 0x80#8, { k with queue := rest })
  else if off = c.kbdCtrlOff then .ok (if k.queue.isEmpty then 0x00#8 else 0x80#8, k)
  else .error .outOfRange

/-- R52: the control address toggles `configured`, the data address does nothing; the value is never stored. -/
def Keyboard.set (c : Config) (k : Keyboard) (off : Nat) (_v : Byte) : Except BusError Keyboard :=
  if off = c.kbdCtrlOff then .ok { k with configured := !k.configured }
  else if off = c.kbdDataOff then .ok k
  else .error .outOfRange

/-- R53: the host appends a key byte at the end of the queue. -/
def Keyboard.enqueue (k : Keyboard) (key : Byte) : Keyboard := { k with queue := k.queue ++ [key] }

/-! ## The terminal -/

/-- `NewLine()` of R57: the column returns to 0, the row advances, and past the last row the grid scrolls up by one at
once. -/
def Terminal.newLine (c : Config) (t : Terminal) : Terminal :=
  if t.row + 1 = c.termRows then
    { t with grid := t.grid.drop 1 ++ [blankRow c], row := c.termRows - 1, col := 0 }
  else { t with row := t.row + 1, col := 0 }

/-- `grid[row][col] <- v`. -/
def Terminal.putCell (t : Terminal) (v : Byte) : Terminal :=
  { t with grid := t.grid.modify t.row fun cells => cells.set t.col v }

/-- The configured part of R57: strip the top bit; a carriage return moves to a new line and is not stored; any other
character is stored at the cursor, which advances and wraps at the column limit. -/
def Terminal.print (c : Config) (t : Terminal) (v : Byte) : Terminal :=
  if v &&& 0x7F#8 = 0x0D#8 then t.newLine c
  else
    let t := t.putCell (v &&& 0x7F#8)
    let t := { t with col := t.col + 1 }
    if t.col = c.termCols then t.newLine c else t

/-- R56: a control write clears the grid, homes the cursor and enters configured mode, whatever the value. -/
def Terminal.clear (c : Config) (t : Terminal) : Terminal :=
  { t with grid := blankGrid c, row := 0, col := 0, configured := true }

/-- R58: either address reads 0x00 with no side effect. -/
def Terminal.get (c : Config) (t : Terminal) (off : Nat) : Except BusError (Byte × Terminal) :=
  if off = c.termDataOff ∨ off = c.termCtrlOff then .ok (0x00#8, t) else .error .outOfRange

/-- R56, R57, R58: the control address clears; the data address prints while configured and is ignored before. -/
def Terminal.set (c : Config) (t : Terminal) (off : Nat) (v : Byte) : Except BusError Terminal :=
  if off = c.termCtrlOff then .ok (t.clear c)
  else if off = c.termDataOff then .ok (if t.configured then t.print c v else t)
  else .error .outOfRange

/-! ## A device of any kind -/

/-- R32: a memory device's size is its buffer's, a peripheral's is `PERIPH_SIZE`. -/
def Device.size (c : Config) (d : Device) : Nat :=
  match d.unit with
  | .memory m => m.size
  | .keyboard _ => c.periphSize
  | .terminal _ => c.periphSize

/-- The match test of R35; `base + size` is an exact sum. -/
def Device.claims (c : Config) (d : Device) (addr : Word) : Bool :=
  decide (d.base.toNat ≤ addr.toNat)
    && (if c.routeEndInclusive then decide (addr.toNat ≤ d.base.toNat + d.size c)
        else decide (addr.toNat < d.base.toNat + d.size c))

/-- `addr - base` (R44); the router has found `base ≤ addr`. -/
def Device.offset (d : Device) (addr : Word) : Nat := addr.toNat - d.base.toNat

/-- The device's own `get` (R45, R51, R58), with the device as the read leaves it. -/
def Device.get (c : Config) (d : Device) (off : Nat) : Except BusError (Byte × Device) :=
  match d.unit with
  | .memory m => (m.get off).map fun v => (v, d)
  | .keyboard k => (k.get c off).map fun (v, k) => (v, { d with unit := .keyboard k })
  | .terminal t => (t.get c off).map fun (v, t) => (v, { d with unit := .terminal t })

/-- The device's own `set` (R46, R52, R56, R57). -/
def Device.set (c : Config) (d : Device) (off : Nat) (v : Byte) : Except BusError Device :=
  match d.unit with
  | .memory m => (m.set off v).map fun m => { d with unit := .memory m }
  | .keyboard k => (k.set c off v).map fun k => { d with unit := .keyboard k }
  | .terminal t => (t.set c off v).map fun t => { d with unit := .terminal t }

/-- A peripheral's word read (R54, R59): the low byte's `get`, then the high byte's, provided both offsets are inside
the device. -/
def Device.getPair (c : Config) (d : Device) (off : Nat) : Except BusError (Word × Device) :=
  if off + 1 < c.periphSize then
    (d.get c off).bind fun (l, d) => (d.get c (off + 1)).map fun (h, d) => (joinWord h l, d)
  else .error .outOfRange

/-- A peripheral's word write (R54, R59): the low byte's `set`, then the high byte's. -/
def Device.setPair (c : Config) (d : Device) (off : Nat) (w : Word) : Except BusError Device :=
  if off + 1 < c.periphSize then (d.set c off (lo w)).bind fun d => d.set c (off + 1) (hi w)
  else .error .outOfRange

/-- The device's own `get_word` (R47, R54, R59). -/
def Device.getWord (c : Config) (d : Device) (off : Nat) : Except BusError (Word × Device) :=
  match d.unit with
  | .memory m => (m.getWord off).map fun w => (w, d)
  | .keyboard _ => d.getPair c off
  | .terminal _ => d.getPair c off

/-- The device's own `set_word` (R48, R54, R59). -/
def Device.setWord (c : Config) (d : Device) (off : Nat) (w : Word) : Except BusError Device :=
  match d.unit with
  | .memory m => (m.setWord off w).map fun m => { d with unit := .memory m }
  | .keyboard _ => d.setPair c off w
  | .terminal _ => d.setPair c off w

/-- The byte of memory at an offset, read with no side effect: `none` for a peripheral and past the buffer. -/
def Device.peek (d : Device) (off : Nat) : Option Byte :=
  match d.unit with
  | .memory m => (m.get off).toOption
  | .keyboard _ => none
  | .terminal _ => none

/-- The word of memory at an offset, both bytes inside the buffer, read with no side effect. -/
def Device.peekWord (d : Device) (off : Nat) : Option Word :=
  match d.unit with
  | .memory m => (m.getWord off).toOption
  | .keyboard _ => none
  | .terminal _ => none

/-- The host's key append at this device (R53); a device that is no keyboard has no queue and is left as it is. -/
def Device.enqueue (d : Device) (key : Byte) : Device :=
  match d.unit with
  | .memory _ => d
  | .keyboard k => { d with unit := .keyboard (k.enqueue key) }
  | .terminal _ => d

end Sys2Proof.Machine
end

