-- ==== Sys2Proof/Machine/Ops.lean ====
section
/-! DEFINITION. The named operations over the state: routing and the bus operations (20_memory.md R35 to R40), the host's
key appends between them (R53, R67), the CPU's memory and stack primitives (00_scope.md R7; 10_state.md R12), the
status register (R14, R15), and what a bus error does to a step (40 R104; 60 R211, R215). -/

namespace Sys2Proof.Machine

/-! ## Routing and the bus operations -/

/-- `Route(addr)` of R35: the first registered device whose interval holds the address. -/
def State.route (s : State) (addr : Word) : Option Device :=
  s.devices.find? fun d => d.claims s.cfg addr

/-- The registry with its first device that claims `addr` replaced by `d'`. -/
def replaceRouted (c : Config) (addr : Word) (d' : Device) : List Device → List Device
  | [] => []
  | d :: ds => if d.claims c addr then d' :: ds else d :: replaceRouted c addr d' ds

/-- The state with the device that owns `addr` replaced by what an operation made of it. -/
def State.putRouted (s : State) (addr : Word) (d' : Device) : State :=
  { s with devices := replaceRouted s.cfg addr d' s.devices }

/-- `BusGet(addr)` of R37. -/
def State.busGet (s : State) (addr : Word) : Except BusError (Byte × State) :=
  match s.route addr with
  | none => .error .deviceNotFound
  | some d => (d.get s.cfg (d.offset addr)).map fun (v, d') => (v, s.putRouted addr d')

/-- `BusSet(addr, v)` of R38. -/
def State.busSet (s : State) (addr : Word) (v : Byte) : Except BusError State :=
  match s.route addr with
  | none => .error .deviceNotFound
  | some d => (d.set s.cfg (d.offset addr) v).map fun d' => s.putRouted addr d'

/-- `BusGetWord(addr)` of R39: routed once, by the low byte's address. -/
def State.busGetWord (s : State) (addr : Word) : Except BusError (Word × State) :=
  match s.route addr with
  | none => .error .deviceNotFound
  | some d => (d.getWord s.cfg (d.offset addr)).map fun (w, d') => (w, s.putRouted addr d')

/-- `BusSetWord(addr, w)` of R40: routed once; no instruction uses it. -/
def State.busSetWord (s : State) (addr : Word) (w : Word) : Except BusError State :=
  match s.route addr with
  | none => .error .deviceNotFound
  | some d => (d.setWord s.cfg (d.offset addr) w).map fun d' => s.putRouted addr d'

/-! ## What a byte of memory holds -/

/-- The byte of memory an address names, read with no side effect: the byte of the memory device that owns the address
(R35, R44). It is `none` where no memory byte is: no device, a peripheral, or the address one past a buffer. -/
def State.peek (s : State) (addr : Word) : Option Byte :=
  (s.route addr).bind fun d => d.peek (d.offset addr)

/-- The word of memory at an address, both bytes in the one owning device (R39, R47), read with no side effect. -/
def State.peekWord (s : State) (addr : Word) : Option Word :=
  (s.route addr).bind fun d => d.peekWord (d.offset addr)

/-! ## The host's key appends -/

/-- `KbdEnqueue(k)` of R53 at the device with that number in the registry. -/
def State.kbdEnqueue (s : State) (k : KeyPress) : State :=
  { s with devices := s.devices.modify k.device fun d => d.enqueue k.key }

/-- The host's turn before a bus operation of the CPU: it appends the keys that `arrivals` schedules there (R53, R67,
R238; log 8). -/
def State.hostTurn (s : State) : State :=
  match s.arrivals with
  | [] => s
  | keys :: rest => keys.foldl State.kbdEnqueue { s with arrivals := rest }

/-! ## The CPU's memory primitives (R7) -/

/-- What is left if a bus operation now fails (R211 item 1): the operations before it stand, it changes nothing. -/
def State.aftermath (s : State) : Aftermath where
  devices := s.devices
  arrivals := s.arrivals

/-- One bus operation of the CPU: the host's turn, then the operation. If it fails, the error carries what is left of
the devices (R104, R211). -/
def State.access {α : Type} (s : State) (op : State → Except BusError α) : Except Fault α :=
  (op s.hostTurn).mapError fun kind => .busError kind s.hostTurn.aftermath

/-- `MemRead(addr, 1)`. -/
def State.memRead (s : State) (addr : Word) : Except Fault (Byte × State) := s.access fun s => s.busGet addr

/-- `MemRead(addr, 2)`. -/
def State.memReadWord (s : State) (addr : Word) : Except Fault (Word × State) := s.access fun s => s.busGetWord addr

/-- `MemWrite(addr, 1, v)`. -/
def State.memWrite (s : State) (addr : Word) (v : Byte) : Except Fault State := s.access fun s => s.busSet addr v

/-- `Fetch8()`: the byte at `PC`, then `PC` advances by 1 modulo 65536 (R11). -/
def State.fetch8 (s : State) : Except Fault (Byte × State) :=
  (s.memRead s.pc).map fun (v, s) => (v, { s with pc := s.pc + 1#16 })

/-- `Fetch16()`: the word at `PC` in one word read, then `PC` advances by 2. -/
def State.fetch16 (s : State) : Except Fault (Word × State) :=
  (s.memReadWord s.pc).map fun (w, s) => (w, { s with pc := s.pc + 2#16 })

/-! ## The stack (R12) -/

/-- `0x0100 + SP`: always in the stack page. -/
def stackAddr (sp : Byte) : Word := 0x0100#16 + zext16 sp

/-- `Push8(v)`: write, then decrement modulo 256. -/
def State.push8 (s : State) (v : Byte) : Except Fault State :=
  (s.memWrite (stackAddr s.sp) v).map fun s => { s with sp := s.sp - 1#8 }

/-- `Pull8()`: increment modulo 256, then read. -/
def State.pull8 (s : State) : Except Fault (Byte × State) :=
  ({ s with sp := s.sp + 1#8 } : State).memRead (stackAddr (s.sp + 1#8))

/-! ## The status register (R14 to R16) -/

/-- The eight bits of `P` by name: the flags of R14 and the reserved bit 5. -/
inductive Flag where
  | C | Z | I | D | B | R | V | N
  deriving DecidableEq, Repr

/-- The bit of each flag (R7, R14). -/
def Flag.bit : Flag → Nat
  | .C => 0
  | .Z => 1
  | .I => 2
  | .D => 3
  | .B => 4
  | .R => 5
  | .V => 6
  | .N => 7

/-- A read of `P` as a whole: bit 5 is always 1 (R15). -/
def State.status (s : State) : Byte := s.p ||| 0x20#8

/-- A write of `P` as a whole: `P <- v | 0x20` (R15); every other bit is stored as given (R16). -/
def State.setStatus (s : State) (v : Byte) : State := { s with p := v ||| 0x20#8 }

/-- A read of one flag (R7). -/
def State.flag (s : State) (f : Flag) : Bool := bitOf s.status f.bit

/-- A write of one flag: the other bits keep their value, and naming bit 5 changes nothing (R7, R15, R22). -/
def State.setFlag (s : State) (f : Flag) (b : Bool) : State :=
  if f = .R then s else { s with p := withBit s.p f.bit b }

/-! ## The one exception: a bus error (R104, R210, R211, R215) -/

/-- A bus error ends the step with its kind. The machine saves nothing, pushes nothing, reads no vector and changes no
mode (R215). The devices stay as the step's earlier bus operations left them; the CPU registers afterwards are
unspecified (R211), so the outcome holds the one and not the other. -/
def endStep (error : Fault) : Out := .fault error

/-- The rest of a step after a bus operation: it goes on with the operation's result, or the error ends the step with
no further bus operation (R104). -/
def proceed {α : Type} (r : Except Fault α) (k : α → Out) : Out :=
  match r with
  | .ok v => k v
  | .error e => endStep e

end Sys2Proof.Machine
end

