-- ==== Sys2Proof/Machine/Flags.lean ====
section
/-! DEFINITION. Every flag computation of the spec: `SetZN` (41_alu.md R120), the sum of `ADC` and `SBC` (R121), the
comparison (R123), the shifts and rotates (R129 to R132) and `BIT` (R139). -/

namespace Sys2Proof.Machine

/-- `SetZN(v)` of R120. -/
def State.setZN (s : State) (v : Byte) : State := (s.setFlag .Z (v == 0x00#8)).setFlag .N (bitOf v 7)

/-- `A + m + c` of R121, exact: 0 to 511. -/
def adcSum (a m : Byte) (c : Bool) : Nat := a.toNat + m.toNat + c.toNat

/-- `sum & 0xFF` of R121. -/
def adcResult (a m : Byte) (c : Bool) : Byte := BitVec.ofNat 8 (adcSum a m c)

/-- The carry out of R121. -/
def adcCarry (a m : Byte) (c : Bool) : Bool := decide (adcSum a m c ≥ 0x100)

/-- The overflow of R121: the two operands share a sign bit and the result's differs from it. -/
def adcOverflow (a m : Byte) (c : Bool) : Bool :=
  bitOf a 7 == bitOf m 7 && bitOf (adcResult a m c) 7 != bitOf a 7

/-- `AddWithCarry(m)` of R121, shared by `ADC` and `SBC`; `P.D` is not read (R17). -/
def State.addWithCarry (s : State) (m : Byte) : State :=
  let r := adcResult s.a m (s.flag .C)
  let t := (s.setFlag .V (adcOverflow s.a m (s.flag .C))).setFlag .C (adcCarry s.a m (s.flag .C))
  { t.setZN r with a := r }

/-- `Compare(reg, m)` of R123, shared by `CMP`, `CPX`, `CPY`; the comparison is unsigned. -/
def State.compare (s : State) (reg m : Byte) : State :=
  ((s.setFlag .N (bitOf (reg - m) 7)).setFlag .Z (reg == m)).setFlag .C (decide (reg.toNat ≥ m.toNat))

/-- `r` of `ASL` (R129). -/
def aslByte (v : Byte) : Byte := v <<< 1

/-- `r` of `LSR` (R130). -/
def lsrByte (v : Byte) : Byte := v >>> 1

/-- `r` of `ROL` (R131): the old carry enters bit 0. -/
def rolByte (c : Bool) (v : Byte) : Byte := (v <<< 1) ||| (if c then 0x01#8 else 0x00#8)

/-- `r` of `ROR` (R132): the old carry enters bit 7. -/
def rorByte (c : Bool) (v : Byte) : Byte := (v >>> 1) ||| (if c then 0x80#8 else 0x00#8)

/-- The flags of a shift or rotate: the bit shifted out is the carry, `Z` and `N` are from the result (R129 to R132). -/
def State.setShift (s : State) (out : Bool) (r : Byte) : State := (s.setFlag .C out).setZN r

/-- The flags of `BIT` (R139): `Z` from `A & m`, `N` and `V` from bits 7 and 6 of the operand. -/
def State.bitTest (s : State) (m : Byte) : State :=
  ((s.setFlag .Z (s.a &&& m == 0x00#8)).setFlag .N (bitOf m 7)).setFlag .V (bitOf m 6)

end Sys2Proof.Machine
end

