-- ==== Sys2Proof/Syntax.lean ====
section
/-! DEFINITION. The instructions of go6502 CORE: one constructor per row of spec/opcode_table.json (30_encoding.md R84,
R86, R87), the thirteen operand forms (R83), and the mnemonic and operand of each instruction. -/

namespace Sys2Proof

/-- The ten addressing modes that have a resolver (R83; 40_step_and_addressing.md R106 to R115), with their operand:
`nn` is the operand byte, `w` the little-endian operand word `hhll`. -/
inductive Mode where
  | immediate (nn : Byte)
  | zeroPage (nn : Byte)
  | zeroPageX (nn : Byte)
  | zeroPageY (nn : Byte)
  | absolute (w : Word)
  | absoluteX (w : Word)
  | absoluteY (w : Word)
  | indirect (w : Word)
  /-- (Indirect,X) -/
  | indexedIndirect (nn : Byte)
  /-- (Indirect),Y -/
  | indirectIndexed (nn : Byte)
  deriving DecidableEq, Repr

/-- The thirteen operand forms of R83: Implied, Accumulator, Relative, and the ten with a resolver. -/
inductive Operand where
  | implied
  | accumulator
  | relative (rr : Byte)
  | mode (m : Mode)
  deriving DecidableEq, Repr

/-- The 56 mnemonics of R84, `HLT` (R86) and the unassigned opcode (R87). -/
inductive Mnemonic where
  | ADC | SBC | CMP | CPX | CPY | AND | ORA | EOR | ASL | LSR | ROL | ROR | INC | DEC | INX | DEX | INY | DEY | BIT
  | BPL | BMI | BVC | BVS | BCC | BCS | BNE | BEQ | JMP | JSR | RTS | RTI | BRK | HLT
  | PHA | PLA | PHP | PLP | TXS | TSX
  | LDA | LDX | LDY | STA | STX | STY
  | TAX | TAY | TXA | TYA | CLC | SEC | CLI | SEI | CLV | CLD | SED | NOP | unassigned
  deriving DecidableEq, Repr

/-- The instructions, one constructor per row of the opcode table, in the order of files 41, 42 and 43. -/
inductive Instr where
  | adcImm (nn : Byte)
  | adcZp (nn : Byte)
  | adcZpx (nn : Byte)
  | adcAbs (w : Word)
  | adcAbx (w : Word)
  | adcAby (w : Word)
  | adcIzx (nn : Byte)
  | adcIzy (nn : Byte)
  | sbcImm (nn : Byte)
  | sbcZp (nn : Byte)
  | sbcZpx (nn : Byte)
  | sbcAbs (w : Word)
  | sbcAbx (w : Word)
  | sbcAby (w : Word)
  | sbcIzx (nn : Byte)
  | sbcIzy (nn : Byte)
  | cmpImm (nn : Byte)
  | cmpZp (nn : Byte)
  | cmpZpx (nn : Byte)
  | cmpAbs (w : Word)
  | cmpAbx (w : Word)
  | cmpAby (w : Word)
  | cmpIzx (nn : Byte)
  | cmpIzy (nn : Byte)
  | cpxImm (nn : Byte)
  | cpxZp (nn : Byte)
  | cpxAbs (w : Word)
  | cpyImm (nn : Byte)
  | cpyZp (nn : Byte)
  | cpyAbs (w : Word)
  | andImm (nn : Byte)
  | andZp (nn : Byte)
  | andZpx (nn : Byte)
  | andAbs (w : Word)
  | andAbx (w : Word)
  | andAby (w : Word)
  | andIzx (nn : Byte)
  | andIzy (nn : Byte)
  | oraImm (nn : Byte)
  | oraZp (nn : Byte)
  | oraZpx (nn : Byte)
  | oraAbs (w : Word)
  | oraAbx (w : Word)
  | oraAby (w : Word)
  | oraIzx (nn : Byte)
  | oraIzy (nn : Byte)
  | eorImm (nn : Byte)
  | eorZp (nn : Byte)
  | eorZpx (nn : Byte)
  | eorAbs (w : Word)
  | eorAbx (w : Word)
  | eorAby (w : Word)
  | eorIzx (nn : Byte)
  | eorIzy (nn : Byte)
  | aslAcc
  | aslZp (nn : Byte)
  | aslZpx (nn : Byte)
  | aslAbs (w : Word)
  | aslAbx (w : Word)
  | lsrAcc
  | lsrZp (nn : Byte)
  | lsrZpx (nn : Byte)
  | lsrAbs (w : Word)
  | lsrAbx (w : Word)
  | rolAcc
  | rolZp (nn : Byte)
  | rolZpx (nn : Byte)
  | rolAbs (w : Word)
  | rolAbx (w : Word)
  | rorAcc
  | rorZp (nn : Byte)
  | rorZpx (nn : Byte)
  | rorAbs (w : Word)
  | rorAbx (w : Word)
  | incZp (nn : Byte)
  | incZpx (nn : Byte)
  | incAbs (w : Word)
  | incAbx (w : Word)
  | decZp (nn : Byte)
  | decZpx (nn : Byte)
  | decAbs (w : Word)
  | decAbx (w : Word)
  | inx
  | dex
  | iny
  | dey
  | bitZp (nn : Byte)
  | bitAbs (w : Word)
  | bpl (rr : Byte)
  | bmi (rr : Byte)
  | bvc (rr : Byte)
  | bvs (rr : Byte)
  | bcc (rr : Byte)
  | bcs (rr : Byte)
  | bne (rr : Byte)
  | beq (rr : Byte)
  | jmpAbs (w : Word)
  | jmpInd (w : Word)
  | jsr (w : Word)
  | rts
  | rti
  | brk
  | hlt
  | pha
  | pla
  | php
  | plp
  | txs
  | tsx
  | ldaImm (nn : Byte)
  | ldaZp (nn : Byte)
  | ldaZpx (nn : Byte)
  | ldaAbs (w : Word)
  | ldaAbx (w : Word)
  | ldaAby (w : Word)
  | ldaIzx (nn : Byte)
  | ldaIzy (nn : Byte)
  | ldxImm (nn : Byte)
  | ldxZp (nn : Byte)
  | ldxZpy (nn : Byte)
  | ldxAbs (w : Word)
  | ldxAby (w : Word)
  | ldyImm (nn : Byte)
  | ldyZp (nn : Byte)
  | ldyZpx (nn : Byte)
  | ldyAbs (w : Word)
  | ldyAbx (w : Word)
  | staZp (nn : Byte)
  | staZpx (nn : Byte)
  | staAbs (w : Word)
  | staAbx (w : Word)
  | staAby (w : Word)
  | staIzx (nn : Byte)
  | staIzy (nn : Byte)
  | stxZp (nn : Byte)
  | stxZpy (nn : Byte)
  | stxAbs (w : Word)
  | styZp (nn : Byte)
  | styZpx (nn : Byte)
  | styAbs (w : Word)
  | tax
  | tay
  | txa
  | tya
  | clc
  | sec
  | cli
  | sei
  | clv
  | cld
  | sed
  | nop
  | unassigned (op : Byte)
  deriving DecidableEq, Repr

/-- The mnemonic of each instruction (R84's first column). -/
def Instr.mnemonic : Instr → Mnemonic
  | .adcImm _ => .ADC
  | .adcZp _ => .ADC
  | .adcZpx _ => .ADC
  | .adcAbs _ => .ADC
  | .adcAbx _ => .ADC
  | .adcAby _ => .ADC
  | .adcIzx _ => .ADC
  | .adcIzy _ => .ADC
  | .sbcImm _ => .SBC
  | .sbcZp _ => .SBC
  | .sbcZpx _ => .SBC
  | .sbcAbs _ => .SBC
  | .sbcAbx _ => .SBC
  | .sbcAby _ => .SBC
  | .sbcIzx _ => .SBC
  | .sbcIzy _ => .SBC
  | .cmpImm _ => .CMP
  | .cmpZp _ => .CMP
  | .cmpZpx _ => .CMP
  | .cmpAbs _ => .CMP
  | .cmpAbx _ => .CMP
  | .cmpAby _ => .CMP
  | .cmpIzx _ => .CMP
  | .cmpIzy _ => .CMP
  | .cpxImm _ => .CPX
  | .cpxZp _ => .CPX
  | .cpxAbs _ => .CPX
  | .cpyImm _ => .CPY
  | .cpyZp _ => .CPY
  | .cpyAbs _ => .CPY
  | .andImm _ => .AND
  | .andZp _ => .AND
  | .andZpx _ => .AND
  | .andAbs _ => .AND
  | .andAbx _ => .AND
  | .andAby _ => .AND
  | .andIzx _ => .AND
  | .andIzy _ => .AND
  | .oraImm _ => .ORA
  | .oraZp _ => .ORA
  | .oraZpx _ => .ORA
  | .oraAbs _ => .ORA
  | .oraAbx _ => .ORA
  | .oraAby _ => .ORA
  | .oraIzx _ => .ORA
  | .oraIzy _ => .ORA
  | .eorImm _ => .EOR
  | .eorZp _ => .EOR
  | .eorZpx _ => .EOR
  | .eorAbs _ => .EOR
  | .eorAbx _ => .EOR
  | .eorAby _ => .EOR
  | .eorIzx _ => .EOR
  | .eorIzy _ => .EOR
  | .aslAcc => .ASL
  | .aslZp _ => .ASL
  | .aslZpx _ => .ASL
  | .aslAbs _ => .ASL
  | .aslAbx _ => .ASL
  | .lsrAcc => .LSR
  | .lsrZp _ => .LSR
  | .lsrZpx _ => .LSR
  | .lsrAbs _ => .LSR
  | .lsrAbx _ => .LSR
  | .rolAcc => .ROL
  | .rolZp _ => .ROL
  | .rolZpx _ => .ROL
  | .rolAbs _ => .ROL
  | .rolAbx _ => .ROL
  | .rorAcc => .ROR
  | .rorZp _ => .ROR
  | .rorZpx _ => .ROR
  | .rorAbs _ => .ROR
  | .rorAbx _ => .ROR
  | .incZp _ => .INC
  | .incZpx _ => .INC
  | .incAbs _ => .INC
  | .incAbx _ => .INC
  | .decZp _ => .DEC
  | .decZpx _ => .DEC
  | .decAbs _ => .DEC
  | .decAbx _ => .DEC
  | .inx => .INX
  | .dex => .DEX
  | .iny => .INY
  | .dey => .DEY
  | .bitZp _ => .BIT
  | .bitAbs _ => .BIT
  | .bpl _ => .BPL
  | .bmi _ => .BMI
  | .bvc _ => .BVC
  | .bvs _ => .BVS
  | .bcc _ => .BCC
  | .bcs _ => .BCS
  | .bne _ => .BNE
  | .beq _ => .BEQ
  | .jmpAbs _ => .JMP
  | .jmpInd _ => .JMP
  | .jsr _ => .JSR
  | .rts => .RTS
  | .rti => .RTI
  | .brk => .BRK
  | .hlt => .HLT
  | .pha => .PHA
  | .pla => .PLA
  | .php => .PHP
  | .plp => .PLP
  | .txs => .TXS
  | .tsx => .TSX
  | .ldaImm _ => .LDA
  | .ldaZp _ => .LDA
  | .ldaZpx _ => .LDA
  | .ldaAbs _ => .LDA
  | .ldaAbx _ => .LDA
  | .ldaAby _ => .LDA
  | .ldaIzx _ => .LDA
  | .ldaIzy _ => .LDA
  | .ldxImm _ => .LDX
  | .ldxZp _ => .LDX
  | .ldxZpy _ => .LDX
  | .ldxAbs _ => .LDX
  | .ldxAby _ => .LDX
  | .ldyImm _ => .LDY
  | .ldyZp _ => .LDY
  | .ldyZpx _ => .LDY
  | .ldyAbs _ => .LDY
  | .ldyAbx _ => .LDY
  | .staZp _ => .STA
  | .staZpx _ => .STA
  | .staAbs _ => .STA
  | .staAbx _ => .STA
  | .staAby _ => .STA
  | .staIzx _ => .STA
  | .staIzy _ => .STA
  | .stxZp _ => .STX
  | .stxZpy _ => .STX
  | .stxAbs _ => .STX
  | .styZp _ => .STY
  | .styZpx _ => .STY
  | .styAbs _ => .STY
  | .tax => .TAX
  | .tay => .TAY
  | .txa => .TXA
  | .tya => .TYA
  | .clc => .CLC
  | .sec => .SEC
  | .cli => .CLI
  | .sei => .SEI
  | .clv => .CLV
  | .cld => .CLD
  | .sed => .SED
  | .nop => .NOP
  | .unassigned _ => .unassigned

/-- The operand form of each instruction, with its operand (R83, R84). -/
def Instr.operand : Instr → Operand
  | .adcImm nn => .mode (.immediate nn)
  | .adcZp nn => .mode (.zeroPage nn)
  | .adcZpx nn => .mode (.zeroPageX nn)
  | .adcAbs w => .mode (.absolute w)
  | .adcAbx w => .mode (.absoluteX w)
  | .adcAby w => .mode (.absoluteY w)
  | .adcIzx nn => .mode (.indexedIndirect nn)
  | .adcIzy nn => .mode (.indirectIndexed nn)
  | .sbcImm nn => .mode (.immediate nn)
  | .sbcZp nn => .mode (.zeroPage nn)
  | .sbcZpx nn => .mode (.zeroPageX nn)
  | .sbcAbs w => .mode (.absolute w)
  | .sbcAbx w => .mode (.absoluteX w)
  | .sbcAby w => .mode (.absoluteY w)
  | .sbcIzx nn => .mode (.indexedIndirect nn)
  | .sbcIzy nn => .mode (.indirectIndexed nn)
  | .cmpImm nn => .mode (.immediate nn)
  | .cmpZp nn => .mode (.zeroPage nn)
  | .cmpZpx nn => .mode (.zeroPageX nn)
  | .cmpAbs w => .mode (.absolute w)
  | .cmpAbx w => .mode (.absoluteX w)
  | .cmpAby w => .mode (.absoluteY w)
  | .cmpIzx nn => .mode (.indexedIndirect nn)
  | .cmpIzy nn => .mode (.indirectIndexed nn)
  | .cpxImm nn => .mode (.immediate nn)
  | .cpxZp nn => .mode (.zeroPage nn)
  | .cpxAbs w => .mode (.absolute w)
  | .cpyImm nn => .mode (.immediate nn)
  | .cpyZp nn => .mode (.zeroPage nn)
  | .cpyAbs w => .mode (.absolute w)
  | .andImm nn => .mode (.immediate nn)
  | .andZp nn => .mode (.zeroPage nn)
  | .andZpx nn => .mode (.zeroPageX nn)
  | .andAbs w => .mode (.absolute w)
  | .andAbx w => .mode (.absoluteX w)
  | .andAby w => .mode (.absoluteY w)
  | .andIzx nn => .mode (.indexedIndirect nn)
  | .andIzy nn => .mode (.indirectIndexed nn)
  | .oraImm nn => .mode (.immediate nn)
  | .oraZp nn => .mode (.zeroPage nn)
  | .oraZpx nn => .mode (.zeroPageX nn)
  | .oraAbs w => .mode (.absolute w)
  | .oraAbx w => .mode (.absoluteX w)
  | .oraAby w => .mode (.absoluteY w)
  | .oraIzx nn => .mode (.indexedIndirect nn)
  | .oraIzy nn => .mode (.indirectIndexed nn)
  | .eorImm nn => .mode (.immediate nn)
  | .eorZp nn => .mode (.zeroPage nn)
  | .eorZpx nn => .mode (.zeroPageX nn)
  | .eorAbs w => .mode (.absolute w)
  | .eorAbx w => .mode (.absoluteX w)
  | .eorAby w => .mode (.absoluteY w)
  | .eorIzx nn => .mode (.indexedIndirect nn)
  | .eorIzy nn => .mode (.indirectIndexed nn)
  | .aslAcc => .accumulator
  | .aslZp nn => .mode (.zeroPage nn)
  | .aslZpx nn => .mode (.zeroPageX nn)
  | .aslAbs w => .mode (.absolute w)
  | .aslAbx w => .mode (.absoluteX w)
  | .lsrAcc => .accumulator
  | .lsrZp nn => .mode (.zeroPage nn)
  | .lsrZpx nn => .mode (.zeroPageX nn)
  | .lsrAbs w => .mode (.absolute w)
  | .lsrAbx w => .mode (.absoluteX w)
  | .rolAcc => .accumulator
  | .rolZp nn => .mode (.zeroPage nn)
  | .rolZpx nn => .mode (.zeroPageX nn)
  | .rolAbs w => .mode (.absolute w)
  | .rolAbx w => .mode (.absoluteX w)
  | .rorAcc => .accumulator
  | .rorZp nn => .mode (.zeroPage nn)
  | .rorZpx nn => .mode (.zeroPageX nn)
  | .rorAbs w => .mode (.absolute w)
  | .rorAbx w => .mode (.absoluteX w)
  | .incZp nn => .mode (.zeroPage nn)
  | .incZpx nn => .mode (.zeroPageX nn)
  | .incAbs w => .mode (.absolute w)
  | .incAbx w => .mode (.absoluteX w)
  | .decZp nn => .mode (.zeroPage nn)
  | .decZpx nn => .mode (.zeroPageX nn)
  | .decAbs w => .mode (.absolute w)
  | .decAbx w => .mode (.absoluteX w)
  | .inx => .implied
  | .dex => .implied
  | .iny => .implied
  | .dey => .implied
  | .bitZp nn => .mode (.zeroPage nn)
  | .bitAbs w => .mode (.absolute w)
  | .bpl rr => .relative rr
  | .bmi rr => .relative rr
  | .bvc rr => .relative rr
  | .bvs rr => .relative rr
  | .bcc rr => .relative rr
  | .bcs rr => .relative rr
  | .bne rr => .relative rr
  | .beq rr => .relative rr
  | .jmpAbs w => .mode (.absolute w)
  | .jmpInd w => .mode (.indirect w)
  | .jsr w => .mode (.absolute w)
  | .rts => .implied
  | .rti => .implied
  | .brk => .implied
  | .hlt => .implied
  | .pha => .implied
  | .pla => .implied
  | .php => .implied
  | .plp => .implied
  | .txs => .implied
  | .tsx => .implied
  | .ldaImm nn => .mode (.immediate nn)
  | .ldaZp nn => .mode (.zeroPage nn)
  | .ldaZpx nn => .mode (.zeroPageX nn)
  | .ldaAbs w => .mode (.absolute w)
  | .ldaAbx w => .mode (.absoluteX w)
  | .ldaAby w => .mode (.absoluteY w)
  | .ldaIzx nn => .mode (.indexedIndirect nn)
  | .ldaIzy nn => .mode (.indirectIndexed nn)
  | .ldxImm nn => .mode (.immediate nn)
  | .ldxZp nn => .mode (.zeroPage nn)
  | .ldxZpy nn => .mode (.zeroPageY nn)
  | .ldxAbs w => .mode (.absolute w)
  | .ldxAby w => .mode (.absoluteY w)
  | .ldyImm nn => .mode (.immediate nn)
  | .ldyZp nn => .mode (.zeroPage nn)
  | .ldyZpx nn => .mode (.zeroPageX nn)
  | .ldyAbs w => .mode (.absolute w)
  | .ldyAbx w => .mode (.absoluteX w)
  | .staZp nn => .mode (.zeroPage nn)
  | .staZpx nn => .mode (.zeroPageX nn)
  | .staAbs w => .mode (.absolute w)
  | .staAbx w => .mode (.absoluteX w)
  | .staAby w => .mode (.absoluteY w)
  | .staIzx nn => .mode (.indexedIndirect nn)
  | .staIzy nn => .mode (.indirectIndexed nn)
  | .stxZp nn => .mode (.zeroPage nn)
  | .stxZpy nn => .mode (.zeroPageY nn)
  | .stxAbs w => .mode (.absolute w)
  | .styZp nn => .mode (.zeroPage nn)
  | .styZpx nn => .mode (.zeroPageX nn)
  | .styAbs w => .mode (.absolute w)
  | .tax => .implied
  | .tay => .implied
  | .txa => .implied
  | .tya => .implied
  | .clc => .implied
  | .sec => .implied
  | .cli => .implied
  | .sei => .implied
  | .clv => .implied
  | .cld => .implied
  | .sed => .implied
  | .nop => .implied
  | .unassigned _ => .implied

end Sys2Proof
end

