-- ==== Sys2Proof/Machine/Operands.lean ====
section
/-! DEFINITION. The ten addressing-mode resolvers of 40_step_and_addressing.md (R106 to R115) and the read of an
operand. They run after the operand byte or word has been fetched (Machine/Fetch.lean), so `PC` is already past the
instruction (log 7). -/

namespace Sys2Proof.Machine

/-- Each resolver writes `LEA <- ea` with the address it returns (R19). -/
def State.resolved (s : State) (ea : Word) : Word × State := (ea, { s with lea := ea })

/-- `Resolve(form)`: the effective address of an operand, with `LEA` written. Zero-page sums wrap in 8 bits (R108, R109,
R114), 16-bit sums modulo 65536 (R111, R112, R115); a pointer is one word read at its address, so its high byte is at
the address + 1 (R113 to R115). The immediate's address is the byte after the opcode, the last one before `PC`
(R106). -/
def resolve (m : Mode) (s : State) : Except Fault (Word × State) :=
  match m with
  | .immediate _ => .ok (s.resolved (s.pc - 1#16))
  | .zeroPage nn => .ok (s.resolved (zext16 nn))
  | .zeroPageX nn => .ok (s.resolved (zext16 (nn + s.x)))
  | .zeroPageY nn => .ok (s.resolved (zext16 (nn + s.y)))
  | .absolute w => .ok (s.resolved w)
  | .absoluteX w => .ok (s.resolved (w + zext16 s.x))
  | .absoluteY w => .ok (s.resolved (w + zext16 s.y))
  | .indirect w => (s.memReadWord w).map fun (ea, s) => s.resolved ea
  | .indexedIndirect nn => (s.memReadWord (zext16 (nn + s.x))).map fun (ea, s) => s.resolved ea
  | .indirectIndexed nn => (s.memReadWord (zext16 nn)).map fun (base, s) => s.resolved (base + zext16 s.y)

/-- The operand value `MemRead(ea, 1)` of an instruction body (R103). The immediate's one bus read is the operand fetch
itself, whose byte the instruction carries (R106; log 7). -/
def readOperand (m : Mode) (s : State) : Except Fault (Byte × State) :=
  match m with
  | .immediate nn => (resolve (.immediate nn) s).map fun (_, s) => (nn, s)
  | m => (resolve m s).bind fun (ea, s) => s.memRead ea

/-- The target of a taken relative branch: `PC` after the offset byte plus the signed offset (R117). -/
def State.branchTarget (s : State) (rr : Byte) : Word := s.pc + sext16 rr

end Sys2Proof.Machine
end

