-- ==== Sys2Proof/Machine/Alu.lean ====
section
/-! DEFINITION. The ALU instructions (41_alu.md R121 to R141): one shared operation per mnemonic over its operand, and the
meaning of each opcode as that operation at its operand form. -/

namespace Sys2Proof.Machine

/-- The read-modify-write order of R141: one read, then one write to the same address, then the flags; `flags` gets the
byte read. -/
def readModifyWrite (m : Mode) (s : State) (op : Byte → Byte) (flags : Byte → State → State) : Out :=
  proceed (resolve m s) fun (ea, s) =>
    proceed (s.memRead ea) fun (v, s) =>
      proceed (s.memWrite ea (op v)) fun s => .next (flags v s)

/-- An instruction that reads its operand byte and then works on registers and flags alone. -/
def withOperand (m : Mode) (s : State) (f : Byte → State → State) : Out :=
  proceed (readOperand m s) fun (v, s) => .next (f v s)

/-- The accumulator form of a shift or rotate: the flags, then `A <- r` (R129 to R132, R116). -/
def State.shiftA (s : State) (out : Bool) (r : Byte) : State := { s.setShift out r with a := r }

/-- `A <- r; SetZN(r)`. -/
def State.loadA (s : State) (r : Byte) : State := { s.setZN r with a := r }

/-- `X <- r; SetZN(r)`. -/
def State.loadX (s : State) (r : Byte) : State := { s.setZN r with x := r }

/-- `Y <- r; SetZN(r)`. -/
def State.loadY (s : State) (r : Byte) : State := { s.setZN r with y := r }

/-- R121. -/
def adc (m : Mode) (s : State) : Out := withOperand m s fun v s => s.addWithCarry v

/-- `ADC #nn` (R121, R106). -/
def execAdcImm (nn : Byte) (s : State) : Out := adc (.immediate nn) s

/-- `ADC nn` (R121, R107). -/
def execAdcZp (nn : Byte) (s : State) : Out := adc (.zeroPage nn) s

/-- `ADC nn,X` (R121, R108). -/
def execAdcZpx (nn : Byte) (s : State) : Out := adc (.zeroPageX nn) s

/-- `ADC hhll` (R121, R110). -/
def execAdcAbs (w : Word) (s : State) : Out := adc (.absolute w) s

/-- `ADC hhll,X` (R121, R111). -/
def execAdcAbx (w : Word) (s : State) : Out := adc (.absoluteX w) s

/-- `ADC hhll,Y` (R121, R112). -/
def execAdcAby (w : Word) (s : State) : Out := adc (.absoluteY w) s

/-- `ADC (nn,X)` (R121, R114). -/
def execAdcIzx (nn : Byte) (s : State) : Out := adc (.indexedIndirect nn) s

/-- `ADC (nn),Y` (R121, R115). -/
def execAdcIzy (nn : Byte) (s : State) : Out := adc (.indirectIndexed nn) s

/-- R122: `ADC` of the one's complement. -/
def sbc (m : Mode) (s : State) : Out := withOperand m s fun v s => s.addWithCarry (~~~v)

/-- `SBC #nn` (R122, R106). -/
def execSbcImm (nn : Byte) (s : State) : Out := sbc (.immediate nn) s

/-- `SBC nn` (R122, R107). -/
def execSbcZp (nn : Byte) (s : State) : Out := sbc (.zeroPage nn) s

/-- `SBC nn,X` (R122, R108). -/
def execSbcZpx (nn : Byte) (s : State) : Out := sbc (.zeroPageX nn) s

/-- `SBC hhll` (R122, R110). -/
def execSbcAbs (w : Word) (s : State) : Out := sbc (.absolute w) s

/-- `SBC hhll,X` (R122, R111). -/
def execSbcAbx (w : Word) (s : State) : Out := sbc (.absoluteX w) s

/-- `SBC hhll,Y` (R122, R112). -/
def execSbcAby (w : Word) (s : State) : Out := sbc (.absoluteY w) s

/-- `SBC (nn,X)` (R122, R114). -/
def execSbcIzx (nn : Byte) (s : State) : Out := sbc (.indexedIndirect nn) s

/-- `SBC (nn),Y` (R122, R115). -/
def execSbcIzy (nn : Byte) (s : State) : Out := sbc (.indirectIndexed nn) s

/-- R123. -/
def cmp (m : Mode) (s : State) : Out := withOperand m s fun v s => s.compare s.a v

/-- `CMP #nn` (R123, R106). -/
def execCmpImm (nn : Byte) (s : State) : Out := cmp (.immediate nn) s

/-- `CMP nn` (R123, R107). -/
def execCmpZp (nn : Byte) (s : State) : Out := cmp (.zeroPage nn) s

/-- `CMP nn,X` (R123, R108). -/
def execCmpZpx (nn : Byte) (s : State) : Out := cmp (.zeroPageX nn) s

/-- `CMP hhll` (R123, R110). -/
def execCmpAbs (w : Word) (s : State) : Out := cmp (.absolute w) s

/-- `CMP hhll,X` (R123, R111). -/
def execCmpAbx (w : Word) (s : State) : Out := cmp (.absoluteX w) s

/-- `CMP hhll,Y` (R123, R112). -/
def execCmpAby (w : Word) (s : State) : Out := cmp (.absoluteY w) s

/-- `CMP (nn,X)` (R123, R114). -/
def execCmpIzx (nn : Byte) (s : State) : Out := cmp (.indexedIndirect nn) s

/-- `CMP (nn),Y` (R123, R115). -/
def execCmpIzy (nn : Byte) (s : State) : Out := cmp (.indirectIndexed nn) s

/-- R124. -/
def cpx (m : Mode) (s : State) : Out := withOperand m s fun v s => s.compare s.x v

/-- `CPX #nn` (R124, R106). -/
def execCpxImm (nn : Byte) (s : State) : Out := cpx (.immediate nn) s

/-- `CPX nn` (R124, R107). -/
def execCpxZp (nn : Byte) (s : State) : Out := cpx (.zeroPage nn) s

/-- `CPX hhll` (R124, R110). -/
def execCpxAbs (w : Word) (s : State) : Out := cpx (.absolute w) s

/-- R125. -/
def cpy (m : Mode) (s : State) : Out := withOperand m s fun v s => s.compare s.y v

/-- `CPY #nn` (R125, R106). -/
def execCpyImm (nn : Byte) (s : State) : Out := cpy (.immediate nn) s

/-- `CPY nn` (R125, R107). -/
def execCpyZp (nn : Byte) (s : State) : Out := cpy (.zeroPage nn) s

/-- `CPY hhll` (R125, R110). -/
def execCpyAbs (w : Word) (s : State) : Out := cpy (.absolute w) s

/-- R126. -/
def andA (m : Mode) (s : State) : Out := withOperand m s fun v s => s.loadA (s.a &&& v)

/-- `AND #nn` (R126, R106). -/
def execAndImm (nn : Byte) (s : State) : Out := andA (.immediate nn) s

/-- `AND nn` (R126, R107). -/
def execAndZp (nn : Byte) (s : State) : Out := andA (.zeroPage nn) s

/-- `AND nn,X` (R126, R108). -/
def execAndZpx (nn : Byte) (s : State) : Out := andA (.zeroPageX nn) s

/-- `AND hhll` (R126, R110). -/
def execAndAbs (w : Word) (s : State) : Out := andA (.absolute w) s

/-- `AND hhll,X` (R126, R111). -/
def execAndAbx (w : Word) (s : State) : Out := andA (.absoluteX w) s

/-- `AND hhll,Y` (R126, R112). -/
def execAndAby (w : Word) (s : State) : Out := andA (.absoluteY w) s

/-- `AND (nn,X)` (R126, R114). -/
def execAndIzx (nn : Byte) (s : State) : Out := andA (.indexedIndirect nn) s

/-- `AND (nn),Y` (R126, R115). -/
def execAndIzy (nn : Byte) (s : State) : Out := andA (.indirectIndexed nn) s

/-- R127. -/
def oraA (m : Mode) (s : State) : Out := withOperand m s fun v s => s.loadA (s.a ||| v)

/-- `ORA #nn` (R127, R106). -/
def execOraImm (nn : Byte) (s : State) : Out := oraA (.immediate nn) s

/-- `ORA nn` (R127, R107). -/
def execOraZp (nn : Byte) (s : State) : Out := oraA (.zeroPage nn) s

/-- `ORA nn,X` (R127, R108). -/
def execOraZpx (nn : Byte) (s : State) : Out := oraA (.zeroPageX nn) s

/-- `ORA hhll` (R127, R110). -/
def execOraAbs (w : Word) (s : State) : Out := oraA (.absolute w) s

/-- `ORA hhll,X` (R127, R111). -/
def execOraAbx (w : Word) (s : State) : Out := oraA (.absoluteX w) s

/-- `ORA hhll,Y` (R127, R112). -/
def execOraAby (w : Word) (s : State) : Out := oraA (.absoluteY w) s

/-- `ORA (nn,X)` (R127, R114). -/
def execOraIzx (nn : Byte) (s : State) : Out := oraA (.indexedIndirect nn) s

/-- `ORA (nn),Y` (R127, R115). -/
def execOraIzy (nn : Byte) (s : State) : Out := oraA (.indirectIndexed nn) s

/-- R128. -/
def eorA (m : Mode) (s : State) : Out := withOperand m s fun v s => s.loadA (s.a ^^^ v)

/-- `EOR #nn` (R128, R106). -/
def execEorImm (nn : Byte) (s : State) : Out := eorA (.immediate nn) s

/-- `EOR nn` (R128, R107). -/
def execEorZp (nn : Byte) (s : State) : Out := eorA (.zeroPage nn) s

/-- `EOR nn,X` (R128, R108). -/
def execEorZpx (nn : Byte) (s : State) : Out := eorA (.zeroPageX nn) s

/-- `EOR hhll` (R128, R110). -/
def execEorAbs (w : Word) (s : State) : Out := eorA (.absolute w) s

/-- `EOR hhll,X` (R128, R111). -/
def execEorAbx (w : Word) (s : State) : Out := eorA (.absoluteX w) s

/-- `EOR hhll,Y` (R128, R112). -/
def execEorAby (w : Word) (s : State) : Out := eorA (.absoluteY w) s

/-- `EOR (nn,X)` (R128, R114). -/
def execEorIzx (nn : Byte) (s : State) : Out := eorA (.indexedIndirect nn) s

/-- `EOR (nn),Y` (R128, R115). -/
def execEorIzy (nn : Byte) (s : State) : Out := eorA (.indirectIndexed nn) s

/-- R129 on memory: bit 7 goes to the carry. -/
def aslMem (m : Mode) (s : State) : Out :=
  readModifyWrite m s aslByte fun v s => s.setShift (bitOf v 7) (aslByte v)

/-- `ASL A` (R129, R116). -/
def execAslAcc (s : State) : Out := .next (s.shiftA (bitOf s.a 7) (aslByte s.a))

/-- `ASL nn` (R129, R107). -/
def execAslZp (nn : Byte) (s : State) : Out := aslMem (.zeroPage nn) s

/-- `ASL nn,X` (R129, R108). -/
def execAslZpx (nn : Byte) (s : State) : Out := aslMem (.zeroPageX nn) s

/-- `ASL hhll` (R129, R110). -/
def execAslAbs (w : Word) (s : State) : Out := aslMem (.absolute w) s

/-- `ASL hhll,X` (R129, R111). -/
def execAslAbx (w : Word) (s : State) : Out := aslMem (.absoluteX w) s

/-- R130 on memory: bit 0 goes to the carry. -/
def lsrMem (m : Mode) (s : State) : Out :=
  readModifyWrite m s lsrByte fun v s => s.setShift (bitOf v 0) (lsrByte v)

/-- `LSR A` (R130, R116). -/
def execLsrAcc (s : State) : Out := .next (s.shiftA (bitOf s.a 0) (lsrByte s.a))

/-- `LSR nn` (R130, R107). -/
def execLsrZp (nn : Byte) (s : State) : Out := lsrMem (.zeroPage nn) s

/-- `LSR nn,X` (R130, R108). -/
def execLsrZpx (nn : Byte) (s : State) : Out := lsrMem (.zeroPageX nn) s

/-- `LSR hhll` (R130, R110). -/
def execLsrAbs (w : Word) (s : State) : Out := lsrMem (.absolute w) s

/-- `LSR hhll,X` (R130, R111). -/
def execLsrAbx (w : Word) (s : State) : Out := lsrMem (.absoluteX w) s

/-- R131 on memory: the old carry enters bit 0, bit 7 goes to the carry. -/
def rolMem (m : Mode) (s : State) : Out :=
  readModifyWrite m s (rolByte (s.flag .C)) fun v t => t.setShift (bitOf v 7) (rolByte (s.flag .C) v)

/-- `ROL A` (R131, R116). -/
def execRolAcc (s : State) : Out := .next (s.shiftA (bitOf s.a 7) (rolByte (s.flag .C) s.a))

/-- `ROL nn` (R131, R107). -/
def execRolZp (nn : Byte) (s : State) : Out := rolMem (.zeroPage nn) s

/-- `ROL nn,X` (R131, R108). -/
def execRolZpx (nn : Byte) (s : State) : Out := rolMem (.zeroPageX nn) s

/-- `ROL hhll` (R131, R110). -/
def execRolAbs (w : Word) (s : State) : Out := rolMem (.absolute w) s

/-- `ROL hhll,X` (R131, R111). -/
def execRolAbx (w : Word) (s : State) : Out := rolMem (.absoluteX w) s

/-- R132 on memory: the old carry enters bit 7, bit 0 goes to the carry. -/
def rorMem (m : Mode) (s : State) : Out :=
  readModifyWrite m s (rorByte (s.flag .C)) fun v t => t.setShift (bitOf v 0) (rorByte (s.flag .C) v)

/-- `ROR A` (R132, R116). -/
def execRorAcc (s : State) : Out := .next (s.shiftA (bitOf s.a 0) (rorByte (s.flag .C) s.a))

/-- `ROR nn` (R132, R107). -/
def execRorZp (nn : Byte) (s : State) : Out := rorMem (.zeroPage nn) s

/-- `ROR nn,X` (R132, R108). -/
def execRorZpx (nn : Byte) (s : State) : Out := rorMem (.zeroPageX nn) s

/-- `ROR hhll` (R132, R110). -/
def execRorAbs (w : Word) (s : State) : Out := rorMem (.absolute w) s

/-- `ROR hhll,X` (R132, R111). -/
def execRorAbx (w : Word) (s : State) : Out := rorMem (.absoluteX w) s

/-- R133; `C` and `V` are untouched. -/
def incMem (m : Mode) (s : State) : Out := readModifyWrite m s (fun v => v + 1#8) fun v s => s.setZN (v + 1#8)

/-- `INC nn` (R133, R107). -/
def execIncZp (nn : Byte) (s : State) : Out := incMem (.zeroPage nn) s

/-- `INC nn,X` (R133, R108). -/
def execIncZpx (nn : Byte) (s : State) : Out := incMem (.zeroPageX nn) s

/-- `INC hhll` (R133, R110). -/
def execIncAbs (w : Word) (s : State) : Out := incMem (.absolute w) s

/-- `INC hhll,X` (R133, R111). -/
def execIncAbx (w : Word) (s : State) : Out := incMem (.absoluteX w) s

/-- R134; `C` and `V` are untouched. -/
def decMem (m : Mode) (s : State) : Out := readModifyWrite m s (fun v => v - 1#8) fun v s => s.setZN (v - 1#8)

/-- `DEC nn` (R134, R107). -/
def execDecZp (nn : Byte) (s : State) : Out := decMem (.zeroPage nn) s

/-- `DEC nn,X` (R134, R108). -/
def execDecZpx (nn : Byte) (s : State) : Out := decMem (.zeroPageX nn) s

/-- `DEC hhll` (R134, R110). -/
def execDecAbs (w : Word) (s : State) : Out := decMem (.absolute w) s

/-- `DEC hhll,X` (R134, R111). -/
def execDecAbx (w : Word) (s : State) : Out := decMem (.absoluteX w) s

/-- `INX` (R135, R116). -/
def execInx (s : State) : Out := .next (s.loadX (s.x + 1#8))

/-- `DEX` (R136, R116). -/
def execDex (s : State) : Out := .next (s.loadX (s.x - 1#8))

/-- `INY` (R137, R116). -/
def execIny (s : State) : Out := .next (s.loadY (s.y + 1#8))

/-- `DEY` (R138, R116). -/
def execDey (s : State) : Out := .next (s.loadY (s.y - 1#8))

/-- R139: `A` is not changed. -/
def bitA (m : Mode) (s : State) : Out := withOperand m s fun v s => s.bitTest v

/-- `BIT nn` (R139, R107). -/
def execBitZp (nn : Byte) (s : State) : Out := bitA (.zeroPage nn) s

/-- `BIT hhll` (R139, R110). -/
def execBitAbs (w : Word) (s : State) : Out := bitA (.absolute w) s

end Sys2Proof.Machine
end

