-- ==== Sys2Proof/Machine/Control.lean ====
section
/-! DEFINITION. Branches, jumps, calls, returns, `BRK` and `HLT` (42_control_flow_stack.md R150 to R163, R170). -/

namespace Sys2Proof.Machine

/-- `Branch(cond)` of R150, after the offset byte has been fetched: `PC` is past the branch, and the signed offset is
added when the condition holds. -/
def branch (cond : Bool) (rr : Byte) (s : State) : Out :=
  .next (if cond then { s with pc := s.branchTarget rr } else s)

/-- `BPL rr` (R151, R117). -/
def execBpl (rr : Byte) (s : State) : Out := branch (!s.flag .N) rr s

/-- `BMI rr` (R152, R117). -/
def execBmi (rr : Byte) (s : State) : Out := branch (s.flag .N) rr s

/-- `BVC rr` (R153, R117). -/
def execBvc (rr : Byte) (s : State) : Out := branch (!s.flag .V) rr s

/-- `BVS rr` (R154, R117). -/
def execBvs (rr : Byte) (s : State) : Out := branch (s.flag .V) rr s

/-- `BCC rr` (R155, R117). -/
def execBcc (rr : Byte) (s : State) : Out := branch (!s.flag .C) rr s

/-- `BCS rr` (R156, R117). -/
def execBcs (rr : Byte) (s : State) : Out := branch (s.flag .C) rr s

/-- `BNE rr` (R157, R117). -/
def execBne (rr : Byte) (s : State) : Out := branch (!s.flag .Z) rr s

/-- `BEQ rr` (R158, R117). -/
def execBeq (rr : Byte) (s : State) : Out := branch (s.flag .Z) rr s

/-- R159. -/
def jmp (m : Mode) (s : State) : Out := proceed (resolve m s) fun (ea, s) => .next { s with pc := ea }

/-- `JMP hhll` (R159, R110). -/
def execJmpAbs (w : Word) (s : State) : Out := jmp (.absolute w) s

/-- `JMP (hhll)` (R159, R113). -/
def execJmpInd (w : Word) (s : State) : Out := jmp (.indirect w) s

/-- R160: push the address of the `JSR`'s last byte, high byte first, then jump. -/
def execJsr (w : Word) (s : State) : Out :=
  proceed (resolve (.absolute w) s) fun (ea, s) =>
    proceed (s.push8 (hi (s.pc - 1#16))) fun t =>
      proceed (t.push8 (lo (s.pc - 1#16))) fun t => .next { t with pc := ea }

/-- R161: pull low, then high; one is added. -/
def execRts (s : State) : Out :=
  proceed s.pull8 fun (l, s) =>
    proceed s.pull8 fun (h, s) => .next { s with pc := joinWord h l + 1#16 }

/-- R162: pull status (bit 5 forced to 1), then the address low and high; nothing is added. -/
def execRti (s : State) : Out :=
  proceed s.pull8 fun (v, s) =>
    proceed (s.setStatus v).pull8 fun (l, s) =>
      proceed s.pull8 fun (h, s) => .next { s with pc := joinWord h l }

/-- R163: skip the padding byte, which is not read; nothing is pushed, no flag changes, no vector is read. -/
def execBrk (s : State) : Out := .next { s with pc := s.pc + 1#16 }

/-- R170: report a halt; `PC` stays past the opcode. -/
def execHlt (s : State) : Out := .next { s with halted := true }

end Sys2Proof.Machine
end

