-- ==== Sys2Proof/Machine/LoadStore.lean ====
section
/-! DEFINITION. Loads and stores (43_load_store_transfer_flags.md R180 to R185). -/

namespace Sys2Proof.Machine

/-- R180. -/
def lda (m : Mode) (s : State) : Out := withOperand m s fun v s => s.loadA v

/-- `LDA #nn` (R180, R106). -/
def execLdaImm (nn : Byte) (s : State) : Out := lda (.immediate nn) s

/-- `LDA nn` (R180, R107). -/
def execLdaZp (nn : Byte) (s : State) : Out := lda (.zeroPage nn) s

/-- `LDA nn,X` (R180, R108). -/
def execLdaZpx (nn : Byte) (s : State) : Out := lda (.zeroPageX nn) s

/-- `LDA hhll` (R180, R110). -/
def execLdaAbs (w : Word) (s : State) : Out := lda (.absolute w) s

/-- `LDA hhll,X` (R180, R111). -/
def execLdaAbx (w : Word) (s : State) : Out := lda (.absoluteX w) s

/-- `LDA hhll,Y` (R180, R112). -/
def execLdaAby (w : Word) (s : State) : Out := lda (.absoluteY w) s

/-- `LDA (nn,X)` (R180, R114). -/
def execLdaIzx (nn : Byte) (s : State) : Out := lda (.indexedIndirect nn) s

/-- `LDA (nn),Y` (R180, R115). -/
def execLdaIzy (nn : Byte) (s : State) : Out := lda (.indirectIndexed nn) s

/-- R181. -/
def ldx (m : Mode) (s : State) : Out := withOperand m s fun v s => s.loadX v

/-- `LDX #nn` (R181, R106). -/
def execLdxImm (nn : Byte) (s : State) : Out := ldx (.immediate nn) s

/-- `LDX nn` (R181, R107). -/
def execLdxZp (nn : Byte) (s : State) : Out := ldx (.zeroPage nn) s

/-- `LDX nn,Y` (R181, R109). -/
def execLdxZpy (nn : Byte) (s : State) : Out := ldx (.zeroPageY nn) s

/-- `LDX hhll` (R181, R110). -/
def execLdxAbs (w : Word) (s : State) : Out := ldx (.absolute w) s

/-- `LDX hhll,Y` (R181, R112). -/
def execLdxAby (w : Word) (s : State) : Out := ldx (.absoluteY w) s

/-- R182. -/
def ldy (m : Mode) (s : State) : Out := withOperand m s fun v s => s.loadY v

/-- `LDY #nn` (R182, R106). -/
def execLdyImm (nn : Byte) (s : State) : Out := ldy (.immediate nn) s

/-- `LDY nn` (R182, R107). -/
def execLdyZp (nn : Byte) (s : State) : Out := ldy (.zeroPage nn) s

/-- `LDY nn,X` (R182, R108). -/
def execLdyZpx (nn : Byte) (s : State) : Out := ldy (.zeroPageX nn) s

/-- `LDY hhll` (R182, R110). -/
def execLdyAbs (w : Word) (s : State) : Out := ldy (.absolute w) s

/-- `LDY hhll,X` (R182, R111). -/
def execLdyAbx (w : Word) (s : State) : Out := ldy (.absoluteX w) s

/-- A store (R183 to R185): exactly one bus write and no read of the target; no flag is written. -/
def store (m : Mode) (s : State) (v : Byte) : Out :=
  proceed (resolve m s) fun (ea, s) => proceed (s.memWrite ea v) fun s => .next s

/-- `STA nn` (R183, R107). -/
def execStaZp (nn : Byte) (s : State) : Out := store (.zeroPage nn) s s.a

/-- `STA nn,X` (R183, R108). -/
def execStaZpx (nn : Byte) (s : State) : Out := store (.zeroPageX nn) s s.a

/-- `STA hhll` (R183, R110). -/
def execStaAbs (w : Word) (s : State) : Out := store (.absolute w) s s.a

/-- `STA hhll,X` (R183, R111). -/
def execStaAbx (w : Word) (s : State) : Out := store (.absoluteX w) s s.a

/-- `STA hhll,Y` (R183, R112). -/
def execStaAby (w : Word) (s : State) : Out := store (.absoluteY w) s s.a

/-- `STA (nn,X)` (R183, R114). -/
def execStaIzx (nn : Byte) (s : State) : Out := store (.indexedIndirect nn) s s.a

/-- `STA (nn),Y` (R183, R115). -/
def execStaIzy (nn : Byte) (s : State) : Out := store (.indirectIndexed nn) s s.a

/-- `STX nn` (R184, R107). -/
def execStxZp (nn : Byte) (s : State) : Out := store (.zeroPage nn) s s.x

/-- `STX nn,Y` (R184, R109). -/
def execStxZpy (nn : Byte) (s : State) : Out := store (.zeroPageY nn) s s.x

/-- `STX hhll` (R184, R110). -/
def execStxAbs (w : Word) (s : State) : Out := store (.absolute w) s s.x

/-- `STY nn` (R185, R107). -/
def execStyZp (nn : Byte) (s : State) : Out := store (.zeroPage nn) s s.y

/-- `STY nn,X` (R185, R108). -/
def execStyZpx (nn : Byte) (s : State) : Out := store (.zeroPageX nn) s s.y

/-- `STY hhll` (R185, R110). -/
def execStyAbs (w : Word) (s : State) : Out := store (.absolute w) s s.y

end Sys2Proof.Machine
end

