-- ==== Sys2Proof/Machine/Stack.lean ====
section
/-! DEFINITION. The stack and stack-pointer instructions (42_control_flow_stack.md R164 to R169). -/

namespace Sys2Proof.Machine

/-- R164. -/
def execPha (s : State) : Out := proceed (s.push8 s.a) fun s => .next s

/-- R165. -/
def execPla (s : State) : Out := proceed s.pull8 fun (v, s) => .next (s.loadA v)

/-- R166: the pushed byte shows bit 5 as 1 and bit 4 as stored. -/
def execPhp (s : State) : Out := proceed (s.push8 s.status) fun s => .next s

/-- R167: every bit but bit 5 is loaded. -/
def execPlp (s : State) : Out := proceed s.pull8 fun (v, s) => .next (s.setStatus v)

/-- R168: no flag is written. -/
def execTxs (s : State) : Out := .next { s with sp := s.x }

/-- R169. -/
def execTsx (s : State) : Out := .next (s.loadX s.sp)

end Sys2Proof.Machine
end

