-- ==== Sys2Proof/Machine/Transfer.lean ====
section
/-! DEFINITION. Register transfers, flag instructions, `NOP` and the unassigned opcodes (43_load_store_transfer_flags.md
R186 to R198). -/

namespace Sys2Proof.Machine

/-- `TAX` (R186, R116). -/
def execTax (s : State) : Out := .next (s.loadX s.a)

/-- `TAY` (R187, R116). -/
def execTay (s : State) : Out := .next (s.loadY s.a)

/-- `TXA` (R188, R116). -/
def execTxa (s : State) : Out := .next (s.loadA s.x)

/-- `TYA` (R189, R116). -/
def execTya (s : State) : Out := .next (s.loadA s.y)

/-- `CLC` (R190, R116). -/
def execClc (s : State) : Out := .next (s.setFlag .C false)

/-- `SEC` (R191, R116). -/
def execSec (s : State) : Out := .next (s.setFlag .C true)

/-- `CLI` (R192, R116). -/
def execCli (s : State) : Out := .next (s.setFlag .I false)

/-- `SEI` (R193, R116). -/
def execSei (s : State) : Out := .next (s.setFlag .I true)

/-- `CLV` (R194, R116). -/
def execClv (s : State) : Out := .next (s.setFlag .V false)

/-- `CLD` (R195, R116). -/
def execCld (s : State) : Out := .next (s.setFlag .D false)

/-- `SED` (R196, R116). -/
def execSed (s : State) : Out := .next (s.setFlag .D true)

/-- R197: nothing. -/
def execNop (s : State) : Out := .next s

/-- R198: a one-byte no-operation. -/
def execUnassigned (_op : Byte) (s : State) : Out := .next s

end Sys2Proof.Machine
end

