-- ==== Sys2Proof/Decode.lean ====
section
/-! DEFINITION. Decoding and encoding (30_encoding.md R80 to R91): the opcode table, the decoder over bytes (total; it
rejects a list that is too short by name), the encoder, and the host's `decodeTableWord`. -/

namespace Sys2Proof

/-- What follows an opcode byte (R81): nothing (F1), a padding byte that is skipped (`BRK`), one operand byte (F2) or a
little-endian operand word (F3), and the instruction they make. -/
inductive Layout where
  | bare (i : Instr)
  | padded (i : Instr)
  | byte (k : Byte → Instr)
  | word (k : Word → Instr)

/-- The rows of R84 for the mnemonics of 41_alu.md. -/
def opcodesAlu : List (Byte × Layout) :=
  [(0x69, .byte .adcImm), (0x65, .byte .adcZp), (0x75, .byte .adcZpx), (0x6D, .word .adcAbs),
   (0x7D, .word .adcAbx), (0x79, .word .adcAby), (0x61, .byte .adcIzx), (0x71, .byte .adcIzy),
   (0xE9, .byte .sbcImm), (0xE5, .byte .sbcZp), (0xF5, .byte .sbcZpx), (0xED, .word .sbcAbs),
   (0xFD, .word .sbcAbx), (0xF9, .word .sbcAby), (0xE1, .byte .sbcIzx), (0xF1, .byte .sbcIzy),
   (0xC9, .byte .cmpImm), (0xC5, .byte .cmpZp), (0xD5, .byte .cmpZpx), (0xCD, .word .cmpAbs),
   (0xDD, .word .cmpAbx), (0xD9, .word .cmpAby), (0xC1, .byte .cmpIzx), (0xD1, .byte .cmpIzy),
   (0xE0, .byte .cpxImm), (0xE4, .byte .cpxZp), (0xEC, .word .cpxAbs),
   (0xC0, .byte .cpyImm), (0xC4, .byte .cpyZp), (0xCC, .word .cpyAbs),
   (0x29, .byte .andImm), (0x25, .byte .andZp), (0x35, .byte .andZpx), (0x2D, .word .andAbs),
   (0x3D, .word .andAbx), (0x39, .word .andAby), (0x21, .byte .andIzx), (0x31, .byte .andIzy),
   (0x09, .byte .oraImm), (0x05, .byte .oraZp), (0x15, .byte .oraZpx), (0x0D, .word .oraAbs),
   (0x1D, .word .oraAbx), (0x19, .word .oraAby), (0x01, .byte .oraIzx), (0x11, .byte .oraIzy),
   (0x49, .byte .eorImm), (0x45, .byte .eorZp), (0x55, .byte .eorZpx), (0x4D, .word .eorAbs),
   (0x5D, .word .eorAbx), (0x59, .word .eorAby), (0x41, .byte .eorIzx), (0x51, .byte .eorIzy),
   (0x0A, .bare .aslAcc), (0x06, .byte .aslZp), (0x16, .byte .aslZpx), (0x0E, .word .aslAbs),
   (0x1E, .word .aslAbx),
   (0x4A, .bare .lsrAcc), (0x46, .byte .lsrZp), (0x56, .byte .lsrZpx), (0x4E, .word .lsrAbs),
   (0x5E, .word .lsrAbx),
   (0x2A, .bare .rolAcc), (0x26, .byte .rolZp), (0x36, .byte .rolZpx), (0x2E, .word .rolAbs),
   (0x3E, .word .rolAbx),
   (0x6A, .bare .rorAcc), (0x66, .byte .rorZp), (0x76, .byte .rorZpx), (0x6E, .word .rorAbs),
   (0x7E, .word .rorAbx),
   (0xE6, .byte .incZp), (0xF6, .byte .incZpx), (0xEE, .word .incAbs), (0xFE, .word .incAbx),
   (0xC6, .byte .decZp), (0xD6, .byte .decZpx), (0xCE, .word .decAbs), (0xDE, .word .decAbx),
   (0xE8, .bare .inx),
   (0xCA, .bare .dex),
   (0xC8, .bare .iny),
   (0x88, .bare .dey),
   (0x24, .byte .bitZp), (0x2C, .word .bitAbs)]

/-- The rows of R84 for the mnemonics of 42_control_flow_stack.md sections 1 and 2. -/
def opcodesControl : List (Byte × Layout) :=
  [(0x10, .byte .bpl),
   (0x30, .byte .bmi),
   (0x50, .byte .bvc),
   (0x70, .byte .bvs),
   (0x90, .byte .bcc),
   (0xB0, .byte .bcs),
   (0xD0, .byte .bne),
   (0xF0, .byte .beq),
   (0x4C, .word .jmpAbs), (0x6C, .word .jmpInd),
   (0x20, .word .jsr),
   (0x60, .bare .rts),
   (0x40, .bare .rti),
   (0x00, .padded .brk)]

/-- The rows of R84 for the mnemonics of 42_control_flow_stack.md section 3. -/
def opcodesStack : List (Byte × Layout) :=
  [(0x48, .bare .pha),
   (0x68, .bare .pla),
   (0x08, .bare .php),
   (0x28, .bare .plp),
   (0x9A, .bare .txs),
   (0xBA, .bare .tsx)]

/-- The rows of R84 for the mnemonics of 43_load_store_transfer_flags.md sections 1 and 2. -/
def opcodesLoadStore : List (Byte × Layout) :=
  [(0xA9, .byte .ldaImm), (0xA5, .byte .ldaZp), (0xB5, .byte .ldaZpx), (0xAD, .word .ldaAbs),
   (0xBD, .word .ldaAbx), (0xB9, .word .ldaAby), (0xA1, .byte .ldaIzx), (0xB1, .byte .ldaIzy),
   (0xA2, .byte .ldxImm), (0xA6, .byte .ldxZp), (0xB6, .byte .ldxZpy), (0xAE, .word .ldxAbs),
   (0xBE, .word .ldxAby),
   (0xA0, .byte .ldyImm), (0xA4, .byte .ldyZp), (0xB4, .byte .ldyZpx), (0xAC, .word .ldyAbs),
   (0xBC, .word .ldyAbx),
   (0x85, .byte .staZp), (0x95, .byte .staZpx), (0x8D, .word .staAbs), (0x9D, .word .staAbx),
   (0x99, .word .staAby), (0x81, .byte .staIzx), (0x91, .byte .staIzy),
   (0x86, .byte .stxZp), (0x96, .byte .stxZpy), (0x8E, .word .stxAbs),
   (0x84, .byte .styZp), (0x94, .byte .styZpx), (0x8C, .word .styAbs)]

/-- The rows of R84 for the mnemonics of 43_load_store_transfer_flags.md sections 3 to 5. -/
def opcodesTransfer : List (Byte × Layout) :=
  [(0xAA, .bare .tax),
   (0xA8, .bare .tay),
   (0x8A, .bare .txa),
   (0x98, .bare .tya),
   (0x18, .bare .clc),
   (0x38, .bare .sec),
   (0x58, .bare .cli),
   (0x78, .bare .sei),
   (0xB8, .bare .clv),
   (0xD8, .bare .cld),
   (0xF8, .bare .sed),
   (0xEA, .bare .nop)]

/-- The opcode table R84: 151 rows. -/
def opcodeTable : List (Byte × Layout) :=
  opcodesAlu ++ opcodesControl ++ opcodesStack ++ opcodesLoadStore ++ opcodesTransfer

/-- The first row of `rows` for the opcode value `op`. -/
def findRow (op : Byte) : List (Byte × Layout) → Option Layout
  | [] => none
  | (o, l) :: rows => if o = op then some l else findRow op rows

/-- `Decode(opcode)` of R102, with `HALT_OPCODE` tested before the table; an unassigned value is a one-byte
instruction of its own (R87, R198). -/
def layoutOf (halt op : Byte) : Layout :=
  if op = halt then .bare .hlt
  else match findRow op opcodeTable with
    | some l => l
    | none => .bare (.unassigned op)

/-- Why a list of bytes holds no instruction: the decoder's rejections. No opcode value is ever rejected (R88). -/
inductive DecodeError where
  /-- There is no opcode byte. -/
  | noOpcode
  /-- The list ends before the operand of the opcode `op`. -/
  | operandMissing (op : Byte)
  deriving DecidableEq, Repr

/-- The first instruction of a list of bytes, lowest address first, and the bytes after it (R80 to R82). `BRK`'s
padding byte is skipped unread, so it may be absent (R82, R163). -/
def decode (halt : Byte) : List Byte → Except DecodeError (Instr × List Byte)
  | [] => .error .noOpcode
  | op :: rest =>
    match layoutOf halt op, rest with
    | .bare i, rest => .ok (i, rest)
    | .padded i, rest => .ok (i, rest.drop 1)
    | .byte k, nn :: rest => .ok (k nn, rest)
    | .word k, ll :: hh :: rest => .ok (k (joinWord hh ll), rest)
    | .byte _, [] => .error (.operandMissing op)
    | .word _, [] => .error (.operandMissing op)
    | .word _, [_] => .error (.operandMissing op)

/-- The opcode value of each instruction (R84; `HALT_OPCODE` for `HLT`, R86). -/
def Instr.opcode (halt : Byte) : Instr → Byte
  | .adcImm _ => 0x69
  | .adcZp _ => 0x65
  | .adcZpx _ => 0x75
  | .adcAbs _ => 0x6D
  | .adcAbx _ => 0x7D
  | .adcAby _ => 0x79
  | .adcIzx _ => 0x61
  | .adcIzy _ => 0x71
  | .sbcImm _ => 0xE9
  | .sbcZp _ => 0xE5
  | .sbcZpx _ => 0xF5
  | .sbcAbs _ => 0xED
  | .sbcAbx _ => 0xFD
  | .sbcAby _ => 0xF9
  | .sbcIzx _ => 0xE1
  | .sbcIzy _ => 0xF1
  | .cmpImm _ => 0xC9
  | .cmpZp _ => 0xC5
  | .cmpZpx _ => 0xD5
  | .cmpAbs _ => 0xCD
  | .cmpAbx _ => 0xDD
  | .cmpAby _ => 0xD9
  | .cmpIzx _ => 0xC1
  | .cmpIzy _ => 0xD1
  | .cpxImm _ => 0xE0
  | .cpxZp _ => 0xE4
  | .cpxAbs _ => 0xEC
  | .cpyImm _ => 0xC0
  | .cpyZp _ => 0xC4
  | .cpyAbs _ => 0xCC
  | .andImm _ => 0x29
  | .andZp _ => 0x25
  | .andZpx _ => 0x35
  | .andAbs _ => 0x2D
  | .andAbx _ => 0x3D
  | .andAby _ => 0x39
  | .andIzx _ => 0x21
  | .andIzy _ => 0x31
  | .oraImm _ => 0x09
  | .oraZp _ => 0x05
  | .oraZpx _ => 0x15
  | .oraAbs _ => 0x0D
  | .oraAbx _ => 0x1D
  | .oraAby _ => 0x19
  | .oraIzx _ => 0x01
  | .oraIzy _ => 0x11
  | .eorImm _ => 0x49
  | .eorZp _ => 0x45
  | .eorZpx _ => 0x55
  | .eorAbs _ => 0x4D
  | .eorAbx _ => 0x5D
  | .eorAby _ => 0x59
  | .eorIzx _ => 0x41
  | .eorIzy _ => 0x51
  | .aslAcc => 0x0A
  | .aslZp _ => 0x06
  | .aslZpx _ => 0x16
  | .aslAbs _ => 0x0E
  | .aslAbx _ => 0x1E
  | .lsrAcc => 0x4A
  | .lsrZp _ => 0x46
  | .lsrZpx _ => 0x56
  | .lsrAbs _ => 0x4E
  | .lsrAbx _ => 0x5E
  | .rolAcc => 0x2A
  | .rolZp _ => 0x26
  | .rolZpx _ => 0x36
  | .rolAbs _ => 0x2E
  | .rolAbx _ => 0x3E
  | .rorAcc => 0x6A
  | .rorZp _ => 0x66
  | .rorZpx _ => 0x76
  | .rorAbs _ => 0x6E
  | .rorAbx _ => 0x7E
  | .incZp _ => 0xE6
  | .incZpx _ => 0xF6
  | .incAbs _ => 0xEE
  | .incAbx _ => 0xFE
  | .decZp _ => 0xC6
  | .decZpx _ => 0xD6
  | .decAbs _ => 0xCE
  | .decAbx _ => 0xDE
  | .inx => 0xE8
  | .dex => 0xCA
  | .iny => 0xC8
  | .dey => 0x88
  | .bitZp _ => 0x24
  | .bitAbs _ => 0x2C
  | .bpl _ => 0x10
  | .bmi _ => 0x30
  | .bvc _ => 0x50
  | .bvs _ => 0x70
  | .bcc _ => 0x90
  | .bcs _ => 0xB0
  | .bne _ => 0xD0
  | .beq _ => 0xF0
  | .jmpAbs _ => 0x4C
  | .jmpInd _ => 0x6C
  | .jsr _ => 0x20
  | .rts => 0x60
  | .rti => 0x40
  | .brk => 0x00
  | .hlt => halt
  | .pha => 0x48
  | .pla => 0x68
  | .php => 0x08
  | .plp => 0x28
  | .txs => 0x9A
  | .tsx => 0xBA
  | .ldaImm _ => 0xA9
  | .ldaZp _ => 0xA5
  | .ldaZpx _ => 0xB5
  | .ldaAbs _ => 0xAD
  | .ldaAbx _ => 0xBD
  | .ldaAby _ => 0xB9
  | .ldaIzx _ => 0xA1
  | .ldaIzy _ => 0xB1
  | .ldxImm _ => 0xA2
  | .ldxZp _ => 0xA6
  | .ldxZpy _ => 0xB6
  | .ldxAbs _ => 0xAE
  | .ldxAby _ => 0xBE
  | .ldyImm _ => 0xA0
  | .ldyZp _ => 0xA4
  | .ldyZpx _ => 0xB4
  | .ldyAbs _ => 0xAC
  | .ldyAbx _ => 0xBC
  | .staZp _ => 0x85
  | .staZpx _ => 0x95
  | .staAbs _ => 0x8D
  | .staAbx _ => 0x9D
  | .staAby _ => 0x99
  | .staIzx _ => 0x81
  | .staIzy _ => 0x91
  | .stxZp _ => 0x86
  | .stxZpy _ => 0x96
  | .stxAbs _ => 0x8E
  | .styZp _ => 0x84
  | .styZpx _ => 0x94
  | .styAbs _ => 0x8C
  | .tax => 0xAA
  | .tay => 0xA8
  | .txa => 0x8A
  | .tya => 0x98
  | .clc => 0x18
  | .sec => 0x38
  | .cli => 0x58
  | .sei => 0x78
  | .clv => 0xB8
  | .cld => 0xD8
  | .sed => 0xF8
  | .nop => 0xEA
  | .unassigned op => op

/-- The operand bytes of an addressing mode, lowest address first (R81, R83; words are little-endian, R60). -/
def Mode.bytes : Mode → List Byte
  | .immediate nn => [nn]
  | .zeroPage nn => [nn]
  | .zeroPageX nn => [nn]
  | .zeroPageY nn => [nn]
  | .absolute w => [lo w, hi w]
  | .absoluteX w => [lo w, hi w]
  | .absoluteY w => [lo w, hi w]
  | .indirect w => [lo w, hi w]
  | .indexedIndirect nn => [nn]
  | .indirectIndexed nn => [nn]

/-- The operand bytes of an operand form (R83). -/
def Operand.bytes : Operand → List Byte
  | .implied => []
  | .accumulator => []
  | .relative rr => [rr]
  | .mode m => m.bytes

/-- The bytes the step fetches for an instruction: the opcode and the operand bytes. `BRK`'s padding byte is not
among them (R163). -/
def fetchedBytes (halt : Byte) (i : Instr) : List Byte := i.opcode halt :: i.operand.bytes

/-- The bytes of an instruction (R80, R81). DESIGN CHOICE (log 15): `BRK`'s padding byte, which is never read, is
encoded as 0x00; safe. -/
def encode (halt : Byte) : Instr → List Byte
  | .brk => [0x00, 0x00]
  | i => fetchedBytes halt i

/-- The length of an instruction in bytes (R82). -/
def Instr.length : Instr → Nat
  | .brk => 2
  | i => 1 + i.operand.bytes.length

/-- Byte `k` of `w`, the first byte in the lowest bits, every bit from `nbits` up taken as 0. -/
def tableByte (nbits w k : Nat) : Byte := BitVec.ofNat 8 ((w % 2 ^ nbits) / 2 ^ (8 * k))

/-- The host's question: the instruction the decoder reads from the opcode table's bits `w`, with zeros above `nbits`,
under the default `HALT_OPCODE` (log 5). -/
def decodeTableWord (nbits w : Nat) : Option Instr :=
  match decode Config.default.haltOpcode [tableByte nbits w 0, tableByte nbits w 1, tableByte nbits w 2] with
  | .ok (i, _) => some i
  | .error _ => none

end Sys2Proof
end

