-- ==== Sys2Proof/Machine/Fetch.lean ====
section
/-! DEFINITION. Fetching the next instruction (40_step_and_addressing.md R100 to R103): the opcode byte, then the operand
byte or word, each through the bus at the time the step runs (20_memory.md R62, R70). -/

namespace Sys2Proof.Machine

/-- The operand fetch after the opcode (R62, R103): nothing for F1 and for `BRK`, whose padding byte is never read
(R163), one `BusGet` for F2, one `BusGetWord` for F3. -/
def fetchOperand (l : Layout) (s : State) : Except Fault (Instr × State) :=
  match l with
  | .bare i => .ok (i, s)
  | .padded i => .ok (i, s)
  | .byte k => s.fetch8.map fun (nn, s) => (k nn, s)
  | .word k => s.fetch16.map fun (w, s) => (k w, s)

/-- The opcode fetch (R101), the decode (R102) and the operand fetch: the instruction at `PC`, and the state with `PC`
past the bytes fetched. -/
def fetch (s : State) : Except Fault (Instr × State) :=
  s.fetch8.bind fun (op, s) => fetchOperand (layoutOf s.cfg.haltOpcode op) s

/-- `HALTED <- 0`, the first thing every step does (R20, R100). The host's setup is over from here on (R235).
DESIGN CHOICE (log 12): so it is where no reset came before, which R238 does not speak of; then nothing is registered or
loaded after the step, and reset is refused too. -/
def State.beginStep (s : State) : State := { s with halted := false, phase := .running }

/-- Byte `k` of the buffer that owns `addr` set to `v`, past any read-only flag, as an image installed by `load` would
(R49); an address no memory device's buffer holds is left as it is. -/
def State.place (s : State) (addr : Word) (v : Byte) : State :=
  match s.route addr with
  | none => s
  | some d =>
    match d.unit with
    | .memory m =>
      if d.offset addr < m.size then
        s.putRouted addr { d with unit := .memory { m with bytes := m.bytes.write (d.offset addr) v } }
      else s
    | .keyboard _ => s
    | .terminal _ => s

/-- An instruction of the opcode table's bits placed at `PC`, three bytes, zeros above `nbits`: it stands for the image
the host loads before reset (log 6). -/
def placeAtPC (s : State) (nbits w : Nat) : State :=
  ((s.place s.pc (tableByte nbits w 0)).place (s.pc + 1#16) (tableByte nbits w 1)).place (s.pc + 2#16)
    (tableByte nbits w 2)

end Sys2Proof.Machine
end

