-- ==== Sys2Proof/Machine/Step.lean ====
section
/-! DEFINITION. The step (40_step_and_addressing.md R100): one instruction, fetched and run. -/

namespace Sys2Proof.Machine

/-- `step()` of R100: `HALTED <- 0`, fetch, decode and execute; a bus error of the fetch ends the step (R104). -/
def step (s : State) : Host.Outcome State Fault Refusal :=
  proceed (fetch s.beginStep) fun (i, s) => exec i s

/-- The host's question: `s` with the instruction placed where `step` fetches its next one (log 6). -/
def State.withFetchWord (s : State) (nbits w : Nat) : State := placeAtPC s nbits w

end Sys2Proof.Machine
end

