-- ==== Sys2Proof/Machine/HostOps.lean ====
section
/-! DEFINITION. What the host can do to the machine (70_reset_and_hazards.md R230, R235, R238): register devices, load
images, reset, read the registers, write a status flag, use the bus itself, read the terminal. The order R235 fixes is
kept as R238 says it: devices are registered and images loaded before reset, an image once for each device, and reset is
performed once; a call after that is refused by name (93 U9, U10; log 12). The host's key appends are `State.kbdEnqueue` (R53), its own writes
`State.busSet` and `State.busSetWord`. -/

namespace Sys2Proof.Machine

/-- The size and the end of a record that R34 asks for and 93 U10 has a model refuse otherwise. -/
def Device.fits (c : Config) (d : Device) : Bool :=
  decide (1 ≤ d.size c) && decide (d.base.toNat + d.size c ≤ 0x10000)

/-- `register_device(name, handle, base_offset)` of R32: one record appended, overlaps and gaps not looked for (R33).
It is refused after reset, and for a record that does not fit (93 U10). DESIGN CHOICE (log 12): R235 puts registration
before loading and R238 asks only that both come before reset; the model accepts a registration after a load. -/
def State.registerDevice (s : State) (name : String) (unit : DeviceUnit) (base : Word) :
    Host.Outcome State BusError Refusal :=
  let d : Device := { name := name, base := base, unit := unit }
  if s.phase = .running then .refused .lateRegistration
  else if d.fits s.cfg then .next { s with devices := s.devices ++ [d] }
  else .refused .badRecord

/-- `BusLoad(bytes, addr)` of R41: the count of bytes written and the state. It is refused after reset, into a device
that has been loaded (93 U9), and at a keyboard or a terminal (R54, R59, 93 U8). A load that fails changes nothing. -/
def State.busLoad (s : State) (data : List Byte) (addr : Word) : Host.Outcome (Nat × State) BusError Refusal :=
  if s.phase = .running then .refused .lateLoad
  else
    match s.route addr with
    | none => .fault .deviceNotFound
    | some d =>
      match d.unit with
      | .memory m =>
        if m.loaded then .refused .secondLoad
        else
          match m.load (d.offset addr) data with
          | .ok m' => .next (data.length, s.putRouted addr { d with unit := .memory m' })
          | .error kind => .fault kind
      | .keyboard _ => .refused .peripheralLoad
      | .terminal _ => .refused .peripheralLoad

/-- What a host's call of `BusGet` returns: a byte and an error, either of which may be absent (R42). -/
structure BusReply where
  byte : Option Byte
  error : Option BusError
  deriving DecidableEq, Repr

/-- The sentinel of R42: the byte that comes with `DeviceNotFound`. -/
def sentinel : Byte := 0xEA#8

/-- A host's own call of `BusGet` (R37, R42): the sentinel comes with `DeviceNotFound` alone, no byte with another
error, and the state changes only when the call succeeds (R43). -/
def State.hostGet (s : State) (addr : Word) : BusReply × State :=
  match s.busGet addr with
  | .ok (v, t) => ({ byte := some v, error := none }, t)
  | .error .deviceNotFound => ({ byte := some sentinel, error := some .deviceNotFound }, s)
  | .error kind => ({ byte := none, error := some kind }, s)

/-- `reset()` of R230: the vector's word, then the open parameters; no device is touched beyond the read of the vector
(R231). A failed vector read starts no run: the error is the outcome, and the setup goes on (R232, 93 U22). A second
reset is refused (R238). DESIGN CHOICE (log 12): so is a first reset made after a step, since R238 assumes that reset comes
before the first step. -/
def State.hostReset (s : State) : Host.Outcome State BusError Refusal :=
  if s.phase = .running then .refused .lateReset
  else
    match s.busGetWord 0xFFFC#16 with
    | .ok (w, t) =>
      .next { t with
        pc := w, a := t.cfg.resetA, x := t.cfg.resetX, y := t.cfg.resetY, sp := t.cfg.resetSP,
        p := t.cfg.resetStatus ||| 0x20#8, lea := 0x0000#16, halted := false, phase := .running }
    | .error kind => .fault kind

/-- The snapshot of R21. -/
structure Registers where
  pc : Word
  sp : Byte
  a : Byte
  x : Byte
  y : Byte
  status : Byte
  deriving DecidableEq, Repr

/-- `get_registers()` of R21: bit 5 of `status` is set; no state changes. -/
def State.getRegisters (s : State) : Registers where
  pc := s.pc
  sp := s.sp
  a := s.a
  x := s.x
  y := s.y
  status := s.status

/-- `set_status_flag(flag, bool)` of R22: naming bit 5 has no effect. -/
def State.setStatusFlag (s : State) (f : Flag) (b : Bool) : State := s.setFlag f b

/-- The host's read of the terminal that is device `n` of a registry: its grid and cursor (R59). -/
def terminalOf (ds : List Device) (n : Nat) : Option (List (List Byte) × Nat × Nat) :=
  match ds[n]? with
  | none => none
  | some d =>
    match d.unit with
    | .memory _ => none
    | .keyboard _ => none
    | .terminal t => some (t.grid, t.row, t.col)

/-- The host's read of a terminal, between steps. -/
def State.terminalView (s : State) (n : Nat) : Option (List (List Byte) × Nat × Nat) := terminalOf s.devices n

/-- The host's read of a terminal after a step that ended in an error (R211 item 1). -/
def Aftermath.terminalView (left : Aftermath) (n : Nat) : Option (List (List Byte) × Nat × Nat) :=
  terminalOf left.devices n

end Sys2Proof.Machine
end

