-- ==== Sys2Proof/Machine/Run.lean ====
section
/-! DEFINITION. What one call of `step` returns (00_scope.md R8), and a run to its end (70_reset_and_hazards.md R236). -/

namespace Sys2Proof.Machine

/-- What `step` returns to the host (R8): `(halted, error?)`. -/
structure StepReport where
  halted : Bool
  error : Option BusError
  deriving DecidableEq, Repr

/-- The value a call of `step` returns (R8, R20, R211): `halted` is the flag as the step left it, and it is false with
an error. `none` only for a refusal, which no step answers. -/
def reportOf (o : Out) : Option StepReport :=
  match o with
  | .next s => some { halted := s.halted, error := none }
  | .fault (.busError kind _) => some { halted := false, error := some kind }
  | .refused _ => none

/-- How a run stands (R236): ended by `HLT`, ended by an error, stopped by the host, or refused. -/
inductive RunEnd where
  /-- A step returned `halted = true`; the final state is the one after it. -/
  | halted (s : State)
  /-- A step returned an error; the devices are as it left them, the CPU state is unspecified (R211). -/
  | error (kind : BusError) (left : Aftermath)
  /-- The host stopped calling `step`. -/
  | stopped (s : State)
  /-- No step answers this. -/
  | declined (r : Refusal)
  deriving DecidableEq, Repr

/-- A run of at most `n` steps from `s`, ended as R236 says: the first `HLT`, the first error, or the host stopping after
`n` steps. -/
def runFor : Nat → State → RunEnd
  | 0, s => .stopped s
  | n + 1, s =>
    match step s with
    | .next t => if t.halted then .halted t else runFor n t
    | .fault (.busError kind left) => .error kind left
    | .refused r => .declined r

end Sys2Proof.Machine
end

