-- ==== Sys2Proof/Safety.lean ====
section
/-! DEFINITION. What statements are made in terms of: the well-formed device map (20_memory.md R34), the invariant of a
state, and the parts of the machine that no step may change. -/

namespace Sys2Proof.Machine

/-- R34: every record has `size >= 1` and ends inside the address space, and at most one record claims each address.
The hardware does not check it (R33). -/
def DeviceMapWellFormed (c : Config) (ds : List Device) : Prop :=
  (∀ d ∈ ds, 1 ≤ d.size c ∧ d.base.toNat + d.size c ≤ 0x10000) ∧
  ds.Pairwise fun d e => ∀ addr : Word, ¬ (d.claims c addr = true ∧ e.claims c addr = true)

/-- The form of one device's own state: a memory device's contents are canonical and inside its buffer (R44); a
terminal's grid has its dimensions, and its cursor is inside it (R55). -/
def DeviceUnit.wf (c : Config) : DeviceUnit → Prop
  | .memory m => m.bytes.wf ∧ ∀ cell ∈ m.bytes, cell.1 < m.size
  | .keyboard _ => True
  | .terminal t =>
    t.grid.length = c.termRows ∧ (∀ cells ∈ t.grid, cells.length = c.termCols) ∧ t.row < c.termRows ∧ t.col < c.termCols

/-- The invariant of the machine: the open parameters meet their constraints (R5), bit 5 of `P` is 1 (R15), and every
device has its form. -/
structure State.Inv (s : State) : Prop where
  cfg : s.cfg.wf = true
  bit5 : bitOf s.p 5 = true
  devices : ∀ d ∈ s.devices, d.unit.wf s.cfg

/-- What is fixed of a device at start-up (R32, R44, R235): its label, base, kind, and for a memory device its size and
read-only flag. -/
inductive DeviceKind where
  | memory (size : Nat) (readOnly : Bool)
  | keyboard
  | terminal
  deriving DecidableEq, Repr

/-- The kind of a device. -/
def DeviceUnit.kind : DeviceUnit → DeviceKind
  | .memory m => .memory m.size m.readOnly
  | .keyboard _ => .keyboard
  | .terminal _ => .terminal

/-- One record of the device map (R31). -/
def Device.record (d : Device) : String × Word × DeviceKind := (d.name, d.base, d.unit.kind)

/-- The device map (R31, R32). -/
def State.deviceMap (s : State) : List (String × Word × DeviceKind) := s.devices.map Device.record

/-- The contents of a memory device, `none` for a peripheral (R44). -/
def Device.memoryBytes (d : Device) : Option Memory :=
  match d.unit with
  | .memory m => some m.bytes
  | .keyboard _ => none
  | .terminal _ => none

/-- What an access that stores nothing leaves of a device: its record and its memory contents. -/
def Device.shape (d : Device) : (String × Word × DeviceKind) × Option Memory := (d.record, d.memoryBytes)

/-- The contents of a read-only memory device, `none` for any other device (R44). -/
def Device.romBytes (d : Device) : Option Memory :=
  match d.unit with
  | .memory m => if m.readOnly then some m.bytes else none
  | .keyboard _ => none
  | .terminal _ => none

/-- The state with the host's next `n` turns taken: the state of the devices after `n` bus operations of the CPU on
plain memory. -/
def State.hostTurns : Nat → State → State
  | 0, s => s
  | n + 1, s => State.hostTurns n s.hostTurn

/-! ## The spec's tables, as statements use them -/

/-- The flags each mnemonic writes (10_state.md R27). -/
def flagsWritten (n : Mnemonic) : List Flag :=
  if n ∈ [.ADC, .SBC] then [.C, .Z, .V, .N]
  else if n ∈ [.CMP, .CPX, .CPY, .ASL, .LSR, .ROL, .ROR] then [.C, .Z, .N]
  else if n ∈ [.AND, .ORA, .EOR, .INC, .DEC, .INX, .DEX, .INY, .DEY, .LDA, .LDX, .LDY, .TAX, .TAY, .TXA, .TYA, .TSX,
    .PLA] then [.Z, .N]
  else if n = .BIT then [.Z, .V, .N]
  else if n ∈ [.CLC, .SEC] then [.C]
  else if n ∈ [.CLI, .SEI] then [.I]
  else if n ∈ [.CLD, .SED] then [.D]
  else if n = .CLV then [.V]
  else if n ∈ [.PLP, .RTI] then [.C, .Z, .I, .D, .B, .V, .N]
  else []

/-- The instructions that write `A` (10_state.md R13). -/
def writesA (i : Instr) : Bool :=
  decide (i.mnemonic ∈ [.LDA, .PLA, .TXA, .TYA, .ADC, .SBC, .AND, .ORA, .EOR])
    || (decide (i.mnemonic ∈ [.ASL, .LSR, .ROL, .ROR]) && decide (i.operand = .accumulator))

/-- The instructions that write `X` (R13). -/
def writesX (i : Instr) : Bool := decide (i.mnemonic ∈ [.LDX, .TAX, .TSX, .INX, .DEX])

/-- The instructions that write `Y` (R13). -/
def writesY (i : Instr) : Bool := decide (i.mnemonic ∈ [.LDY, .TAY, .INY, .DEY])

/-- The instructions that write `SP` (10_state.md R12). -/
def writesSP (i : Instr) : Bool :=
  decide (i.mnemonic ∈ [.JSR, .RTS, .RTI, .PHA, .PLA, .PHP, .PLP, .TXS])

/-- The instructions that set `PC` to a target (10_state.md R11): taken branches, jumps, calls and returns. -/
def setsPC (i : Instr) : Bool :=
  decide (i.mnemonic ∈ [.BPL, .BMI, .BVC, .BVS, .BCC, .BCS, .BNE, .BEQ, .JMP, .JSR, .RTS, .RTI])

/-- The addresses an instruction stores to from `s` (60_exceptions.md R212 lists the instructions that write memory): the
effective address of a store or of a read-modify-write, the stack slots of a push. -/
def storeAddresses (i : Instr) (s : State) : List Word :=
  if i.mnemonic ∈ [.STA, .STX, .STY, .INC, .DEC, .ASL, .LSR, .ROL, .ROR] then
    match i.operand with
    | .mode m =>
      match resolve m s with
      | .ok (ea, _) => [ea]
      | .error _ => []
    | .implied => []
    | .accumulator => []
    | .relative _ => []
  else if i.mnemonic ∈ [.PHA, .PHP] then [stackAddr s.sp]
  else if i.mnemonic = .JSR then [stackAddr s.sp, stackAddr (s.sp - 1#8)]
  else []

/-- The flag each branch tests and the value it is taken on (42_control_flow_stack.md R151 to R158). -/
def branchCondition : Mnemonic → Option (Flag × Bool)
  | .BPL => some (.N, false)
  | .BMI => some (.N, true)
  | .BVC => some (.V, false)
  | .BVS => some (.V, true)
  | .BCC => some (.C, false)
  | .BCS => some (.C, true)
  | .BNE => some (.Z, false)
  | .BEQ => some (.Z, true)
  | _ => none

/-- The result and the carry out of each shift and rotate as integers, from the operand `v` and the old carry `c`
(41_alu.md R129 to R132). -/
def shifted (n : Mnemonic) (c : Bool) (v : Byte) : Option (Nat × Bool) :=
  match n with
  | .ASL => some (2 * v.toNat % 256, decide (128 ≤ v.toNat))
  | .LSR => some (v.toNat / 2, decide (v.toNat % 2 = 1))
  | .ROL => some ((2 * v.toNat + c.toNat) % 256, decide (128 ≤ v.toNat))
  | .ROR => some (v.toNat / 2 + 128 * c.toNat, decide (v.toNat % 2 = 1))
  | _ => none

/-- `u` has `Z` and `N` from `v` and every other flag of `s` (R120). -/
def SetsZN (s u : State) (v : Byte) : Prop :=
  u.flag .Z = (v == 0#8) ∧ u.flag .N = bitOf v 7 ∧ ∀ f, f ∉ [Flag.Z, .N] → u.flag f = s.flag f

/-- Two states that agree on everything but the flags `D`, `I` and `B`, which no instruction tests (R16 to R18). -/
def AgreeButDIB (s t : State) : Prop :=
  t = { s with p := t.p } ∧ ∀ f, f ∉ [Flag.D, .I, .B] → t.flag f = s.flag f

/-- Memory holds the bytes a step fetches for `i` at `PC`; a two-byte operand lies in one device (R39, R62). -/
def State.HoldsCode (s : State) (i : Instr) : Prop :=
  s.peek s.pc = some (i.opcode s.cfg.haltOpcode) ∧
  match i.operand.bytes with
  | [] => True
  | [nn] => s.peek (s.pc + 1#16) = some nn
  | [ll, hh] => s.peekWord (s.pc + 1#16) = some (joinWord hh ll)
  | _ => False

/-- The number of bus operations that fetch `i` (R62): the opcode, and one for an operand. -/
def fetchReads (i : Instr) : Nat := if i.operand.bytes = [] then 1 else 2

/-- The two addresses of a word at an offset are one register's and then the other's (R54, R59). -/
def InOrder (off first second : Nat) : Prop := off = first ∧ off + 1 = second

/-- A cell of a terminal's grid. -/
def Terminal.cell (t : Terminal) (r c : Nat) : Option Byte := (t.grid[r]?).bind fun cells => cells[c]?

end Sys2Proof.Machine
end

