-- ==== Sys2Proof/Certificates/Slice0/Obligations.lean ====
section
/-! DEFINITION. The statements made for the provers, in the order of the spec's files: encoding, step and whole machine,
addressing and operands, ALU, control flow, stack, loads and stores, frames, bus and devices, host. Each docstring names
the rule of the spec it formalises; where that passage is one of the spec's own decisions (D), derivations or general
knowledge (G), or a choice of this model (log), it says so. -/

open Sys2Proof Sys2Proof.Machine

/-! ## Encoding -/

/-- R91: "`A9 05` is `LDA #$05` ..., `85 10` is `STA $10` ..., `00` is `BRK`. And `0xEA` is the 6502 NOP opcode", whatever
admissible value `HALT_OPCODE` has. -/
def Obligations.SourceBytesDecode : Prop :=
  ∀ halt : Byte, unassignedOpcodes.contains halt = true →
    decode halt [0xA9, 0x05] = .ok (.ldaImm 0x05, []) ∧ decode halt [0x85, 0x10] = .ok (.staZp 0x10, []) ∧
    decode halt [0x00, 0x00] = .ok (.brk, []) ∧ decode halt [0xEA] = .ok (.nop, [])

/-- Words of each family, bit by bit from 30_encoding.md section 3 (G1), decode to what they stand for, little-endian
(R60). -/
def Obligations.FamilyWordsDecode : Prop :=
  decode 0xDB [0x7D, 0x34, 0x12] = .ok (.adcAbx 0x1234, []) ∧ decode 0xDB [0x6A] = .ok (.rorAcc, []) ∧
  decode 0xDB [0xF0, 0xFE] = .ok (.beq 0xFE, []) ∧ decode 0xDB [0x6C, 0xFF, 0x10] = .ok (.jmpInd 0x10FF, []) ∧
  decode 0xDB [0x20, 0x0B, 0x03] = .ok (.jsr 0x030B, []) ∧ decode 0xDB [0xDB] = .ok (.hlt, []) ∧
  decode 0xDB [0x28] = .ok (.plp, []) ∧ decode 0xDB [0x96, 0x10] = .ok (.stxZpy 0x10, []) ∧
  decode 0xDB [0xB1, 0x30] = .ok (.ldaIzy 0x30, []) ∧ decode 0xDB [0xB8] = .ok (.clv, []) ∧
  decode 0xDB [0x02, 0x00] = .ok (.unassigned 0x02, [0x00])

/-- Every well-formed instruction decodes from its own bytes, whatever follows, for every admissible `HALT_OPCODE`
(R80 to R87; `BRK`'s padding byte is the model's 0x00, log 15). -/
def Obligations.DecodeOfEncode : Prop :=
  ∀ halt : Byte, unassignedOpcodes.contains halt = true → ∀ i : Instr, i.wf halt = true → ∀ rest : List Byte,
    decode halt (encode halt i ++ rest) = .ok (i, rest)

/-- What decodes, other than `BRK` with its unread padding, is well formed and encodes back to the same bytes (R80 to
R87). -/
def Obligations.EncodeOfDecode : Prop :=
  ∀ (halt : Byte) (bytes rest : List Byte) (i : Instr), decode halt bytes = .ok (i, rest) → i ≠ .brk →
    i.wf halt = true ∧ encode halt i ++ rest = bytes

/-- Every opcode value begins an instruction once two more bytes follow: there are no illegal encodings (R87, R88). -/
def Obligations.EveryOpcodeDecodes : Prop :=
  ∀ halt op b1 b2 : Byte, ∃ i rest, decode halt [op, b1, b2] = .ok (i, rest) ∧ i.opcode halt = op

/-! ## Reset, the step and the whole machine -/

/-- Before the first reset of a run, reset loads `PC` from the word at 0xFFFC and the other registers from the open
parameters, forces bit 5 of `P`, and touches no device (R230, R231, D9). It fails when the vector is in no device, or
when its second byte is outside the memory device that holds 0xFFFC (R232, D15). A second reset is refused (R238, D25),
and so is a first one after a step (the model's choice, log 12). -/
def Obligations.ResetLoadsTheVector : Prop :=
  ∀ s : State,
    (s.phase = .setup →
      (∀ w : Word, s.peekWord 0xFFFC#16 = some w →
        ∃ t, s.hostReset = .next t ∧
          t = { s with pc := w, a := s.cfg.resetA, x := s.cfg.resetX, y := s.cfg.resetY, sp := s.cfg.resetSP, p := t.p,
                       lea := 0x0000#16, halted := false, phase := .running } ∧
          bitOf t.p 5 = true ∧ ∀ f, f ≠ .R → t.flag f = bitOf s.cfg.resetStatus f.bit) ∧
      (s.route 0xFFFC#16 = none → s.hostReset = .fault .deviceNotFound) ∧
      (∀ d m, s.route 0xFFFC#16 = some d → d.unit = .memory m → m.size ≤ d.offset 0xFFFC#16 + 1 →
        s.hostReset = .fault .outOfRange)) ∧
    (s.phase = .running → s.hostReset = .refused .lateReset)

/-- When memory at `PC` holds the bytes of a well-formed instruction, the step runs it: `exec` of it, with `HALTED`
cleared and the setup ended (log 12), `PC` past the bytes fetched, and the host's turns of the fetches taken (R100 to
R103; log 8). -/
def Obligations.StepRunsDecodedInstruction : Prop :=
  ∀ (s : State) (i : Instr), unassignedOpcodes.contains s.cfg.haltOpcode = true → i.wf s.cfg.haltOpcode = true →
    s.HoldsCode i →
    step s = exec i { (State.hostTurns (fetchReads i) s.beginStep) with
      pc := s.pc + BitVec.ofNat 16 (fetchedBytes s.cfg.haltOpcode i).length }

/-- A step does not look at `HALTED`, and `HALTED` after it says whether the instruction fetched was `HLT` (R20, D7). -/
def Obligations.HaltedReportsHlt : Prop :=
  (∀ (s : State) (b : Bool), step { s with halted := b } = step s) ∧
  ∀ (s t u : State) (i : Instr), fetch s.beginStep = .ok (i, u) → step s = .next t → (t.halted = true ↔ i = .hlt)

/-- Every step keeps the invariant: admissible parameters, bit 5 of `P`, every memory device's contents canonical and
inside its buffer, every terminal's grid of its dimensions with the cursor inside (R5, R15, R44, R55); and the devices
that a step leaves when it ends in an error have their form too (R211 item 1). -/
def Obligations.StepKeepsInvariant : Prop :=
  ∀ s : State, s.Inv → (∀ t, step s = .next t → t.Inv) ∧
    ∀ kind left, step s = .fault (.busError kind left) → ∀ d ∈ left.devices, d.unit.wf s.cfg

/-- State.reset meets the invariant, and it is what the reset procedure makes of the machine set up with nothing loaded
(R26, R230): the model's defaults (logs 1 to 5). -/
def Obligations.ResetMeetsInvariant : Prop :=
  State.reset.Inv ∧ ({ State.reset with phase := .setup } : State).hostReset = .next State.reset

/-- The device map (R31, R32, R235): before reset a record that fits in the address space is appended (one that does not
is refused, log 12), whatever has been loaded (the model's choice, log 12), after reset none is; and no step, whether it completes or ends in an error, adds, removes, moves,
resizes or re-flags a device, changes an open parameter, or goes back to before reset. -/
def Obligations.DeviceMapIsFixed : Prop :=
  ∀ s : State,
    (∀ t, step s = .next t → t.deviceMap = s.deviceMap ∧ t.cfg = s.cfg ∧ t.phase = .running) ∧
    (∀ kind left, step s = .fault (.busError kind left) → left.devices.map Device.record = s.deviceMap) ∧
    ∀ name base unit d, d = { name := name, base := base, unit := unit } →
      (s.phase = .running → s.registerDevice name unit base = .refused .lateRegistration) ∧
      (s.phase = .setup → 1 ≤ d.size s.cfg ∧ base.toNat + d.size s.cfg ≤ 0x10000 →
        s.registerDevice name unit base = .next { s with devices := s.devices ++ [d] }) ∧
      (s.phase = .setup → d.size s.cfg = 0 ∨ 0x10000 < base.toNat + d.size s.cfg →
        s.registerDevice name unit base = .refused .badRecord)

/-- No step, whether it completes or ends in an error, changes a byte of a read-only memory device, in any state (R46,
R65). -/
def Obligations.StepNeverChangesRom : Prop :=
  ∀ s : State, (∀ t, step s = .next t → t.devices.map Device.romBytes = s.devices.map Device.romBytes) ∧
    ∀ kind left, step s = .fault (.busError kind left) →
      left.devices.map Device.romBytes = s.devices.map Device.romBytes

/-- R8: "One call of `step` has exactly one of three outcomes": next, which returns `(false, no error)`; halt, which
returns `(true, no error)`, exactly when the opcode was `HALT_OPCODE`; error, which returns a kind, one of the three that
a step can meet. It never answers a refusal. -/
def Obligations.StepHasThreeOutcomes : Prop :=
  ∀ s : State,
    ((∃ t, step s = .next t ∧ t.halted = false ∧ reportOf (step s) = some { halted := false, error := none }) ∨
      (∃ t, step s = .next t ∧ t.halted = true ∧ reportOf (step s) = some { halted := true, error := none }) ∨
      ∃ kind left, step s = .fault (.busError kind left) ∧ kind ∈ [.deviceNotFound, .outOfRange, .readOnlyViolation] ∧
        reportOf (step s) = some { halted := false, error := some kind }) ∧
    (∀ r, step s ≠ .refused r) ∧
    ∀ op u, s.beginStep.fetch8 = .ok (op, u) → ((∃ t, step s = .next t ∧ t.halted = true) ↔ op = s.cfg.haltOpcode)

/-- R224: `ImageTooLarge` never occurs during a step, no instruction and no bus operation but `load` raises it, `load`
raises it before reset alone and exactly when the image does not fit a memory device that has not been loaded (log 12),
and it has then written nothing (its outcome holds no new state). -/
def Obligations.ImageTooLargeOnlyFromLoad : Prop :=
  ∀ s : State,
    (∀ left, step s ≠ .fault (.busError .imageTooLarge left)) ∧
    (∀ i left, exec i s ≠ .fault (.busError .imageTooLarge left)) ∧
    (∀ a, s.busGet a ≠ .error .imageTooLarge) ∧ (∀ a, s.busGetWord a ≠ .error .imageTooLarge) ∧
    (∀ a v, s.busSet a v ≠ .error .imageTooLarge) ∧ (∀ a w, s.busSetWord a w ≠ .error .imageTooLarge) ∧
    s.hostReset ≠ .fault .imageTooLarge ∧
    ∀ data addr, s.busLoad data addr = .fault .imageTooLarge ↔
      s.phase = .setup ∧ ∃ d m, s.route addr = some d ∧ d.unit = .memory m ∧ m.loaded = false ∧
        m.size < d.offset addr + data.length

/-- An instruction that does not set `PC` leaves it past its own bytes, and `BRK` skips one byte more (R105). -/
def Obligations.SequentialAdvance : Prop :=
  ∀ (i : Instr) (s t : State), exec i s = .next t → setsPC i = false →
    t.pc = s.pc + (if i = .brk then 1#16 else 0#16)

/-- No instruction tests `D`, `I` or `B`: two states that differ in them alone go on alike, but for what `PHP` pushes
(R16, R17, R18). -/
def Obligations.DecimalInterruptBreakHaveNoEffect : Prop :=
  ∀ (i : Instr) (s s' t : State), i ≠ .php → AgreeButDIB s s' → exec i s = .next t →
    ∃ t', exec i s' = .next t' ∧ AgreeButDIB t t'

/-! ## Addressing and operands -/

/-- The effective address of each mode without a pointer, as a number (R106 to R112): the immediate's is the operand
byte's own, zero-page sums wrap at 256, absolute sums at 65536 (D14). `LEA` gets it (D23). -/
def Obligations.DirectModesResolve : Prop :=
  ∀ (s : State) (m : Mode) (n : Nat),
    ((∃ nn, m = .immediate nn ∧ n = (s.pc.toNat + 65535) % 65536) ∨ (∃ nn, m = .zeroPage nn ∧ n = nn.toNat) ∨
      (∃ nn, m = .zeroPageX nn ∧ n = (nn.toNat + s.x.toNat) % 256) ∨
      (∃ nn, m = .zeroPageY nn ∧ n = (nn.toNat + s.y.toNat) % 256) ∨
      (∃ w, m = .absolute w ∧ n = w.toNat) ∨ (∃ w, m = .absoluteX w ∧ n = (w.toNat + s.x.toNat) % 65536) ∨
      (∃ w, m = .absoluteY w ∧ n = (w.toNat + s.y.toNat) % 65536)) →
    ∃ ea : Word, ea.toNat = n ∧ resolve m s = .ok (ea, { s with lea := ea })

/-- The effective address of each mode with a pointer in memory (R113 to R115): one word read at the pointer's address,
its high byte at the next address with no page wrap (D13). -/
def Obligations.PointerModesResolve : Prop :=
  ∀ (s : State) (m : Mode) (ptr base : Word) (n : Nat), s.peekWord ptr = some base →
    (m = .indirect ptr ∧ n = base.toNat ∨
      (∃ nn, m = .indexedIndirect nn ∧ ptr.toNat = (nn.toNat + s.x.toNat) % 256 ∧ n = base.toNat) ∨
      (∃ nn, m = .indirectIndexed nn ∧ ptr.toNat = nn.toNat ∧ n = (base.toNat + s.y.toNat) % 65536)) →
    ∃ ea : Word, ea.toNat = n ∧ resolve m s = .ok (ea, { s.hostTurn with lea := ea })

/-- An operand read answers the immediate's own byte (log 7) or the memory byte at the effective address (R103). -/
def Obligations.OperandIsByteAtAddress : Prop :=
  ∀ (s : State) (m : Mode) (ea : Word) (t : State), resolve m s = .ok (ea, t) →
    (∀ nn, m = .immediate nn → readOperand m s = .ok (nn, t)) ∧
    (∀ v, (∀ nn, m ≠ .immediate nn) → t.peek ea = some v → readOperand m s = .ok (v, t.hostTurn))

/-- A bus error ends the step with its kind, wherever it occurs (R103, R104, R210, R212, R214): at the opcode fetch, at
the operand fetch, while an address is resolved, an operand read, a result stored, a byte pushed or pulled. The fault
carries the devices as the failing operation found them, so what the step's earlier bus operations did stays done, and no
CPU register (R211, D15; log 9). -/
def Obligations.BusErrorEndsStep : Prop :=
  ∀ (s : State) (e : Fault),
    -- the error of one access of the CPU: its kind, and the devices it found
    (∀ kind,
      (∀ a, s.hostTurn.busGet a = .error kind → s.memRead a = .error (.busError kind s.hostTurn.aftermath)) ∧
      (∀ a, s.hostTurn.busGetWord a = .error kind → s.memReadWord a = .error (.busError kind s.hostTurn.aftermath)) ∧
      ∀ a v, s.hostTurn.busSet a v = .error kind → s.memWrite a v = .error (.busError kind s.hostTurn.aftermath)) ∧
    s.aftermath = { devices := s.devices, arrivals := s.arrivals } ∧
    -- the opcode fetch
    (∀ kind, s.hostTurn.busGet s.pc = .error kind → step s = .fault (.busError kind s.hostTurn.aftermath)) ∧
    (s.route s.pc = none → step s = .fault (.busError .deviceNotFound s.hostTurn.aftermath)) ∧
    (∀ d, s.route s.pc = some d →
      (∃ m, d.unit = .memory m ∧ m.size ≤ d.offset s.pc) ∨
      (∃ k, d.unit = .keyboard k ∧ d.offset s.pc ≠ s.cfg.kbdDataOff ∧ d.offset s.pc ≠ s.cfg.kbdCtrlOff) ∨
      (∃ t, d.unit = .terminal t ∧ d.offset s.pc ≠ s.cfg.termDataOff ∧ d.offset s.pc ≠ s.cfg.termCtrlOff) →
      step s = .fault (.busError .outOfRange s.hostTurn.aftermath)) ∧
    -- the fetch of an operand byte, and of an operand word
    (∀ i : Instr, unassignedOpcodes.contains s.cfg.haltOpcode = true → i.wf s.cfg.haltOpcode = true →
      s.peek s.pc = some (i.opcode s.cfg.haltOpcode) →
      (i.operand.bytes.length = 1 →
        (∀ kind, s.hostTurn.hostTurn.busGet (s.pc + 1#16) = .error kind →
          step s = .fault (.busError kind s.hostTurn.hostTurn.aftermath)) ∧
        (s.route (s.pc + 1#16) = none → step s = .fault (.busError .deviceNotFound s.hostTurn.hostTurn.aftermath)) ∧
        ∀ d m, s.route (s.pc + 1#16) = some d → d.unit = .memory m → m.size ≤ d.offset (s.pc + 1#16) →
          step s = .fault (.busError .outOfRange s.hostTurn.hostTurn.aftermath)) ∧
      (i.operand.bytes.length = 2 →
        (∀ kind, s.hostTurn.hostTurn.busGetWord (s.pc + 1#16) = .error kind →
          step s = .fault (.busError kind s.hostTurn.hostTurn.aftermath)) ∧
        (s.route (s.pc + 1#16) = none → step s = .fault (.busError .deviceNotFound s.hostTurn.hostTurn.aftermath)) ∧
        ∀ d m, s.route (s.pc + 1#16) = some d → d.unit = .memory m → m.size ≤ d.offset (s.pc + 1#16) + 1 →
          step s = .fault (.busError .outOfRange s.hostTurn.hostTurn.aftermath))) ∧
    -- the accesses of the body
    (∀ i m, i.operand = .mode m → resolve m s = .error e → exec i s = .fault e) ∧
    (∀ i m, i.operand = .mode m →
      i.mnemonic ∈ [.ADC, .SBC, .CMP, .CPX, .CPY, .AND, .ORA, .EOR, .BIT, .LDA, .LDX, .LDY] →
      readOperand m s = .error e → exec i s = .fault e) ∧
    (∀ i m ea t, i.operand = .mode m → resolve m s = .ok (ea, t) →
      (i.mnemonic ∈ [.INC, .DEC, .ASL, .LSR, .ROL, .ROR] → t.memRead ea = .error e → exec i s = .fault e) ∧
      (i.mnemonic ∈ [.INC, .DEC, .ASL, .LSR, .ROL, .ROR] → ∀ v u, t.memRead ea = .ok (v, u) →
        (∀ r, u.memWrite ea r = .error e) → exec i s = .fault e) ∧
      (i.mnemonic ∈ [.STA, .STX, .STY] → (∀ r, t.memWrite ea r = .error e) → exec i s = .fault e)) ∧
    -- the stack: the first access, then the later ones of RTS, RTI and JSR
    (s.pull8 = .error e → ∀ i ∈ [Instr.pla, .plp, .rts, .rti], exec i s = .fault e) ∧
    ((∀ v, s.push8 v = .error e) → ∀ i ∈ [Instr.pha, .php], exec i s = .fault e) ∧
    (∀ w, (∀ v, ({ s with lea := w } : State).push8 v = .error e) → exec (.jsr w) s = .fault e) ∧
    (∀ l t, s.pull8 = .ok (l, t) → t.pull8 = .error e → exec .rts s = .fault e) ∧
    (∀ b t, s.pull8 = .ok (b, t) → ((t.setStatus b).pull8 = .error e → exec .rti s = .fault e) ∧
      ∀ l u, (t.setStatus b).pull8 = .ok (l, u) → u.pull8 = .error e → exec .rti s = .fault e) ∧
    ∀ w t, ({ s with lea := w } : State).push8 (hi (s.pc - 1#16)) = .ok t → t.push8 (lo (s.pc - 1#16)) = .error e →
      exec (.jsr w) s = .fault e

/-! ## ALU -/

/-- R121: `ADC`, every form: its opcode values, the sum with the carry, the four flags, every other flag kept; a bus error
ends it. The opcode values are the spec's general knowledge (G1; log 18, PRESUMED). -/
def Obligations.AdcAddsWithCarry : Prop :=
  ∀ (i : Instr) (m : Mode) (s : State), i.mnemonic = .ADC → i.operand = .mode m →
    (∀ halt, i.opcode halt ∈ [0x69#8, 0x65, 0x75, 0x6D, 0x7D, 0x79, 0x61, 0x71]) ∧
    (∀ e, readOperand m s = .error e → exec i s = .fault e) ∧
    ∀ v t, readOperand m s = .ok (v, t) →
      ∃ u, exec i s = .next u ∧ u = { t with a := u.a, p := u.p } ∧
        u.a.toNat = (s.a.toNat + v.toNat + (s.flag .C).toNat) % 256 ∧
        u.flag .C = decide (0x100 ≤ s.a.toNat + v.toNat + (s.flag .C).toNat) ∧
        u.flag .V = (bitOf s.a 7 == bitOf v 7 && bitOf u.a 7 != bitOf s.a 7) ∧
        u.flag .Z = (u.a == 0#8) ∧ u.flag .N = bitOf u.a 7 ∧
        ∀ f, f ∉ [Flag.C, .Z, .V, .N] → u.flag f = s.flag f

/-- R122: `SBC`, every form, is `ADC` of the operand's one's complement. The opcode values are the spec's general
knowledge (G1; log 18, PRESUMED). -/
def Obligations.SbcAddsComplement : Prop :=
  ∀ (i : Instr) (m : Mode) (s : State), i.mnemonic = .SBC → i.operand = .mode m →
    (∀ halt, i.opcode halt ∈ [0xE9#8, 0xE5, 0xF5, 0xED, 0xFD, 0xF9, 0xE1, 0xF1]) ∧
    (∀ e, readOperand m s = .error e → exec i s = .fault e) ∧
    ∀ v t, readOperand m s = .ok (v, t) →
      ∃ u, exec i s = .next u ∧ u = { t with a := u.a, p := u.p } ∧
        u.a.toNat = (s.a.toNat + (255 - v.toNat) + (s.flag .C).toNat) % 256 ∧
        u.flag .C = decide (0x100 ≤ s.a.toNat + (255 - v.toNat) + (s.flag .C).toNat) ∧
        u.flag .V = (bitOf s.a 7 != bitOf v 7 && bitOf u.a 7 != bitOf s.a 7) ∧
        u.flag .Z = (u.a == 0#8) ∧ u.flag .N = bitOf u.a 7 ∧
        ∀ f, f ∉ [Flag.C, .Z, .V, .N] → u.flag f = s.flag f

/-- The equivalent arithmetic of `SBC` (R122, derived there): the difference less the borrow, `C` set when there is no
borrow, `V` set when the signed difference is out of range. -/
def Obligations.SbcSubtractsWithBorrow : Prop :=
  ∀ (i : Instr) (m : Mode) (s t u : State) (v : Byte), i.mnemonic = .SBC → i.operand = .mode m →
    readOperand m s = .ok (v, t) → exec i s = .next u →
    (u.a.toNat : Int) = ((s.a.toNat : Int) - v.toNat - (1 - (s.flag .C).toNat)) % 256 ∧
    u.flag .C = decide (0 ≤ (s.a.toNat : Int) - v.toNat - (1 - (s.flag .C).toNat)) ∧
    u.flag .V = decide (s.a.toInt - v.toInt - (1 - (s.flag .C).toNat) < -128 ∨
      127 < s.a.toInt - v.toInt - (1 - (s.flag .C).toNat))

/-- R123 to R125: the compares, every form: the register is compared with the operand as unsigned numbers and is never
changed. The opcode values are the spec's general knowledge (G1; log 18, PRESUMED). -/
def Obligations.CompareSetsFlags : Prop :=
  ∀ (i : Instr) (m : Mode) (s : State) (r : Byte) (opcodes : List Byte), i.operand = .mode m →
    (i.mnemonic = .CMP ∧ r = s.a ∧ opcodes = [0xC9, 0xC5, 0xD5, 0xCD, 0xDD, 0xD9, 0xC1, 0xD1] ∨
      i.mnemonic = .CPX ∧ r = s.x ∧ opcodes = [0xE0, 0xE4, 0xEC] ∨
      i.mnemonic = .CPY ∧ r = s.y ∧ opcodes = [0xC0, 0xC4, 0xCC]) →
    (∀ halt, i.opcode halt ∈ opcodes) ∧ (∀ e, readOperand m s = .error e → exec i s = .fault e) ∧
    ∀ v t, readOperand m s = .ok (v, t) →
      ∃ u, exec i s = .next u ∧ u = { t with p := u.p } ∧
        u.flag .C = decide (v.toNat ≤ r.toNat) ∧ u.flag .Z = decide (r = v) ∧ u.flag .N = bitOf (r - v) 7 ∧
        ∀ f, f ∉ [Flag.C, .Z, .N] → u.flag f = s.flag f

/-- R126 to R128: the logical operations, every form, bit by bit. The opcode values are the spec's general knowledge (G1;
log 18, PRESUMED). -/
def Obligations.LogicCombinesBitwise : Prop :=
  ∀ (i : Instr) (m : Mode) (s : State) (f : Bool → Bool → Bool) (opcodes : List Byte), i.operand = .mode m →
    (i.mnemonic = .AND ∧ f = and ∧ opcodes = [0x29, 0x25, 0x35, 0x2D, 0x3D, 0x39, 0x21, 0x31] ∨
      i.mnemonic = .ORA ∧ f = or ∧ opcodes = [0x09, 0x05, 0x15, 0x0D, 0x1D, 0x19, 0x01, 0x11] ∨
      i.mnemonic = .EOR ∧ f = xor ∧ opcodes = [0x49, 0x45, 0x55, 0x4D, 0x5D, 0x59, 0x41, 0x51]) →
    (∀ halt, i.opcode halt ∈ opcodes) ∧ (∀ e, readOperand m s = .error e → exec i s = .fault e) ∧
    ∀ v t, readOperand m s = .ok (v, t) →
      ∃ u, exec i s = .next u ∧ u = { t with a := u.a, p := u.p } ∧
        (∀ k, k < 8 → bitOf u.a k = f (bitOf s.a k) (bitOf v k)) ∧ SetsZN s u u.a

/-- R133, R134: `INC` and `DEC`, every form: one read, then one write of the byte plus or minus 1 modulo 256 at the same
address; `C` and `V` are kept; a bus error of either access ends it. The opcode values are the spec's general knowledge
(G1; log 18, PRESUMED). -/
def Obligations.IncDecMemory : Prop :=
  ∀ (i : Instr) (m : Mode) (s : State) (n : Nat) (opcodes : List Byte), i.operand = .mode m →
    (i.mnemonic = .INC ∧ n = 1 ∧ opcodes = [0xE6, 0xF6, 0xEE, 0xFE] ∨
      i.mnemonic = .DEC ∧ n = 255 ∧ opcodes = [0xC6, 0xD6, 0xCE, 0xDE]) →
    (∀ halt, i.opcode halt ∈ opcodes) ∧
    ∀ ea t1, resolve m s = .ok (ea, t1) → (∀ e, t1.memRead ea = .error e → exec i s = .fault e) ∧
      ∀ v r t2, t1.memRead ea = .ok (v, t2) → r.toNat = (v.toNat + n) % 256 →
        (∀ e, t2.memWrite ea r = .error e → exec i s = .fault e) ∧
        ∀ t3, t2.memWrite ea r = .ok t3 → ∃ u, exec i s = .next u ∧ u = { t3 with p := u.p } ∧ SetsZN s u r

/-- R135 to R138: `INX`, `DEX`, `INY`, `DEY`, with the opcode value of each: no bus operation, so no error but the
fetch's. The opcode values are the spec's general knowledge (G1; log 18, PRESUMED). -/
def Obligations.IncDecIndex : Prop :=
  ∀ s : State,
    (∃ u, exec .inx s = .next u ∧ u = { s with x := u.x, p := u.p } ∧ u.x.toNat = (s.x.toNat + 1) % 256 ∧
      SetsZN s u u.x) ∧
    (∃ u, exec .dex s = .next u ∧ u = { s with x := u.x, p := u.p } ∧ u.x.toNat = (s.x.toNat + 255) % 256 ∧
      SetsZN s u u.x) ∧
    (∃ u, exec .iny s = .next u ∧ u = { s with y := u.y, p := u.p } ∧ u.y.toNat = (s.y.toNat + 1) % 256 ∧
      SetsZN s u u.y) ∧
    (∃ u, exec .dey s = .next u ∧ u = { s with y := u.y, p := u.p } ∧ u.y.toNat = (s.y.toNat + 255) % 256 ∧
      SetsZN s u u.y) ∧
    ∀ halt, [Instr.inx, .dex, .iny, .dey].map (Instr.opcode halt) = [0xE8, 0xCA, 0xC8, 0x88]

/-- The memory forms of the shifts and rotates (R129 to R132, R141; `Z` and `N` by G3). -/
def Obligations.ShiftMemory : Prop :=
  ∀ (i : Instr) (m : Mode) (s t1 t2 t3 : State) (ea : Word) (v r : Byte) (out : Bool), i.operand = .mode m →
    shifted i.mnemonic (s.flag .C) v = some (r.toNat, out) →
    resolve m s = .ok (ea, t1) → t1.memRead ea = .ok (v, t2) → t2.memWrite ea r = .ok t3 →
    ∃ u, exec i s = .next u ∧ u = { t3 with p := u.p } ∧ u.flag .C = out ∧ u.flag .Z = (r == 0#8) ∧
      u.flag .N = bitOf r 7 ∧ ∀ f, f ∉ [Flag.C, .Z, .N] → u.flag f = s.flag f

/-- The accumulator forms of the shifts and rotates (R129 to R132, R116; `Z` and `N` by G3). -/
def Obligations.ShiftAccumulator : Prop :=
  ∀ (i : Instr) (s : State), i.operand = .accumulator →
    ∃ u r out, exec i s = .next u ∧ shifted i.mnemonic (s.flag .C) s.a = some (r, out) ∧
      u = { s with a := u.a, p := u.p } ∧ u.a.toNat = r ∧ u.flag .C = out ∧ u.flag .Z = (u.a == 0#8) ∧
      u.flag .N = bitOf u.a 7 ∧ ∀ f, f ∉ [Flag.C, .Z, .N] → u.flag f = s.flag f

/-- R139: `BIT`, both forms: `Z` from the AND, `N` and `V` from bits 7 and 6 of the operand; `A` and `C` are kept. The
opcode values are the spec's general knowledge (G1; log 18, PRESUMED). -/
def Obligations.BitTestsOperand : Prop :=
  ∀ (i : Instr) (m : Mode) (s : State), i.mnemonic = .BIT → i.operand = .mode m →
    (∀ halt, i.opcode halt ∈ [0x24#8, 0x2C]) ∧ (∀ e, readOperand m s = .error e → exec i s = .fault e) ∧
    ∀ v t, readOperand m s = .ok (v, t) →
      ∃ u, exec i s = .next u ∧ u = { t with p := u.p } ∧ u.flag .Z = decide (s.a &&& v = 0#8) ∧
        u.flag .N = bitOf v 7 ∧ u.flag .V = bitOf v 6 ∧ ∀ f, f ∉ [Flag.Z, .V, .N] → u.flag f = s.flag f

/-! ## Control flow -/

/-- The branches (R150 to R158, R117; the flags tested by G4, the wrap by D14): taken or not, nothing but `PC` changes. -/
def Obligations.BranchesFollowFlags : Prop :=
  ∀ (i : Instr) (rr : Byte) (s : State), i.operand = .relative rr →
    ∃ f b u, branchCondition i.mnemonic = some (f, b) ∧ exec i s = .next u ∧ u = { s with pc := u.pc } ∧
      (s.flag f = b → (u.pc.toNat : Int) = (s.pc.toNat + rr.toInt) % 65536) ∧ (s.flag f ≠ b → u.pc = s.pc)

/-- `JMP` (R159; G2): `PC` gets the effective address and nothing is pushed. -/
def Obligations.JmpSetsPC : Prop :=
  ∀ (i : Instr) (m : Mode) (s t : State) (ea : Word), i.mnemonic = .JMP → i.operand = .mode m →
    resolve m s = .ok (ea, t) → exec i s = .next { t with pc := ea }

/-- R160: `JSR` (opcode 0x20, an absolute target) pushes the address of its own last byte (`PC - 1`), high byte first, then
jumps; it writes no flag; an error of either push ends it, and when the second push fails the first byte is already
written (R211 item 1, D15; log 9). The opcode value is the spec's general knowledge (G1; log 18, PRESUMED). -/
def Obligations.JsrPushesAndJumps : Prop :=
  ∀ (s : State) (w : Word),
    (∀ halt, (Instr.jsr w).opcode halt = 0x20) ∧ (Instr.jsr w).operand = .mode (.absolute w) ∧
    (∀ e, ({ s with lea := w } : State).push8 (hi (s.pc - 1#16)) = .error e → exec (.jsr w) s = .fault e) ∧
    ∀ t, ({ s with lea := w } : State).push8 (hi (s.pc - 1#16)) = .ok t →
      (∀ e, t.push8 (lo (s.pc - 1#16)) = .error e → exec (.jsr w) s = .fault e) ∧
      (∀ b kind left, s.Inv → s.peek (stackAddr s.sp) = some b → exec (.jsr w) s = .fault (.busError kind left) →
        left = t.hostTurn.aftermath ∧ t.hostTurn.peek (stackAddr s.sp) = some (hi (s.pc - 1#16))) ∧
      ∀ u, t.push8 (lo (s.pc - 1#16)) = .ok u →
        exec (.jsr w) s = .next { u with pc := w } ∧ u.sp.toNat = (s.sp.toNat + 254) % 256 ∧ ∀ f, u.flag f = s.flag f

/-- R161: `RTS` (opcode 0x60, no operand) pulls the low byte, then the high, and adds one modulo 65536; it writes no flag;
an error of either pull ends it. The opcode value is the spec's general knowledge (G1; log 18, PRESUMED). -/
def Obligations.RtsPullsPlusOne : Prop :=
  ∀ s : State, (∀ halt, Instr.rts.opcode halt = 0x60) ∧ Instr.rts.operand = .implied ∧
    (∀ e, s.pull8 = .error e → exec .rts s = .fault e) ∧
    ∀ l t, s.pull8 = .ok (l, t) → (∀ e, t.pull8 = .error e → exec .rts s = .fault e) ∧
      ∀ h u, t.pull8 = .ok (h, u) →
        ∃ v, exec .rts s = .next v ∧ v = { u with pc := v.pc } ∧
          v.pc.toNat = (256 * h.toNat + l.toNat + 1) % 65536 ∧ v.sp.toNat = (s.sp.toNat + 2) % 256 ∧
          ∀ f, v.flag f = s.flag f

/-- `RTI` pulls status, then `PC` low, then high, and adds nothing (R162, D5, G7); bit 5 stays 1 (D1), every other bit is
loaded. -/
def Obligations.RtiPullsStatusAndPC : Prop :=
  ∀ (s t u v : State) (b l h : Byte), s.pull8 = .ok (b, t) → (t.setStatus b).pull8 = .ok (l, u) →
    u.pull8 = .ok (h, v) →
    ∃ z, exec .rti s = .next z ∧ z = { v with pc := z.pc } ∧ z.pc.toNat = 256 * h.toNat + l.toNat ∧
      ∀ f, z.flag f = if f = .R then true else bitOf b f.bit

/-- `BRK` only skips its padding byte (R163, D4): a step over it advances `PC` by 2 in total and changes nothing else but
`HALTED`, the phase (log 12) and what the host does meanwhile. -/
def Obligations.BrkAdvancesByTwo : Prop :=
  ∀ s : State, exec .brk s = .next { s with pc := s.pc + 1#16 } ∧
    (unassignedOpcodes.contains s.cfg.haltOpcode = true → s.peek s.pc = some 0x00#8 →
      step s = .next { s.hostTurn with pc := s.pc + 2#16, halted := false, phase := .running })

/-- `HLT` (R170, D7): a step over it reports a halt, leaves `PC` past the opcode and changes nothing else but the phase
(log 12) and what the host does meanwhile; `exec` of it sets `HALTED` alone. -/
def Obligations.HltReportsHalt : Prop :=
  ∀ s : State, exec .hlt s = .next { s with halted := true } ∧
    (s.peek s.pc = some s.cfg.haltOpcode →
      step s = .next { s.hostTurn with pc := s.pc + 1#16, halted := true, phase := .running })

/-! ## Stack -/

/-- The stack primitives (R12, D26): the address is 0x0100 plus `SP`, always in the stack page; a push writes then
decrements modulo 256, a pull increments modulo 256 then reads. -/
def Obligations.StackPrimitives : Prop :=
  ∀ (s : State) (v : Byte), (stackAddr s.sp).toNat = 0x100 + s.sp.toNat ∧
    (∀ t, s.memWrite (stackAddr s.sp) v = .ok t →
      ∃ u, s.push8 v = .ok u ∧ u = { t with sp := u.sp } ∧ u.sp.toNat = (s.sp.toNat + 255) % 256) ∧
    (∀ b, s.peek (stackAddr (s.sp + 1#8)) = some b →
      ∃ u, s.pull8 = .ok (b, u) ∧ u = { s.hostTurn with sp := u.sp } ∧ u.sp.toNat = (s.sp.toNat + 1) % 256)

/-- `PHA` pushes `A` (R164); `PHP` pushes `P` with bit 5 as 1 and bit 4 as stored (R166, D1, D2); no flag is written. -/
def Obligations.PushesCompleteWithNoFlag : Prop :=
  ∀ s t : State, (s.push8 s.a = .ok t → exec .pha s = .next t) ∧
    (∀ b : Byte, (∀ f : Flag, bitOf b f.bit = s.flag f) → bitOf b 5 = true → s.push8 b = .ok t →
      exec .php s = .next t)

/-- `PLA` (R165; flags by G5) and `PLP` (R167, D1). -/
def Obligations.PullsLoadRegister : Prop :=
  ∀ (s t : State) (b : Byte), s.pull8 = .ok (b, t) →
    (∃ u, exec .pla s = .next u ∧ u = { t with a := b, p := u.p } ∧ SetsZN s u b) ∧
    (∃ u, exec .plp s = .next u ∧ u = { t with p := u.p } ∧
      ∀ f, u.flag f = if f = .R then true else bitOf b f.bit)

/-- What a push leaves, a pull gives back (R160, R161, R164, R165, R171; 95_test_vectors.md section 1 item 3), when the
stack bytes are in memory: `RTS` after `JSR` gives back the `PC` after the `JSR` and the old `SP`; "`PHA` then `PLA`
restores A and leaves `sp` unchanged". -/
def Obligations.PullsUndoPushes : Prop :=
  ∀ (s t t' u : State) (b0 : Byte), s.Inv → s.peek (stackAddr s.sp) = some b0 →
    (∀ w b1, s.peek (stackAddr (s.sp - 1#8)) = some b1 → exec (.jsr w) s = .next t → t' = { t with pc := t'.pc } →
      exec .rts t' = .next u → u.pc = s.pc ∧ u.sp = s.sp) ∧
    (exec .pha s = .next t → t' = { t with a := t'.a, pc := t'.pc } → exec .pla t' = .next u →
      u.a = s.a ∧ u.sp = s.sp)

/-! ## Loads, stores, transfers, flags -/

/-- `LDA`, `LDX`, `LDY` (R180 to R182; G6). -/
def Obligations.LoadsSetRegister : Prop :=
  ∀ (i : Instr) (m : Mode) (s t : State) (v : Byte), i.mnemonic ∈ [.LDA, .LDX, .LDY] → i.operand = .mode m →
    readOperand m s = .ok (v, t) →
    ∃ u, exec i s = .next u ∧ SetsZN s u v ∧ (i.mnemonic = .LDA → u = { t with a := v, p := u.p }) ∧
      (i.mnemonic = .LDX → u = { t with x := v, p := u.p }) ∧ (i.mnemonic = .LDY → u = { t with y := v, p := u.p })

/-- `STA`, `STX`, `STY` (R183 to R185; G6): one write of the register, nothing else. -/
def Obligations.StoresWriteRegister : Prop :=
  ∀ (i : Instr) (m : Mode) (s t u : State) (ea : Word) (r : Byte), i.operand = .mode m →
    (i.mnemonic = .STA ∧ r = s.a ∨ i.mnemonic = .STX ∧ r = s.x ∨ i.mnemonic = .STY ∧ r = s.y) →
    resolve m s = .ok (ea, t) → t.memWrite ea r = .ok u → exec i s = .next u

/-- The transfers (R186 to R189; G6), `TSX` among them (R169; G5); `TXS` writes no flag (R168). -/
def Obligations.TransfersCopy : Prop :=
  ∀ s : State,
    (∃ u, exec .tax s = .next u ∧ u = { s with x := s.a, p := u.p } ∧ SetsZN s u s.a) ∧
    (∃ u, exec .tay s = .next u ∧ u = { s with y := s.a, p := u.p } ∧ SetsZN s u s.a) ∧
    (∃ u, exec .txa s = .next u ∧ u = { s with a := s.x, p := u.p } ∧ SetsZN s u s.x) ∧
    (∃ u, exec .tya s = .next u ∧ u = { s with a := s.y, p := u.p } ∧ SetsZN s u s.y) ∧
    (∃ u, exec .tsx s = .next u ∧ u = { s with x := s.sp, p := u.p } ∧ SetsZN s u s.sp) ∧
    exec .txs s = .next { s with sp := s.x }

/-- The flag instructions write one bit of `P` (R190 to R196; G6). -/
def Obligations.FlagInstructionsWriteOneBit : Prop :=
  ∀ (i : Instr) (f : Flag) (b : Bool) (s : State),
    (i, f, b) ∈ [(Instr.clc, Flag.C, false), (.sec, .C, true), (.cli, .I, false), (.sei, .I, true), (.clv, .V, false),
      (.cld, .D, false), (.sed, .D, true)] →
    ∃ u, exec i s = .next u ∧ u = { s with p := u.p } ∧ ∀ g, u.flag g = if g = f then b else s.flag g

/-- `NOP` (R197) and every unassigned opcode (R198, D8) do nothing beyond the fetch: a step over one advances `PC` by 1,
clears `HALTED` and changes nothing else but the phase (log 12) and what the host does meanwhile. -/
def Obligations.NoOperationsOnlyAdvance : Prop :=
  ∀ s : State, exec .nop s = .next s ∧ (∀ op, exec (.unassigned op) s = .next s) ∧
    ∀ op, unassignedOpcodes.contains s.cfg.haltOpcode = true → s.peek s.pc = some op →
      op = 0xEA#8 ∨ (unassignedOpcodes.contains op = true ∧ op ≠ s.cfg.haltOpcode) →
      step s = .next { s.hostTurn with pc := s.pc + 1#16, halted := false, phase := .running }

/-! ## Frames -/

/-- Which instruction writes which register (R12, R13), and none changes the parameters or the phase (log 12). -/
def Obligations.RegisterFrame : Prop :=
  ∀ (i : Instr) (s t : State), exec i s = .next t →
    (writesA i = false → t.a = s.a) ∧ (writesX i = false → t.x = s.x) ∧ (writesY i = false → t.y = s.y) ∧
    (writesSP i = false → t.sp = s.sp) ∧ t.cfg = s.cfg ∧ t.phase = s.phase

/-- Which instruction writes which flag (R27). -/
def Obligations.FlagFrame : Prop :=
  ∀ (i : Instr) (s t : State) (f : Flag), exec i s = .next t → f ∉ flagsWritten i.mnemonic → t.flag f = s.flag f

/-- `LEA` is written with the effective address by the forms with a resolver and by no other (R19, D23), and `HALTED` by
`HLT` alone. -/
def Obligations.ScratchFrame : Prop :=
  ∀ (i : Instr) (s t : State), exec i s = .next t →
    ((∀ m, i.operand ≠ .mode m) → t.lea = s.lea) ∧
    (∀ m ea u, i.operand = .mode m → resolve m s = .ok (ea, u) → t.lea = ea) ∧ (i ≠ .hlt → t.halted = s.halted)

/-- Every byte of memory but those an instruction stores to reads as before, and an instruction that stores to none
leaves the contents of every memory device (R62, R63, R212). -/
def Obligations.MemoryFrame : Prop :=
  ∀ (i : Instr) (s t : State), s.Inv → exec i s = .next t →
    (∀ a, a ∉ storeAddresses i s → t.peek a = s.peek a) ∧
    (storeAddresses i s = [] → t.devices.map Device.memoryBytes = s.devices.map Device.memoryBytes)

/-! ## Bus and devices -/

/-- Routing (R35, D10): the first registered device whose interval holds the address, the interval closed or half-open
by the parameter. -/
def Obligations.RoutingIsFirstMatch : Prop :=
  ∀ (s : State) (addr : Word) (d : Device), s.route addr = some d ↔
    ∃ before after : List Device, s.devices = before ++ d :: after ∧
      (d.base.toNat ≤ addr.toNat ∧ (if s.cfg.routeEndInclusive then addr.toNat ≤ d.base.toNat + d.size s.cfg
        else addr.toNat < d.base.toNat + d.size s.cfg)) ∧
      ∀ e ∈ before, ¬ (e.base.toNat ≤ addr.toNat ∧ (if s.cfg.routeEndInclusive then
        addr.toNat ≤ e.base.toNat + e.size s.cfg else addr.toNat < e.base.toNat + e.size s.cfg))

/-- A write to a memory device (R46, R214, D16): read-only first, then the range, then the byte is written, reads back,
and no other byte of memory and no register changes. -/
def Obligations.MemoryWrite : Prop :=
  ∀ (s : State) (addr : Word) (v : Byte) (d : Device) (m : MemoryDevice), s.Inv → s.route addr = some d →
    d.unit = .memory m →
    (m.readOnly = true → s.busSet addr v = .error .readOnlyViolation) ∧
    (m.readOnly = false → m.size ≤ d.offset addr → s.busSet addr v = .error .outOfRange) ∧
    (m.readOnly = false → d.offset addr < m.size →
      ∃ t, s.busSet addr v = .ok t ∧ t = { s with devices := t.devices } ∧ t.peek addr = some v ∧
        ∀ a, a ≠ addr → t.peek a = s.peek a)

/-- R45: a byte read of a memory device: the byte at the address's index, whatever the read-only flag, with no side
effect; only the address one past the buffer can be out of range. -/
def Obligations.MemoryByteRead : Prop :=
  ∀ (s : State) (addr : Word) (d : Device) (m : MemoryDevice), s.route addr = some d → d.unit = .memory m →
    (m.size ≤ addr.toNat - d.base.toNat →
      addr.toNat = d.base.toNat + m.size ∧ s.busGet addr = .error .outOfRange) ∧
    (addr.toNat - d.base.toNat < m.size → s.busGet addr = .ok (m.bytes.read (addr.toNat - d.base.toNat), s))

/-- The word operations of a memory device (R47, R48): both bytes inside the one buffer, the low byte at the lower index,
or `OutOfRange` (D11; log 19, DEDUCED); a write tests read-only first (D16; log 19, DEDUCED) and writes both bytes or
neither. -/
def Obligations.MemoryWordReadAndWrite : Prop :=
  ∀ (m : MemoryDevice) (idx : Nat),
    (m.size ≤ idx + 1 → m.getWord idx = .error .outOfRange) ∧
    (idx + 1 < m.size → ∃ w l h, m.getWord idx = .ok w ∧ m.get idx = .ok l ∧ m.get (idx + 1) = .ok h ∧
      w.toNat = 256 * h.toNat + l.toNat) ∧
    ∀ w : Word, m.bytes.wf →
      (m.readOnly = true → m.setWord idx w = .error .readOnlyViolation) ∧
      (m.readOnly = false → m.size ≤ idx + 1 → m.setWord idx w = .error .outOfRange) ∧
      (m.readOnly = false → idx + 1 < m.size → ∃ m', m.setWord idx w = .ok m' ∧
        m'.get idx = .ok (BitVec.ofNat 8 (w.toNat % 256)) ∧ m'.get (idx + 1) = .ok (BitVec.ofNat 8 (w.toNat / 256)) ∧
        (∀ j, j ≠ idx → j ≠ idx + 1 → m'.get j = m.get j) ∧ m'.bytes.wf ∧ m' = { m with bytes := m'.bytes })

/-- `load` (R41, R49, D17): past any read-only flag the image is installed and the cursor set, or nothing is written and
`ImageTooLarge` is raised. On the bus it is routed by its address, allowed before reset only and once for each device,
and refused at a peripheral (R54, R59, R238, 93 U8, U9; logs 12 and 13). -/
def Obligations.LoadInstallsImage : Prop :=
  (∀ (m : MemoryDevice) (start : Nat) (data : List Byte), m.bytes.wf →
    (m.size < start + data.length → m.load start data = .error .imageTooLarge) ∧
    (start + data.length ≤ m.size → ∃ m', m.load start data = .ok m' ∧
      m' = { m with bytes := m'.bytes, writeCursor := start + data.length, loaded := true } ∧ m'.bytes.wf ∧
      (∀ j v, data[j]? = some v → m'.get (start + j) = .ok v) ∧
      (∀ j, j < start ∨ start + data.length ≤ j → m'.get j = m.get j))) ∧
  ∀ (s : State) (data : List Byte) (addr : Word),
    (s.phase = .running → s.busLoad data addr = .refused .lateLoad) ∧
    (s.phase = .setup →
      (s.route addr = none → s.busLoad data addr = .fault .deviceNotFound) ∧
      ∀ d, s.route addr = some d →
        ((∀ m, d.unit ≠ .memory m) → s.busLoad data addr = .refused .peripheralLoad) ∧
        ∀ m, d.unit = .memory m → (m.loaded = true → s.busLoad data addr = .refused .secondLoad) ∧
          (m.loaded = false →
            (∀ kind, m.load (d.offset addr) data = .error kind → s.busLoad data addr = .fault kind) ∧
            ∀ m', m.load (d.offset addr) data = .ok m' →
              s.busLoad data addr = .next (data.length, s.putRouted addr { d with unit := .memory m' })))

/-- A keyboard, whether or not it is configured (R51, R52, D20). Reads: the data address pops the oldest key with bit 7
set or reads 0x00, the control address tells whether a key waits. Writes: the control address toggles `configured`,
whatever the value; the data address does nothing. Any other offset is out of range. A word operation (R54, D19; log 19,
DEDUCED) is the low byte's, then the high byte's at the next address, each with its effect: a word read from the data
address pops before it looks, one from the control address looks before it pops; past the device it is out of range, and
so it is where either address is no register (log 14). -/
def Obligations.KeyboardReadsAndWrites : Prop :=
  ∀ (s : State) (addr : Word) (d : Device) (k : Keyboard), s.Inv → s.route addr = some d → d.unit = .keyboard k →
    (d.offset addr = s.cfg.kbdDataOff → k.queue = [] → s.busGet addr = .ok (0x00#8, s)) ∧
    (∀ key rest, d.offset addr = s.cfg.kbdDataOff → k.queue = key :: rest →
      s.busGet addr =
        .ok (key ||| 0x80#8, s.putRouted addr { d with unit := .keyboard { k with queue := rest } })) ∧
    (d.offset addr = s.cfg.kbdCtrlOff →
      s.busGet addr = .ok (if k.queue = [] then 0x00#8 else 0x80#8, s)) ∧
    (∀ v, d.offset addr = s.cfg.kbdCtrlOff → s.busSet addr v =
      .ok (s.putRouted addr { d with unit := .keyboard { k with configured := !k.configured } })) ∧
    (∀ v, d.offset addr = s.cfg.kbdDataOff → s.busSet addr v = .ok s) ∧
    (d.offset addr ≠ s.cfg.kbdDataOff → d.offset addr ≠ s.cfg.kbdCtrlOff →
      s.busGet addr = .error .outOfRange ∧ ∀ v, s.busSet addr v = .error .outOfRange) ∧
    -- words: past the device, and where the two addresses are not its two registers
    ((s.cfg.periphSize ≤ d.offset addr + 1 ∨
        ¬ InOrder (d.offset addr) s.cfg.kbdDataOff s.cfg.kbdCtrlOff ∧
        ¬ InOrder (d.offset addr) s.cfg.kbdCtrlOff s.cfg.kbdDataOff) →
      s.busGetWord addr = .error .outOfRange ∧ ∀ w, s.busSetWord addr w = .error .outOfRange) ∧
    -- words: the data address, then the control address
    (InOrder (d.offset addr) s.cfg.kbdDataOff s.cfg.kbdCtrlOff →
      (k.queue = [] → s.busGetWord addr = .ok (0x0000#16, s)) ∧
      ∀ key rest, k.queue = key :: rest →
        s.busGetWord addr = .ok (joinWord (if rest = [] then 0x00#8 else 0x80#8) (key ||| 0x80#8),
          s.putRouted addr { d with unit := .keyboard { k with queue := rest } })) ∧
    -- words: the control address, then the data address
    (InOrder (d.offset addr) s.cfg.kbdCtrlOff s.cfg.kbdDataOff →
      (k.queue = [] → s.busGetWord addr = .ok (0x0000#16, s)) ∧
      ∀ key rest, k.queue = key :: rest →
        s.busGetWord addr = .ok (joinWord (key ||| 0x80#8) 0x80#8,
          s.putRouted addr { d with unit := .keyboard { k with queue := rest } })) ∧
    (∀ w, InOrder (d.offset addr) s.cfg.kbdDataOff s.cfg.kbdCtrlOff ∨
        InOrder (d.offset addr) s.cfg.kbdCtrlOff s.cfg.kbdDataOff →
      s.busSetWord addr w =
        .ok (s.putRouted addr { d with unit := .keyboard { k with configured := !k.configured } }))

/-- R56, R58, R59: a write to a terminal's control address, whatever the byte, makes every cell blank, the cursor (0, 0)
and the device configured; a second one leaves it so, and no write or read leaves configured mode. A read answers 0x00
with the terminal as it was. On the bus (R37 to R40) the device that owns the address does this, and the terminal it
leaves takes its place in the registry; any other offset is out of range, for reads and writes. A word operation is the
low byte's, then the high byte's at the next address: data then control ends cleared, control then data clears and then
prints the high byte; past the device it is out of range, and so it is where either address is no register (log 14). That
the value is ignored, that every control write clears, that a read has no side effect (D21) and the word operations (D19)
are the spec's own decisions (log 19, DEDUCED). -/
def Obligations.TerminalReadsAndClears : Prop :=
  ∀ (c : Config) (t : Terminal), ∃ b : Terminal,
    (b.row = 0 ∧ b.col = 0 ∧ b.configured = true ∧
      ∀ r k, r < c.termRows → k < c.termCols → b.cell r k = some c.termBlank) ∧
    (∀ v, t.set c c.termCtrlOff v = .ok b ∧ b.set c c.termCtrlOff v = .ok b) ∧
    (t.configured = true → ∀ off v t', t.set c off v = .ok t' → t'.configured = true) ∧
    (∀ off v t', t.get c off = .ok (v, t') → v = 0x00#8 ∧ t' = t) ∧
    ∀ (s : State) (addr : Word) (d : Device), s.cfg = c → s.route addr = some d → d.unit = .terminal t →
      (d.offset addr = c.termDataOff ∨ d.offset addr = c.termCtrlOff → s.busGet addr = .ok (0x00#8, s)) ∧
      (∀ v, d.offset addr = c.termCtrlOff → s.busSet addr v = .ok (s.putRouted addr { d with unit := .terminal b })) ∧
      (d.offset addr ≠ c.termDataOff → d.offset addr ≠ c.termCtrlOff →
        s.busGet addr = .error .outOfRange ∧ ∀ v, s.busSet addr v = .error .outOfRange) ∧
      -- words: past the device, and where the two addresses are not its two registers
      ((c.periphSize ≤ d.offset addr + 1 ∨
          ¬ InOrder (d.offset addr) c.termDataOff c.termCtrlOff ∧
          ¬ InOrder (d.offset addr) c.termCtrlOff c.termDataOff) →
        s.busGetWord addr = .error .outOfRange ∧ ∀ w, s.busSetWord addr w = .error .outOfRange) ∧
      -- words: the two registers, in either order
      (d.offset addr + 1 < c.periphSize →
        (InOrder (d.offset addr) c.termDataOff c.termCtrlOff ∨ InOrder (d.offset addr) c.termCtrlOff c.termDataOff →
          s.busGetWord addr = .ok (0x0000#16, s)) ∧
        (∀ w, InOrder (d.offset addr) c.termDataOff c.termCtrlOff →
          s.busSetWord addr w = .ok (s.putRouted addr { d with unit := .terminal b })) ∧
        ∀ w, InOrder (d.offset addr) c.termCtrlOff c.termDataOff →
          ∃ b', b.set c c.termDataOff (hi w) = .ok b' ∧
            s.busSetWord addr w = .ok (s.putRouted addr { d with unit := .terminal b' }))

/-- A write to a configured terminal's data address (R57, D21): the character is stored at the cursor with the top bit
stripped and the cursor advances, wraps at the column limit, and scrolls the grid at the row limit; a carriage return
stores nothing and moves to a new line by the same rule. An unconfigured terminal ignores it. A bus write routed to
that address (R38) does this and puts the terminal it leaves in the registry. -/
def Obligations.TerminalPrints : Prop :=
  ∀ (c : Config) (t : Terminal) (v : Byte), (DeviceUnit.terminal t).wf c → c.termDataOff ≠ c.termCtrlOff →
    ∃ t', t.set c c.termDataOff v = .ok t' ∧
      (∀ (s : State) (addr : Word) (d : Device), s.cfg = c → s.route addr = some d → d.unit = .terminal t →
        d.offset addr = c.termDataOff → s.busSet addr v = .ok (s.putRouted addr { d with unit := .terminal t' })) ∧
      (t.configured = false → t' = t) ∧
      (t.configured = true → t'.configured = true ∧
        ∃ put : Nat → Nat → Option Byte,
          (∀ r k, put r k = if v &&& 0x7F#8 ≠ 0x0D#8 ∧ r = t.row ∧ k = t.col then some (v &&& 0x7F#8)
            else t.cell r k) ∧
          (if v &&& 0x7F#8 ≠ 0x0D#8 ∧ t.col + 1 < c.termCols then
            t'.row = t.row ∧ t'.col = t.col + 1 ∧ ∀ r k, t'.cell r k = put r k
          else if t.row + 1 < c.termRows then
            t'.row = t.row + 1 ∧ t'.col = 0 ∧ ∀ r k, t'.cell r k = put r k
          else
            t'.row = t.row ∧ t'.col = 0 ∧ (∀ r k, r + 1 < c.termRows → t'.cell r k = put (r + 1) k) ∧
            ∀ k, k < c.termCols → t'.cell (c.termRows - 1) k = some c.termBlank))

/-! ## The host -/

/-- `KbdEnqueue` (R53): the key goes to the end of that keyboard's queue, and nothing else changes; and each bus read of
the CPU sees the appends scheduled before it (log 8). -/
def Obligations.KeysAppendAtTheEnd : Prop :=
  ∀ (s : State) (n : Nat) (key : Byte) (d : Device) (k : Keyboard), s.devices[n]? = some d → d.unit = .keyboard k →
    (∃ t, s.kbdEnqueue ⟨n, key⟩ = t ∧ t = { s with devices := t.devices } ∧
      t.devices[n]? = some { d with unit := .keyboard { k with queue := k.queue ++ [key] } } ∧
      ∀ j, j ≠ n → t.devices[j]? = s.devices[j]?) ∧
    (∀ rest addr u, s.arrivals = [⟨n, key⟩] :: rest → u = ({ s with arrivals := rest } : State).kbdEnqueue ⟨n, key⟩ →
      (∀ v t, u.busGet addr = .ok (v, t) → s.memRead addr = .ok (v, t)) ∧
      ∀ kind, u.busGet addr = .error kind → s.memRead addr = .error (.busError kind u.aftermath))

/-- `set_status_flag` and `get_registers` (R21, R22, D24): one bit of `P`, never bit 5, and the snapshot shows bit 5
as 1. -/
def Obligations.HostReadsAndSetsFlags : Prop :=
  ∀ (s : State) (f : Flag) (b : Bool), s.setStatusFlag f b = { s with p := (s.setStatusFlag f b).p } ∧
    (∀ g, (s.setStatusFlag f b).flag g = if g = f ∧ f ≠ .R then b else s.flag g) ∧
    (∀ g : Flag, bitOf s.getRegisters.status g.bit = if g = .R then true else bitOf s.p g.bit) ∧
    s.getRegisters = ⟨s.pc, s.sp, s.a, s.x, s.y, s.getRegisters.status⟩
end

