-- ==== Sys2Proof/Laws/Bits.lean ====
section
/-! SUPPORT. Taking a word apart and joining it (00_scope.md R6). -/

namespace Sys2Proof

@[simp] theorem joinWord_hi_lo (w : Word) : joinWord (hi w) (lo w) = w := by
  refine BitVec.eq_of_getLsbD_eq fun i h => ?_
  simp only [joinWord, hi, lo, BitVec.getLsbD_append, BitVec.getLsbD_extractLsb']
  by_cases h8 : i < 8
  · simp [h8]
  · simp [h8, show i - 8 < 8 by omega, show 8 + (i - 8) = i by omega]

@[simp] theorem lo_joinWord (h l : Byte) : lo (joinWord h l) = l := by
  refine BitVec.eq_of_getLsbD_eq fun i hi => ?_
  simp only [joinWord, lo, BitVec.getLsbD_extractLsb', BitVec.getLsbD_append, hi]
  simp [hi]

@[simp] theorem hi_joinWord (h l : Byte) : hi (joinWord h l) = h := by
  refine BitVec.eq_of_getLsbD_eq fun i hi' => ?_
  simp only [joinWord, hi, BitVec.getLsbD_extractLsb', BitVec.getLsbD_append, hi']
  simp [show ¬ 8 + i < 8 by omega]

end Sys2Proof
end

