-- ==== Sys2Proof/Laws/Memory.lean ====
section
/-! SUPPORT. The contents of a memory device: every operation keeps the canonical form, a read after a write to the same
index gives the byte written, and a write leaves every other index alone. -/

namespace Sys2Proof.Machine

theorem Memory.wf_nil : Memory.wf [] := ⟨List.Pairwise.nil, by simp⟩

/-- The form of a nonempty list, one entry at a time. -/
theorem Memory.wf_cons {k : Nat} {w : Byte} {rest : Memory} :
    Memory.wf ((k, w) :: rest) ↔ (∀ c ∈ rest, k < c.1) ∧ w ≠ unlistedByte ∧ Memory.wf rest := by
  simp only [Memory.wf, List.map_cons, List.pairwise_cons, List.mem_map, List.mem_cons]
  constructor
  · rintro ⟨⟨h1, h2⟩, h3⟩
    exact ⟨fun c hc => h1 _ ⟨c, hc, rfl⟩, h3 (k, w) (.inl rfl), h2, fun c hc => h3 c (.inr hc)⟩
  · rintro ⟨h1, h2, h3, h4⟩
    refine ⟨⟨?_, h3⟩, ?_⟩
    · rintro _ ⟨c, hc, rfl⟩; exact h1 c hc
    · rintro c (rfl | hc)
      · exact h2
      · exact h4 c hc

/-- Below the first index nothing is listed. -/
theorem Memory.read_of_lt {m : Memory} {i : Nat} (h : ∀ c ∈ m, i < c.1) : m.read i = unlistedByte := by
  cases m with
  | nil => rfl
  | cons c rest => simp [Memory.read, h c (by simp)]

theorem mem_consByte {c : Host.Cell} {i : Nat} {v : Byte} {rest : Memory} (h : c ∈ consByte i v rest) :
    c = (i, v) ∨ c ∈ rest := by
  unfold consByte at h
  split at h
  · exact .inr h
  · simpa using h

/-- A write lists no index but its own and those listed before. -/
theorem Memory.mem_write {m : Memory} {i : Nat} {v : Byte} {c : Host.Cell} (h : c ∈ m.write i v) :
    c.1 = i ∨ c ∈ m := by
  induction m with
  | nil =>
    rcases mem_consByte h with rfl | h
    · exact .inl rfl
    · exact .inr h
  | cons e rest ih =>
    obtain ⟨k, w⟩ := e
    simp only [Memory.write] at h
    split at h
    · rcases mem_consByte h with rfl | h
      · exact .inl rfl
      · exact .inr h
    · split at h
      · rcases mem_consByte h with rfl | h
        · exact .inl rfl
        · exact .inr (by simp [h])
      · rcases List.mem_cons.mp h with rfl | h
        · exact .inr (by simp)
        · rcases ih h with h | h
          · exact .inl h
          · exact .inr (by simp [h])

theorem consByte_wf {i : Nat} {v : Byte} {rest : Memory} (h : Memory.wf rest) (hi : ∀ c ∈ rest, i < c.1) :
    Memory.wf (consByte i v rest) := by
  unfold consByte
  split
  · exact h
  · next hv => exact Memory.wf_cons.mpr ⟨hi, hv, h⟩

/-- A write keeps the canonical form. -/
theorem Memory.write_wf {m : Memory} (i : Nat) (v : Byte) (h : m.wf) : (m.write i v).wf := by
  induction m with
  | nil => exact consByte_wf h (by simp)
  | cons e rest ih =>
    obtain ⟨k, w⟩ := e
    obtain ⟨h1, h2, h3⟩ := Memory.wf_cons.mp h
    simp only [Memory.write]
    split
    · next hlt =>
      refine consByte_wf h fun c hc => ?_
      rcases List.mem_cons.mp hc with rfl | hc
      · exact hlt
      · exact Nat.lt_trans hlt (h1 c hc)
    · split
      · next heq => subst heq; exact consByte_wf h3 h1
      · refine Memory.wf_cons.mpr ⟨fun c hc => ?_, h2, ih h3⟩
        rcases Memory.mem_write hc with h | hc
        · omega
        · exact h1 c hc

theorem read_consByte_same {i : Nat} {v : Byte} {rest : Memory} (hi : ∀ c ∈ rest, i < c.1) :
    (consByte i v rest).read i = v := by
  unfold consByte
  split
  · next hv => rw [Memory.read_of_lt hi, hv]
  · simp [Memory.read]

theorem read_consByte_ne {i j : Nat} {v : Byte} {rest : Memory} (hi : ∀ c ∈ rest, i < c.1) (h : j ≠ i) :
    (consByte i v rest).read j = rest.read j := by
  unfold consByte
  split
  · rfl
  · simp only [Memory.read, if_neg h]
    split
    · next hlt => exact (Memory.read_of_lt fun c hc => Nat.lt_trans hlt (hi c hc)).symm
    · rfl

/-- A read after a write to the same index. -/
theorem Memory.read_write_same {m : Memory} (i : Nat) (v : Byte) (h : m.wf) : (m.write i v).read i = v := by
  induction m with
  | nil => exact read_consByte_same (by simp)
  | cons e rest ih =>
    obtain ⟨k, w⟩ := e
    obtain ⟨h1, -, h3⟩ := Memory.wf_cons.mp h
    simp only [Memory.write]
    split
    · next hlt =>
      refine read_consByte_same fun c hc => ?_
      rcases List.mem_cons.mp hc with rfl | hc
      · exact hlt
      · exact Nat.lt_trans hlt (h1 c hc)
    · next hnlt =>
      split
      · next heq => subst heq; exact read_consByte_same h1
      · next hne => simp [Memory.read, hnlt, hne, ih h3]

/-- A write leaves every other index alone. -/
theorem Memory.read_write_ne {m : Memory} {i j : Nat} (v : Byte) (h : m.wf) (hj : j ≠ i) :
    (m.write i v).read j = m.read j := by
  induction m with
  | nil => exact read_consByte_ne (by simp) hj
  | cons e rest ih =>
    obtain ⟨k, w⟩ := e
    obtain ⟨h1, -, h3⟩ := Memory.wf_cons.mp h
    simp only [Memory.write]
    split
    · next hlt =>
      refine read_consByte_ne (fun c hc => ?_) hj
      rcases List.mem_cons.mp hc with rfl | hc
      · exact hlt
      · exact Nat.lt_trans hlt (h1 c hc)
    · split
      · next heq =>
        subst heq
        rw [read_consByte_ne h1 hj]
        simp only [Memory.read, if_neg hj]
        split
        · next hlt => exact Memory.read_of_lt fun c hc => Nat.lt_trans hlt (h1 c hc)
        · rfl
      · simp only [Memory.read, ih h3]

/-- Loading an image keeps the canonical form (R49). -/
theorem Memory.writeAll_wf {m : Memory} (i : Nat) (data : List Byte) (h : m.wf) : (m.writeAll i data).wf := by
  induction data generalizing m i with
  | nil => exact h
  | cons v rest ih => exact ih (i + 1) (m.write_wf i v h)

/-- Loading an image lists no index outside it but those listed before. -/
theorem Memory.mem_writeAll {m : Memory} {i : Nat} {data : List Byte} {c : Host.Cell} (h : c ∈ m.writeAll i data) :
    (i ≤ c.1 ∧ c.1 < i + data.length) ∨ c ∈ m := by
  induction data generalizing m i with
  | nil => exact .inr h
  | cons v rest ih =>
    rcases ih h with h | h
    · simp only [List.length_cons]; left; omega
    · rcases Memory.mem_write h with h | h
      · simp only [List.length_cons]; left; omega
      · exact .inr h

/-- An image leaves the bytes before it alone. -/
theorem Memory.read_writeAll_lt {m : Memory} {i j : Nat} (data : List Byte) (h : m.wf) (hj : j < i) :
    (m.writeAll i data).read j = m.read j := by
  induction data generalizing m i with
  | nil => rfl
  | cons v rest ih =>
    rw [Memory.writeAll, ih (m.write_wf i v h) (by omega), m.read_write_ne v h (by omega)]

/-- A byte of an image reads back (R49). -/
theorem Memory.read_writeAll_inside {m : Memory} {i j : Nat} {v : Byte} (data : List Byte) (h : m.wf)
    (hj : data[j]? = some v) : (m.writeAll i data).read (i + j) = v := by
  induction data generalizing m i j with
  | nil => simp at hj
  | cons w rest ih =>
    cases j with
    | zero =>
      simp only [List.getElem?_cons_zero, Option.some.injEq] at hj
      subst hj
      rw [Memory.writeAll, Memory.read_writeAll_lt rest (m.write_wf i w h) (by omega)]
      simpa using m.read_write_same i w h
    | succ j =>
      have := ih (m := m.write i w) (i := i + 1) (m.write_wf i w h) (by simpa using hj)
      rw [Memory.writeAll, ← this]
      congr 1; omega

/-- An image leaves the bytes after it alone. -/
theorem Memory.read_writeAll_ge {m : Memory} {i j : Nat} (data : List Byte) (h : m.wf) (hj : i + data.length ≤ j) :
    (m.writeAll i data).read j = m.read j := by
  induction data generalizing m i with
  | nil => rfl
  | cons v rest ih =>
    simp only [List.length_cons] at hj
    rw [Memory.writeAll, ih (m.write_wf i v h) (by omega), m.read_write_ne v h (by omega)]

end Sys2Proof.Machine
end

