-- ==== Sys2Proof/Laws/Devices.lean ====
section
/-! SUPPORT. What the operations of one device can do: a read stores nothing, every operation keeps the record and the
form, and a read-only memory device keeps its contents. -/

namespace Sys2Proof.Machine

/-- The size of a device follows from its record. -/
theorem Device.size_of_record {c : Config} {d e : Device} (h : d.record = e.record) : d.size c = e.size c := by
  obtain ⟨dn, db, du⟩ := d
  obtain ⟨en, eb, eu⟩ := e
  simp only [Device.record, Prod.mk.injEq] at h
  obtain ⟨-, -, h⟩ := h
  cases du <;> cases eu <;> simp_all [DeviceUnit.kind, Device.size]

/-- The base of a device is part of its record. -/
theorem Device.base_of_record {d e : Device} (h : d.record = e.record) : d.base = e.base := by
  simp only [Device.record, Prod.mk.injEq] at h
  exact h.2.1

/-- Routing looks at the record alone (R35). -/
theorem Device.claims_of_record {c : Config} {d e : Device} (h : d.record = e.record) (addr : Word) :
    d.claims c addr = e.claims c addr := by
  simp only [Device.claims, Device.size_of_record h, Device.base_of_record h]

/-- The record is part of the shape. -/
theorem Device.record_of_shape {d e : Device} (h : d.shape = e.shape) : d.record = e.record := congrArg Prod.fst h

/-- The byte of memory at an offset is decided by the shape. -/
theorem Device.peek_of_shape {d e : Device} (h : d.shape = e.shape) (off : Nat) : d.peek off = e.peek off := by
  obtain ⟨dn, db, du⟩ := d
  obtain ⟨en, eb, eu⟩ := e
  cases du <;> cases eu <;> simp_all [Device.shape, Device.record, DeviceUnit.kind, Device.memoryBytes, Device.peek,
    MemoryDevice.get]

/-- The word of memory at an offset is decided by the shape. -/
theorem Device.peekWord_of_shape {d e : Device} (h : d.shape = e.shape) (off : Nat) :
    d.peekWord off = e.peekWord off := by
  obtain ⟨dn, db, du⟩ := d
  obtain ⟨en, eb, eu⟩ := e
  cases du <;> cases eu <;> simp_all [Device.shape, Device.record, DeviceUnit.kind, Device.memoryBytes,
    Device.peekWord, MemoryDevice.getWord]

/-- The contents of a ROM are decided by the shape. -/
theorem Device.romBytes_of_shape {d e : Device} (h : d.shape = e.shape) : d.romBytes = e.romBytes := by
  obtain ⟨dn, db, du⟩ := d
  obtain ⟨en, eb, eu⟩ := e
  cases du <;> cases eu <;> simp_all [Device.shape, Device.record, DeviceUnit.kind, Device.memoryBytes,
    Device.romBytes]

/-- What an operation that stores nothing leaves of a device. -/
structure Device.Quiet (c : Config) (d d' : Device) : Prop where
  shape : d'.shape = d.shape
  wf : d.unit.wf c → d'.unit.wf c

/-- What every operation of a step leaves of a device. -/
structure Device.Keeps (c : Config) (d d' : Device) : Prop where
  record : d'.record = d.record
  rom : d'.romBytes = d.romBytes
  wf : d.unit.wf c → d'.unit.wf c

theorem Device.Quiet.rfl {c : Config} {d : Device} : d.Quiet c d := ⟨Eq.refl _, id⟩

theorem Device.Quiet.trans {c : Config} {d e f : Device} (h : d.Quiet c e) (g : e.Quiet c f) : d.Quiet c f :=
  ⟨g.shape.trans h.shape, g.wf ∘ h.wf⟩

theorem Device.Quiet.keeps {c : Config} {d e : Device} (h : d.Quiet c e) : d.Keeps c e :=
  ⟨Device.record_of_shape h.shape, Device.romBytes_of_shape h.shape, h.wf⟩

theorem Device.Keeps.rfl {c : Config} {d : Device} : d.Keeps c d := ⟨Eq.refl _, Eq.refl _, id⟩

theorem Device.Keeps.trans {c : Config} {d e f : Device} (h : d.Keeps c e) (g : e.Keeps c f) : d.Keeps c f :=
  ⟨g.record.trans h.record, g.rom.trans h.rom, g.wf ∘ h.wf⟩

/-- The keyboard is the one device a read can change, and only its queue (R51, R63). -/
theorem Device.get_quiet {c : Config} {d d' : Device} {off : Nat} {v : Byte} (h : d.get c off = .ok (v, d')) :
    d.Quiet c d' := by
  obtain ⟨n, b, u⟩ := d
  cases u with
  | memory m =>
    simp only [Device.get] at h
    cases hm : m.get off <;> simp [hm, Except.map] at h
    obtain ⟨-, rfl⟩ := h
    exact .rfl
  | keyboard k =>
    simp only [Device.get] at h
    cases hk : k.get c off <;> simp [hk, Except.map] at h
    obtain ⟨-, rfl⟩ := h
    exact ⟨Eq.refl _, id⟩
  | terminal t =>
    simp only [Device.get, Terminal.get] at h
    split at h <;> simp [Except.map] at h
    obtain ⟨-, rfl⟩ := h
    exact ⟨Eq.refl _, id⟩

theorem Device.getPair_quiet {c : Config} {d d' : Device} {off : Nat} {w : Word}
    (h : d.getPair c off = .ok (w, d')) : d.Quiet c d' := by
  unfold Device.getPair at h
  split at h
  · cases h1 : d.get c off with
    | error e => simp [h1, Except.bind] at h
    | ok p =>
      obtain ⟨l, d1⟩ := p
      cases h2 : d1.get c (off + 1) with
      | error e => simp [h1, h2, Except.bind, Except.map] at h
      | ok q =>
        obtain ⟨hh, d2⟩ := q
        simp [h1, h2, Except.bind, Except.map] at h
        obtain ⟨-, rfl⟩ := h
        exact (Device.get_quiet h1).trans (Device.get_quiet h2)
  · simp at h

theorem Device.getWord_quiet {c : Config} {d d' : Device} {off : Nat} {w : Word}
    (h : d.getWord c off = .ok (w, d')) : d.Quiet c d' := by
  unfold Device.getWord at h
  split at h
  · next m _ =>
    cases hm : m.getWord off <;> simp [hm, Except.map] at h
    obtain ⟨-, rfl⟩ := h
    exact .rfl
  · exact Device.getPair_quiet h
  · exact Device.getPair_quiet h

/-- What a memory device's `set` answers: it is writable, the index is inside, and the byte is written (R46). -/
theorem MemoryDevice.set_ok {m m' : MemoryDevice} {idx : Nat} {v : Byte} (h : m.set idx v = .ok m') :
    m.readOnly = false ∧ idx < m.size ∧ m' = { m with bytes := m.bytes.write idx v } := by
  unfold MemoryDevice.set at h
  split at h
  · simp at h
  · split at h
    · simp at h
    · next h1 h2 =>
      simp only [Except.ok.injEq] at h
      exact ⟨by simpa using h1, by omega, h.symm⟩

/-- A blank grid has the grid's form (R55). -/
theorem blankGrid_wf (c : Config) :
    (blankGrid c).length = c.termRows ∧ ∀ cells ∈ blankGrid c, cells.length = c.termCols := by
  refine ⟨by simp [blankGrid], fun cells h => ?_⟩
  rw [blankGrid, List.mem_replicate] at h
  rw [h.2, blankRow, List.length_replicate]

/-- A new line keeps the terminal's form, from any column (R57). -/
theorem Terminal.newLine_wf {c : Config} {t : Terminal} (h1 : t.grid.length = c.termRows)
    (h2 : ∀ cells ∈ t.grid, cells.length = c.termCols) (h3 : t.row < c.termRows) (h4 : 1 ≤ c.termCols) :
    (DeviceUnit.terminal (t.newLine c)).wf c := by
  unfold Terminal.newLine
  split
  · refine ⟨by simp; omega, fun cells hc => ?_, by simp; omega, by simp; omega⟩
    simp only [List.mem_append, List.mem_singleton] at hc
    rcases hc with hc | rfl
    · exact h2 _ (List.mem_of_mem_drop hc)
    · simp [blankRow]
  · exact ⟨h1, h2, by simp; omega, by simp; omega⟩

/-- Printing a character keeps the terminal's form: the cursor stays inside the grid (R55, R57). -/
theorem Terminal.print_wf {c : Config} {t : Terminal} (v : Byte) (h : (DeviceUnit.terminal t).wf c) :
    (DeviceUnit.terminal (t.print c v)).wf c := by
  obtain ⟨h1, h2, h3, h4⟩ := h
  have h5 : ∀ cells ∈ (t.putCell (v &&& 0x7F#8)).grid, cells.length = c.termCols := by
    intro cells hc
    simp only [Terminal.putCell] at hc
    obtain ⟨i, hi, rfl⟩ := List.mem_iff_getElem.mp hc
    rw [List.getElem_modify]
    split
    · rw [List.length_set]; exact h2 _ (List.getElem_mem _)
    · exact h2 _ (List.getElem_mem _)
  have h6 : (t.putCell (v &&& 0x7F#8)).grid.length = c.termRows := by simp [Terminal.putCell, h1]
  unfold Terminal.print
  split
  · exact Terminal.newLine_wf h1 h2 h3 (by omega)
  · dsimp only
    split
    · exact Terminal.newLine_wf h6 h5 h3 (by omega)
    · next hne =>
      refine ⟨h6, h5, h3, ?_⟩
      simp only [Terminal.putCell] at hne ⊢
      omega

/-- A byte write keeps the record and the form of a device, and a ROM's contents. A control write of the terminal needs
the grid's dimensions to be at least 1 (R5). -/
theorem Device.set_keeps {c : Config} {d d' : Device} {off : Nat} {v : Byte} (h : d.set c off v = .ok d') :
    d.Keeps c d' := by
  obtain ⟨n, b, u⟩ := d
  cases u with
  | memory m =>
    simp only [Device.set] at h
    cases hm : m.set off v with
    | error e => simp [hm, Except.map] at h
    | ok m' =>
      simp [hm, Except.map] at h
      obtain ⟨h1, h2, rfl⟩ := MemoryDevice.set_ok hm
      subst h
      refine ⟨rfl, by simp [Device.romBytes, h1], fun hw => ⟨Memory.write_wf off v hw.1, fun cell hc => ?_⟩⟩
      rcases Memory.mem_write hc with h | hc
      · rw [h]; exact h2
      · exact hw.2 cell hc
  | keyboard k =>
    simp only [Device.set] at h
    cases hk : k.set c off v <;> simp [hk, Except.map] at h
    subst h
    exact ⟨rfl, rfl, id⟩
  | terminal t =>
    simp only [Device.set] at h
    cases ht : t.set c off v with
    | error e => simp [ht, Except.map] at h
    | ok t' =>
      simp [ht, Except.map] at h
      subst h
      refine ⟨rfl, rfl, fun hw => ?_⟩
      unfold Terminal.set at ht
      split at ht
      · simp only [Except.ok.injEq] at ht
        subst ht
        obtain ⟨-, -, h3, h4⟩ := hw
        exact ⟨(blankGrid_wf c).1, (blankGrid_wf c).2, by simp [Terminal.clear]; omega,
          by simp [Terminal.clear]; omega⟩
      · split at ht
        · simp only [Except.ok.injEq] at ht
          subst ht
          split
          · exact Terminal.print_wf v hw
          · exact hw
        · simp at ht

/-- A byte write answers no byte of memory but its own (R46, R63). -/
theorem Device.set_peek_ne {c : Config} {d d' : Device} {off j : Nat} {v : Byte} (h : d.set c off v = .ok d')
    (hw : d.unit.wf c) (hj : j ≠ off) : d'.peek j = d.peek j := by
  obtain ⟨n, b, u⟩ := d
  cases u with
  | memory m =>
    simp only [Device.set] at h
    cases hm : m.set off v with
    | error e => simp [hm, Except.map] at h
    | ok m' =>
      simp [hm, Except.map] at h
      obtain ⟨h1, h2, rfl⟩ := MemoryDevice.set_ok hm
      subst h
      simp [Device.peek, MemoryDevice.get, Memory.read_write_ne v hw.1 hj]
  | keyboard k =>
    simp only [Device.set] at h
    cases hk : k.set c off v <;> simp [hk, Except.map] at h
    subst h; rfl
  | terminal t =>
    simp only [Device.set] at h
    cases ht : t.set c off v <;> simp [ht, Except.map] at h
    subst h; rfl

/-- The byte written reads back (R46). -/
theorem Device.set_peek_same {c : Config} {d d' : Device} {off : Nat} {v v0 : Byte} (h : d.set c off v = .ok d')
    (hw : d.unit.wf c) (hp : d.peek off = some v0) : d'.peek off = some v := by
  obtain ⟨n, b, u⟩ := d
  cases u with
  | memory m =>
    simp only [Device.set] at h
    cases hm : m.set off v with
    | error e => simp [hm, Except.map] at h
    | ok m' =>
      simp [hm, Except.map] at h
      obtain ⟨h1, h2, rfl⟩ := MemoryDevice.set_ok hm
      subst h
      simp [Device.peek, MemoryDevice.get, Memory.read_write_same off v hw.1, Nat.not_le.mpr h2, Except.toOption]
  | keyboard k => simp [Device.peek] at hp
  | terminal t => simp [Device.peek] at hp

/-- A byte of memory that can be peeked can be read, with no side effect (R45). -/
theorem Device.get_of_peek {c : Config} {d : Device} {off : Nat} {v : Byte} (h : d.peek off = some v) :
    d.get c off = .ok (v, d) := by
  obtain ⟨n, b, u⟩ := d
  cases u with
  | memory m =>
    simp only [Device.peek] at h
    cases hm : m.get off <;> simp [hm, Except.toOption] at h
    subst h
    simp [Device.get, hm, Except.map]
  | keyboard k => simp [Device.peek] at h
  | terminal t => simp [Device.peek] at h

/-- A word of memory that can be peeked can be read, with no side effect (R47). -/
theorem Device.getWord_of_peek {c : Config} {d : Device} {off : Nat} {w : Word} (h : d.peekWord off = some w) :
    d.getWord c off = .ok (w, d) := by
  obtain ⟨n, b, u⟩ := d
  cases u with
  | memory m =>
    simp only [Device.peekWord] at h
    cases hm : m.getWord off <;> simp [hm, Except.toOption] at h
    subst h
    simp [Device.getWord, hm, Except.map]
  | keyboard k => simp [Device.peekWord] at h
  | terminal t => simp [Device.peekWord] at h

/-- A key append stores nothing in memory (R53). -/
theorem Device.enqueue_quiet (c : Config) (d : Device) (key : Byte) : d.Quiet c (d.enqueue key) := by
  obtain ⟨n, b, u⟩ := d
  cases u with
  | memory m => exact .rfl
  | keyboard k => exact ⟨Eq.refl _, id⟩
  | terminal t => exact .rfl

end Sys2Proof.Machine
end

