-- ==== Sys2Proof/Laws/State.lean ====
section
/-! SUPPORT. One lemma per field and named update of the state: what it leaves and what it sets. -/

namespace Sys2Proof.Machine

variable (s : State)

@[simp] theorem State.setFlag_pc (f : Flag) (b : Bool) : (s.setFlag f b).pc = s.pc :=
  by unfold State.setFlag; split <;> rfl
@[simp] theorem State.setFlag_sp (f : Flag) (b : Bool) : (s.setFlag f b).sp = s.sp :=
  by unfold State.setFlag; split <;> rfl
@[simp] theorem State.setFlag_a (f : Flag) (b : Bool) : (s.setFlag f b).a = s.a :=
  by unfold State.setFlag; split <;> rfl
@[simp] theorem State.setFlag_x (f : Flag) (b : Bool) : (s.setFlag f b).x = s.x :=
  by unfold State.setFlag; split <;> rfl
@[simp] theorem State.setFlag_y (f : Flag) (b : Bool) : (s.setFlag f b).y = s.y :=
  by unfold State.setFlag; split <;> rfl
@[simp] theorem State.setFlag_lea (f : Flag) (b : Bool) : (s.setFlag f b).lea = s.lea :=
  by unfold State.setFlag; split <;> rfl
@[simp] theorem State.setFlag_halted (f : Flag) (b : Bool) : (s.setFlag f b).halted = s.halted :=
  by unfold State.setFlag; split <;> rfl
@[simp] theorem State.setFlag_cfg (f : Flag) (b : Bool) : (s.setFlag f b).cfg = s.cfg :=
  by unfold State.setFlag; split <;> rfl
@[simp] theorem State.setFlag_devices (f : Flag) (b : Bool) : (s.setFlag f b).devices = s.devices :=
  by unfold State.setFlag; split <;> rfl
@[simp] theorem State.setFlag_arrivals (f : Flag) (b : Bool) : (s.setFlag f b).arrivals = s.arrivals :=
  by unfold State.setFlag; split <;> rfl
@[simp] theorem State.setFlag_phase (f : Flag) (b : Bool) : (s.setFlag f b).phase = s.phase :=
  by unfold State.setFlag; split <;> rfl

@[simp] theorem State.setStatus_pc (v : Byte) : (s.setStatus v).pc = s.pc :=
  rfl
@[simp] theorem State.setStatus_sp (v : Byte) : (s.setStatus v).sp = s.sp :=
  rfl
@[simp] theorem State.setStatus_a (v : Byte) : (s.setStatus v).a = s.a :=
  rfl
@[simp] theorem State.setStatus_x (v : Byte) : (s.setStatus v).x = s.x :=
  rfl
@[simp] theorem State.setStatus_y (v : Byte) : (s.setStatus v).y = s.y :=
  rfl
@[simp] theorem State.setStatus_p (v : Byte) : (s.setStatus v).p = v ||| 0x20#8 :=
  rfl
@[simp] theorem State.setStatus_lea (v : Byte) : (s.setStatus v).lea = s.lea :=
  rfl
@[simp] theorem State.setStatus_halted (v : Byte) : (s.setStatus v).halted = s.halted :=
  rfl
@[simp] theorem State.setStatus_cfg (v : Byte) : (s.setStatus v).cfg = s.cfg :=
  rfl
@[simp] theorem State.setStatus_devices (v : Byte) : (s.setStatus v).devices = s.devices :=
  rfl
@[simp] theorem State.setStatus_arrivals (v : Byte) : (s.setStatus v).arrivals = s.arrivals :=
  rfl
@[simp] theorem State.setStatus_phase (v : Byte) : (s.setStatus v).phase = s.phase :=
  rfl

@[simp] theorem State.setZN_pc (v : Byte) : (s.setZN v).pc = s.pc :=
  by simp [State.setZN]
@[simp] theorem State.setZN_sp (v : Byte) : (s.setZN v).sp = s.sp :=
  by simp [State.setZN]
@[simp] theorem State.setZN_a (v : Byte) : (s.setZN v).a = s.a :=
  by simp [State.setZN]
@[simp] theorem State.setZN_x (v : Byte) : (s.setZN v).x = s.x :=
  by simp [State.setZN]
@[simp] theorem State.setZN_y (v : Byte) : (s.setZN v).y = s.y :=
  by simp [State.setZN]
@[simp] theorem State.setZN_lea (v : Byte) : (s.setZN v).lea = s.lea :=
  by simp [State.setZN]
@[simp] theorem State.setZN_halted (v : Byte) : (s.setZN v).halted = s.halted :=
  by simp [State.setZN]
@[simp] theorem State.setZN_cfg (v : Byte) : (s.setZN v).cfg = s.cfg :=
  by simp [State.setZN]
@[simp] theorem State.setZN_devices (v : Byte) : (s.setZN v).devices = s.devices :=
  by simp [State.setZN]
@[simp] theorem State.setZN_arrivals (v : Byte) : (s.setZN v).arrivals = s.arrivals :=
  by simp [State.setZN]
@[simp] theorem State.setZN_phase (v : Byte) : (s.setZN v).phase = s.phase :=
  by simp [State.setZN]

@[simp] theorem State.addWithCarry_pc (m : Byte) : (s.addWithCarry m).pc = s.pc :=
  by simp [State.addWithCarry]
@[simp] theorem State.addWithCarry_sp (m : Byte) : (s.addWithCarry m).sp = s.sp :=
  by simp [State.addWithCarry]
@[simp] theorem State.addWithCarry_a (m : Byte) : (s.addWithCarry m).a = adcResult s.a m (s.flag .C) :=
  rfl
@[simp] theorem State.addWithCarry_x (m : Byte) : (s.addWithCarry m).x = s.x :=
  by simp [State.addWithCarry]
@[simp] theorem State.addWithCarry_y (m : Byte) : (s.addWithCarry m).y = s.y :=
  by simp [State.addWithCarry]
@[simp] theorem State.addWithCarry_lea (m : Byte) : (s.addWithCarry m).lea = s.lea :=
  by simp [State.addWithCarry]
@[simp] theorem State.addWithCarry_halted (m : Byte) : (s.addWithCarry m).halted = s.halted :=
  by simp [State.addWithCarry]
@[simp] theorem State.addWithCarry_cfg (m : Byte) : (s.addWithCarry m).cfg = s.cfg :=
  by simp [State.addWithCarry]
@[simp] theorem State.addWithCarry_devices (m : Byte) : (s.addWithCarry m).devices = s.devices :=
  by simp [State.addWithCarry]
@[simp] theorem State.addWithCarry_arrivals (m : Byte) : (s.addWithCarry m).arrivals = s.arrivals :=
  by simp [State.addWithCarry]
@[simp] theorem State.addWithCarry_phase (m : Byte) : (s.addWithCarry m).phase = s.phase :=
  by simp [State.addWithCarry]

@[simp] theorem State.compare_pc (r m : Byte) : (s.compare r m).pc = s.pc :=
  by simp [State.compare]
@[simp] theorem State.compare_sp (r m : Byte) : (s.compare r m).sp = s.sp :=
  by simp [State.compare]
@[simp] theorem State.compare_a (r m : Byte) : (s.compare r m).a = s.a :=
  by simp [State.compare]
@[simp] theorem State.compare_x (r m : Byte) : (s.compare r m).x = s.x :=
  by simp [State.compare]
@[simp] theorem State.compare_y (r m : Byte) : (s.compare r m).y = s.y :=
  by simp [State.compare]
@[simp] theorem State.compare_lea (r m : Byte) : (s.compare r m).lea = s.lea :=
  by simp [State.compare]
@[simp] theorem State.compare_halted (r m : Byte) : (s.compare r m).halted = s.halted :=
  by simp [State.compare]
@[simp] theorem State.compare_cfg (r m : Byte) : (s.compare r m).cfg = s.cfg :=
  by simp [State.compare]
@[simp] theorem State.compare_devices (r m : Byte) : (s.compare r m).devices = s.devices :=
  by simp [State.compare]
@[simp] theorem State.compare_arrivals (r m : Byte) : (s.compare r m).arrivals = s.arrivals :=
  by simp [State.compare]
@[simp] theorem State.compare_phase (r m : Byte) : (s.compare r m).phase = s.phase :=
  by simp [State.compare]

@[simp] theorem State.setShift_pc (b : Bool) (r : Byte) : (s.setShift b r).pc = s.pc :=
  by simp [State.setShift]
@[simp] theorem State.setShift_sp (b : Bool) (r : Byte) : (s.setShift b r).sp = s.sp :=
  by simp [State.setShift]
@[simp] theorem State.setShift_a (b : Bool) (r : Byte) : (s.setShift b r).a = s.a :=
  by simp [State.setShift]
@[simp] theorem State.setShift_x (b : Bool) (r : Byte) : (s.setShift b r).x = s.x :=
  by simp [State.setShift]
@[simp] theorem State.setShift_y (b : Bool) (r : Byte) : (s.setShift b r).y = s.y :=
  by simp [State.setShift]
@[simp] theorem State.setShift_lea (b : Bool) (r : Byte) : (s.setShift b r).lea = s.lea :=
  by simp [State.setShift]
@[simp] theorem State.setShift_halted (b : Bool) (r : Byte) : (s.setShift b r).halted = s.halted :=
  by simp [State.setShift]
@[simp] theorem State.setShift_cfg (b : Bool) (r : Byte) : (s.setShift b r).cfg = s.cfg :=
  by simp [State.setShift]
@[simp] theorem State.setShift_devices (b : Bool) (r : Byte) : (s.setShift b r).devices = s.devices :=
  by simp [State.setShift]
@[simp] theorem State.setShift_arrivals (b : Bool) (r : Byte) : (s.setShift b r).arrivals = s.arrivals :=
  by simp [State.setShift]
@[simp] theorem State.setShift_phase (b : Bool) (r : Byte) : (s.setShift b r).phase = s.phase :=
  by simp [State.setShift]

@[simp] theorem State.bitTest_pc (m : Byte) : (s.bitTest m).pc = s.pc :=
  by simp [State.bitTest]
@[simp] theorem State.bitTest_sp (m : Byte) : (s.bitTest m).sp = s.sp :=
  by simp [State.bitTest]
@[simp] theorem State.bitTest_a (m : Byte) : (s.bitTest m).a = s.a :=
  by simp [State.bitTest]
@[simp] theorem State.bitTest_x (m : Byte) : (s.bitTest m).x = s.x :=
  by simp [State.bitTest]
@[simp] theorem State.bitTest_y (m : Byte) : (s.bitTest m).y = s.y :=
  by simp [State.bitTest]
@[simp] theorem State.bitTest_lea (m : Byte) : (s.bitTest m).lea = s.lea :=
  by simp [State.bitTest]
@[simp] theorem State.bitTest_halted (m : Byte) : (s.bitTest m).halted = s.halted :=
  by simp [State.bitTest]
@[simp] theorem State.bitTest_cfg (m : Byte) : (s.bitTest m).cfg = s.cfg :=
  by simp [State.bitTest]
@[simp] theorem State.bitTest_devices (m : Byte) : (s.bitTest m).devices = s.devices :=
  by simp [State.bitTest]
@[simp] theorem State.bitTest_arrivals (m : Byte) : (s.bitTest m).arrivals = s.arrivals :=
  by simp [State.bitTest]
@[simp] theorem State.bitTest_phase (m : Byte) : (s.bitTest m).phase = s.phase :=
  by simp [State.bitTest]

@[simp] theorem State.shiftA_pc (b : Bool) (r : Byte) : (s.shiftA b r).pc = s.pc :=
  by simp [State.shiftA]
@[simp] theorem State.shiftA_sp (b : Bool) (r : Byte) : (s.shiftA b r).sp = s.sp :=
  by simp [State.shiftA]
@[simp] theorem State.shiftA_a (b : Bool) (r : Byte) : (s.shiftA b r).a = r :=
  rfl
@[simp] theorem State.shiftA_x (b : Bool) (r : Byte) : (s.shiftA b r).x = s.x :=
  by simp [State.shiftA]
@[simp] theorem State.shiftA_y (b : Bool) (r : Byte) : (s.shiftA b r).y = s.y :=
  by simp [State.shiftA]
@[simp] theorem State.shiftA_lea (b : Bool) (r : Byte) : (s.shiftA b r).lea = s.lea :=
  by simp [State.shiftA]
@[simp] theorem State.shiftA_halted (b : Bool) (r : Byte) : (s.shiftA b r).halted = s.halted :=
  by simp [State.shiftA]
@[simp] theorem State.shiftA_cfg (b : Bool) (r : Byte) : (s.shiftA b r).cfg = s.cfg :=
  by simp [State.shiftA]
@[simp] theorem State.shiftA_devices (b : Bool) (r : Byte) : (s.shiftA b r).devices = s.devices :=
  by simp [State.shiftA]
@[simp] theorem State.shiftA_arrivals (b : Bool) (r : Byte) : (s.shiftA b r).arrivals = s.arrivals :=
  by simp [State.shiftA]
@[simp] theorem State.shiftA_phase (b : Bool) (r : Byte) : (s.shiftA b r).phase = s.phase :=
  by simp [State.shiftA]

@[simp] theorem State.loadA_pc (r : Byte) : (s.loadA r).pc = s.pc :=
  by simp [State.loadA]
@[simp] theorem State.loadA_sp (r : Byte) : (s.loadA r).sp = s.sp :=
  by simp [State.loadA]
@[simp] theorem State.loadA_a (r : Byte) : (s.loadA r).a = r :=
  rfl
@[simp] theorem State.loadA_x (r : Byte) : (s.loadA r).x = s.x :=
  by simp [State.loadA]
@[simp] theorem State.loadA_y (r : Byte) : (s.loadA r).y = s.y :=
  by simp [State.loadA]
@[simp] theorem State.loadA_lea (r : Byte) : (s.loadA r).lea = s.lea :=
  by simp [State.loadA]
@[simp] theorem State.loadA_halted (r : Byte) : (s.loadA r).halted = s.halted :=
  by simp [State.loadA]
@[simp] theorem State.loadA_cfg (r : Byte) : (s.loadA r).cfg = s.cfg :=
  by simp [State.loadA]
@[simp] theorem State.loadA_devices (r : Byte) : (s.loadA r).devices = s.devices :=
  by simp [State.loadA]
@[simp] theorem State.loadA_arrivals (r : Byte) : (s.loadA r).arrivals = s.arrivals :=
  by simp [State.loadA]
@[simp] theorem State.loadA_phase (r : Byte) : (s.loadA r).phase = s.phase :=
  by simp [State.loadA]

@[simp] theorem State.loadX_pc (r : Byte) : (s.loadX r).pc = s.pc :=
  by simp [State.loadX]
@[simp] theorem State.loadX_sp (r : Byte) : (s.loadX r).sp = s.sp :=
  by simp [State.loadX]
@[simp] theorem State.loadX_a (r : Byte) : (s.loadX r).a = s.a :=
  by simp [State.loadX]
@[simp] theorem State.loadX_x (r : Byte) : (s.loadX r).x = r :=
  rfl
@[simp] theorem State.loadX_y (r : Byte) : (s.loadX r).y = s.y :=
  by simp [State.loadX]
@[simp] theorem State.loadX_lea (r : Byte) : (s.loadX r).lea = s.lea :=
  by simp [State.loadX]
@[simp] theorem State.loadX_halted (r : Byte) : (s.loadX r).halted = s.halted :=
  by simp [State.loadX]
@[simp] theorem State.loadX_cfg (r : Byte) : (s.loadX r).cfg = s.cfg :=
  by simp [State.loadX]
@[simp] theorem State.loadX_devices (r : Byte) : (s.loadX r).devices = s.devices :=
  by simp [State.loadX]
@[simp] theorem State.loadX_arrivals (r : Byte) : (s.loadX r).arrivals = s.arrivals :=
  by simp [State.loadX]
@[simp] theorem State.loadX_phase (r : Byte) : (s.loadX r).phase = s.phase :=
  by simp [State.loadX]

@[simp] theorem State.loadY_pc (r : Byte) : (s.loadY r).pc = s.pc :=
  by simp [State.loadY]
@[simp] theorem State.loadY_sp (r : Byte) : (s.loadY r).sp = s.sp :=
  by simp [State.loadY]
@[simp] theorem State.loadY_a (r : Byte) : (s.loadY r).a = s.a :=
  by simp [State.loadY]
@[simp] theorem State.loadY_x (r : Byte) : (s.loadY r).x = s.x :=
  by simp [State.loadY]
@[simp] theorem State.loadY_y (r : Byte) : (s.loadY r).y = r :=
  rfl
@[simp] theorem State.loadY_lea (r : Byte) : (s.loadY r).lea = s.lea :=
  by simp [State.loadY]
@[simp] theorem State.loadY_halted (r : Byte) : (s.loadY r).halted = s.halted :=
  by simp [State.loadY]
@[simp] theorem State.loadY_cfg (r : Byte) : (s.loadY r).cfg = s.cfg :=
  by simp [State.loadY]
@[simp] theorem State.loadY_devices (r : Byte) : (s.loadY r).devices = s.devices :=
  by simp [State.loadY]
@[simp] theorem State.loadY_arrivals (r : Byte) : (s.loadY r).arrivals = s.arrivals :=
  by simp [State.loadY]
@[simp] theorem State.loadY_phase (r : Byte) : (s.loadY r).phase = s.phase :=
  by simp [State.loadY]

@[simp] theorem State.putRouted_pc (w : Word) (d : Device) : (s.putRouted w d).pc = s.pc :=
  rfl
@[simp] theorem State.putRouted_sp (w : Word) (d : Device) : (s.putRouted w d).sp = s.sp :=
  rfl
@[simp] theorem State.putRouted_a (w : Word) (d : Device) : (s.putRouted w d).a = s.a :=
  rfl
@[simp] theorem State.putRouted_x (w : Word) (d : Device) : (s.putRouted w d).x = s.x :=
  rfl
@[simp] theorem State.putRouted_y (w : Word) (d : Device) : (s.putRouted w d).y = s.y :=
  rfl
@[simp] theorem State.putRouted_p (w : Word) (d : Device) : (s.putRouted w d).p = s.p :=
  rfl
@[simp] theorem State.putRouted_lea (w : Word) (d : Device) : (s.putRouted w d).lea = s.lea :=
  rfl
@[simp] theorem State.putRouted_halted (w : Word) (d : Device) : (s.putRouted w d).halted = s.halted :=
  rfl
@[simp] theorem State.putRouted_cfg (w : Word) (d : Device) : (s.putRouted w d).cfg = s.cfg :=
  rfl
@[simp] theorem State.putRouted_devices (w : Word) (d : Device) : (s.putRouted w d).devices = replaceRouted s.cfg w d s.devices :=
  rfl
@[simp] theorem State.putRouted_arrivals (w : Word) (d : Device) : (s.putRouted w d).arrivals = s.arrivals :=
  rfl
@[simp] theorem State.putRouted_phase (w : Word) (d : Device) : (s.putRouted w d).phase = s.phase :=
  rfl

@[simp] theorem State.kbdEnqueue_pc (k : KeyPress) : (s.kbdEnqueue k).pc = s.pc :=
  rfl
@[simp] theorem State.kbdEnqueue_sp (k : KeyPress) : (s.kbdEnqueue k).sp = s.sp :=
  rfl
@[simp] theorem State.kbdEnqueue_a (k : KeyPress) : (s.kbdEnqueue k).a = s.a :=
  rfl
@[simp] theorem State.kbdEnqueue_x (k : KeyPress) : (s.kbdEnqueue k).x = s.x :=
  rfl
@[simp] theorem State.kbdEnqueue_y (k : KeyPress) : (s.kbdEnqueue k).y = s.y :=
  rfl
@[simp] theorem State.kbdEnqueue_p (k : KeyPress) : (s.kbdEnqueue k).p = s.p :=
  rfl
@[simp] theorem State.kbdEnqueue_lea (k : KeyPress) : (s.kbdEnqueue k).lea = s.lea :=
  rfl
@[simp] theorem State.kbdEnqueue_halted (k : KeyPress) : (s.kbdEnqueue k).halted = s.halted :=
  rfl
@[simp] theorem State.kbdEnqueue_cfg (k : KeyPress) : (s.kbdEnqueue k).cfg = s.cfg :=
  rfl
@[simp] theorem State.kbdEnqueue_devices (k : KeyPress) : (s.kbdEnqueue k).devices = s.devices.modify k.device fun d => d.enqueue k.key :=
  rfl
@[simp] theorem State.kbdEnqueue_arrivals (k : KeyPress) : (s.kbdEnqueue k).arrivals = s.arrivals :=
  rfl
@[simp] theorem State.kbdEnqueue_phase (k : KeyPress) : (s.kbdEnqueue k).phase = s.phase :=
  rfl

@[simp] theorem State.beginStep_pc : s.beginStep.pc = s.pc :=
  rfl
@[simp] theorem State.beginStep_sp : s.beginStep.sp = s.sp :=
  rfl
@[simp] theorem State.beginStep_a : s.beginStep.a = s.a :=
  rfl
@[simp] theorem State.beginStep_x : s.beginStep.x = s.x :=
  rfl
@[simp] theorem State.beginStep_y : s.beginStep.y = s.y :=
  rfl
@[simp] theorem State.beginStep_p : s.beginStep.p = s.p :=
  rfl
@[simp] theorem State.beginStep_lea : s.beginStep.lea = s.lea :=
  rfl
@[simp] theorem State.beginStep_halted : s.beginStep.halted = false :=
  rfl
@[simp] theorem State.beginStep_cfg : s.beginStep.cfg = s.cfg :=
  rfl
@[simp] theorem State.beginStep_devices : s.beginStep.devices = s.devices :=
  rfl
@[simp] theorem State.beginStep_arrivals : s.beginStep.arrivals = s.arrivals :=
  rfl
@[simp] theorem State.beginStep_phase : s.beginStep.phase = .running :=
  rfl

/-! The host's turn touches the devices and the schedule alone. -/

/-- A property of the state that no key append changes is not changed by a list of them. -/
theorem foldl_kbdEnqueue_keeps {α : Type} (f : State → α) (h : ∀ t k, f (State.kbdEnqueue t k) = f t)
    (ks : List KeyPress) : ∀ t, f (ks.foldl State.kbdEnqueue t) = f t := by
  induction ks with
  | nil => intro t; rfl
  | cons k ks ih => intro t; simp [ih, h]

/-- A property that neither the schedule nor a key append changes is not changed by the host's turn. -/
theorem hostTurn_keeps {α : Type} (f : State → α) (h : ∀ t k, f (State.kbdEnqueue t k) = f t)
    (hr : ∀ t r, f { t with arrivals := r } = f t) : f s.hostTurn = f s := by
  unfold State.hostTurn
  split
  · rfl
  · rw [foldl_kbdEnqueue_keeps f h, hr]

@[simp] theorem State.hostTurn_pc : s.hostTurn.pc = s.pc :=
  hostTurn_keeps s State.pc (fun _ _ => rfl) (fun _ _ => rfl)
@[simp] theorem State.hostTurn_sp : s.hostTurn.sp = s.sp :=
  hostTurn_keeps s State.sp (fun _ _ => rfl) (fun _ _ => rfl)
@[simp] theorem State.hostTurn_a : s.hostTurn.a = s.a :=
  hostTurn_keeps s State.a (fun _ _ => rfl) (fun _ _ => rfl)
@[simp] theorem State.hostTurn_x : s.hostTurn.x = s.x :=
  hostTurn_keeps s State.x (fun _ _ => rfl) (fun _ _ => rfl)
@[simp] theorem State.hostTurn_y : s.hostTurn.y = s.y :=
  hostTurn_keeps s State.y (fun _ _ => rfl) (fun _ _ => rfl)
@[simp] theorem State.hostTurn_p : s.hostTurn.p = s.p :=
  hostTurn_keeps s State.p (fun _ _ => rfl) (fun _ _ => rfl)
@[simp] theorem State.hostTurn_lea : s.hostTurn.lea = s.lea :=
  hostTurn_keeps s State.lea (fun _ _ => rfl) (fun _ _ => rfl)
@[simp] theorem State.hostTurn_halted : s.hostTurn.halted = s.halted :=
  hostTurn_keeps s State.halted (fun _ _ => rfl) (fun _ _ => rfl)
@[simp] theorem State.hostTurn_cfg : s.hostTurn.cfg = s.cfg :=
  hostTurn_keeps s State.cfg (fun _ _ => rfl) (fun _ _ => rfl)
@[simp] theorem State.hostTurn_phase : s.hostTurn.phase = s.phase :=
  hostTurn_keeps s State.phase (fun _ _ => rfl) (fun _ _ => rfl)

/-- With nothing scheduled the host does nothing. -/
theorem State.hostTurn_of_nil (h : s.arrivals = []) : s.hostTurn = s := by
  unfold State.hostTurn; rw [h]

end Sys2Proof.Machine
end

