-- ==== Sys2Proof/Laws/Bus.lean ====
section
/-! SUPPORT. What the bus operations and the CPU's memory and stack primitives can do, each said once: a read stores
nothing, a write stores one byte, and neither touches a register, the configuration or the device map. -/

namespace Sys2Proof.Machine

/-! ## Replacing the routed device -/

/-- Replacing the routed device keeps whatever is the same of the old device and the new. -/
theorem map_replaceRouted {α : Type} (f : Device → α) {c : Config} {addr : Word} {d d' : Device}
    {ds : List Device} (h : ds.find? (fun d => d.claims c addr) = some d) (hf : f d' = f d) :
    (replaceRouted c addr d' ds).map f = ds.map f := by
  induction ds with
  | nil => simp at h
  | cons e es ih =>
    by_cases hc : e.claims c addr
    · simp only [List.find?, hc, Option.some.injEq] at h
      subst h
      simp [replaceRouted, hc, hf]
    · simp only [List.find?, hc] at h
      simp [replaceRouted, hc, ih h]

/-- Every device of the new registry is the new device or one of the old. -/
theorem mem_replaceRouted {c : Config} {addr : Word} {d' e : Device} {ds : List Device}
    (h : e ∈ replaceRouted c addr d' ds) : e = d' ∨ e ∈ ds := by
  induction ds with
  | nil => simp [replaceRouted] at h
  | cons a as ih =>
    unfold replaceRouted at h
    split at h
    · rcases List.mem_cons.mp h with rfl | h
      · exact .inl rfl
      · exact .inr (by simp [h])
    · rcases List.mem_cons.mp h with rfl | h
      · exact .inr (by simp)
      · rcases ih h with h | h
        · exact .inl h
        · exact .inr (by simp [h])

/-- Replacing the routed device by itself changes nothing. -/
theorem replaceRouted_self {c : Config} {addr : Word} {d : Device} {ds : List Device}
    (h : ds.find? (fun d => d.claims c addr) = some d) : replaceRouted c addr d ds = ds := by
  induction ds with
  | nil => rfl
  | cons e es ih =>
    by_cases hc : e.claims c addr
    · simp only [List.find?, hc, Option.some.injEq] at h
      subst h
      simp [replaceRouted, hc]
    · simp only [List.find?, hc] at h
      simp [replaceRouted, hc, ih h]

/-- What is read of the routed device is unchanged by a replacement, if the two devices answer it alike. -/
theorem find_replaceRouted {α : Type} (f : Device → Option α) {c : Config} {addr b : Word} {d d' : Device}
    {ds : List Device} (h : ds.find? (fun d => d.claims c addr) = some d) (hr : d'.record = d.record)
    (hf : f d' = f d) :
    ((replaceRouted c addr d' ds).find? (fun d => d.claims c b)).bind f =
      (ds.find? (fun d => d.claims c b)).bind f := by
  induction ds with
  | nil => rfl
  | cons e es ih =>
    by_cases hc : e.claims c addr
    · simp only [List.find?, hc, Option.some.injEq] at h
      subst h
      have hb := Device.claims_of_record (c := c) hr b
      by_cases heb : e.claims c b <;> simp [replaceRouted, hc, hb, heb, hf]
    · simp only [List.find?, hc] at h
      by_cases heb : e.claims c b
      · simp [replaceRouted, hc, heb]
      · simpa [replaceRouted, hc, heb] using ih h

/-- After a replacement the address is owned by the new device. -/
theorem find_replaceRouted_same {c : Config} {addr : Word} {d d' : Device} {ds : List Device}
    (h : ds.find? (fun d => d.claims c addr) = some d) (hr : d'.record = d.record) :
    (replaceRouted c addr d' ds).find? (fun d => d.claims c addr) = some d' := by
  induction ds with
  | nil => simp at h
  | cons e es ih =>
    by_cases hc : e.claims c addr
    · simp only [List.find?, hc, Option.some.injEq] at h
      subst h
      simp [replaceRouted, hc, Device.claims_of_record hr addr]
    · simp only [List.find?, hc] at h
      simp [replaceRouted, hc, ih h]

/-- Registries of the same shapes answer alike whatever the shape decides. -/
theorem find_of_shapes {α : Type} (f : Device → Option α) (hf : ∀ d e : Device, d.shape = e.shape → f d = f e)
    {c : Config} {b : Word} : ∀ {ds es : List Device}, ds.map Device.shape = es.map Device.shape →
      (ds.find? (fun d => d.claims c b)).bind f = (es.find? (fun d => d.claims c b)).bind f
  | [], [], _ => rfl
  | [], _ :: _, h => by simp at h
  | _ :: _, [], h => by simp at h
  | d :: ds, e :: es, h => by
    simp only [List.map_cons, List.cons.injEq] at h
    have hc := Device.claims_of_record (c := c) (Device.record_of_shape h.1) b
    by_cases he : e.claims c b
    · simp [hc, he, hf d e h.1]
    · simpa [hc, he] using find_of_shapes f hf h.2

/-- The shapes decide the records. -/
theorem records_of_shapes : ∀ {ds es : List Device}, ds.map Device.shape = es.map Device.shape →
    ds.map Device.record = es.map Device.record := by
  intro ds es h
  have := congrArg (List.map Prod.fst) h
  simpa [Function.comp_def, Device.shape] using this

/-- The shapes decide the contents of every ROM. -/
theorem roms_of_shapes : ∀ {ds es : List Device}, ds.map Device.shape = es.map Device.shape →
    ds.map Device.romBytes = es.map Device.romBytes
  | [], [], _ => rfl
  | [], _ :: _, h => by simp at h
  | _ :: _, [], h => by simp at h
  | d :: ds, e :: es, h => by
    simp only [List.map_cons, List.cons.injEq] at h ⊢
    exact ⟨Device.romBytes_of_shape h.1, roms_of_shapes h.2⟩

/-! ## What bus activity leaves of the state -/

/-- What bus activity that stores nothing leaves of the state: everything but the devices and the schedule, and of the
devices the records and every byte of memory. -/
structure State.Quiet (s t : State) : Prop where
  cpu : t = { s with devices := t.devices, arrivals := t.arrivals }
  shapes : t.devices.map Device.shape = s.devices.map Device.shape
  wf : (∀ d ∈ s.devices, d.unit.wf s.cfg) → ∀ d ∈ t.devices, d.unit.wf t.cfg

/-- What any bus activity leaves of the state: everything but the devices and the schedule, and of the devices the
records, the contents of every ROM and the form. -/
structure State.Keeps (s t : State) : Prop where
  cpu : t = { s with devices := t.devices, arrivals := t.arrivals }
  records : t.devices.map Device.record = s.devices.map Device.record
  roms : t.devices.map Device.romBytes = s.devices.map Device.romBytes
  wf : (∀ d ∈ s.devices, d.unit.wf s.cfg) → ∀ d ∈ t.devices, d.unit.wf t.cfg

theorem State.Quiet.rfl {s : State} : s.Quiet s := ⟨Eq.refl _, Eq.refl _, id⟩

theorem State.Quiet.trans {s t u : State} (h : s.Quiet t) (g : t.Quiet u) : s.Quiet u := by
  refine ⟨?_, g.shapes.trans h.shapes, g.wf ∘ h.wf⟩
  rw [g.cpu, h.cpu]

theorem State.Keeps.rfl {s : State} : s.Keeps s := ⟨Eq.refl _, Eq.refl _, Eq.refl _, id⟩

theorem State.Keeps.trans {s t u : State} (h : s.Keeps t) (g : t.Keeps u) : s.Keeps u := by
  refine ⟨?_, g.records.trans h.records, g.roms.trans h.roms, g.wf ∘ h.wf⟩
  rw [g.cpu, h.cpu]

theorem State.Quiet.keeps {s t : State} (h : s.Quiet t) : s.Keeps t :=
  ⟨h.cpu, records_of_shapes h.shapes, roms_of_shapes h.shapes, h.wf⟩

/-! The fields bus activity leaves, one lemma each. -/

theorem State.Keeps.pc {s t : State} (h : s.Keeps t) : t.pc = s.pc := by rw [h.cpu]
theorem State.Keeps.sp {s t : State} (h : s.Keeps t) : t.sp = s.sp := by rw [h.cpu]
theorem State.Keeps.a {s t : State} (h : s.Keeps t) : t.a = s.a := by rw [h.cpu]
theorem State.Keeps.x {s t : State} (h : s.Keeps t) : t.x = s.x := by rw [h.cpu]
theorem State.Keeps.y {s t : State} (h : s.Keeps t) : t.y = s.y := by rw [h.cpu]
theorem State.Keeps.p {s t : State} (h : s.Keeps t) : t.p = s.p := by rw [h.cpu]
theorem State.Keeps.lea {s t : State} (h : s.Keeps t) : t.lea = s.lea := by rw [h.cpu]
theorem State.Keeps.halted {s t : State} (h : s.Keeps t) : t.halted = s.halted := by rw [h.cpu]
theorem State.Keeps.cfg {s t : State} (h : s.Keeps t) : t.cfg = s.cfg := by rw [h.cpu]
theorem State.Keeps.phase {s t : State} (h : s.Keeps t) : t.phase = s.phase := by rw [h.cpu]

/-- What a step that ends in an error leaves of the devices, as `State.Keeps` says it of bus activity that succeeds. -/
structure State.Leaves (s : State) (left : Aftermath) : Prop where
  records : left.devices.map Device.record = s.devices.map Device.record
  roms : left.devices.map Device.romBytes = s.devices.map Device.romBytes
  wf : (∀ d ∈ s.devices, d.unit.wf s.cfg) → ∀ d ∈ left.devices, d.unit.wf s.cfg

theorem State.Keeps.leaves {s t : State} (h : s.Keeps t) : s.Leaves t.aftermath :=
  ⟨h.records, h.roms, fun hw d hd => by simpa only [h.cfg] using h.wf hw d hd⟩

/-- An error after bus activity leaves what both leave. -/
theorem State.Keeps.trans_leaves {s t : State} {left : Aftermath} (h : s.Keeps t) (g : t.Leaves left) :
    s.Leaves left :=
  ⟨g.records.trans h.records, g.roms.trans h.roms, fun hw d hd => by
    simpa only [h.cfg] using g.wf (h.wf hw) d hd⟩

/-- What an error leaves depends on the devices and the parameters alone. -/
theorem State.Leaves.congr {s t : State} {left : Aftermath} (h : s.Leaves left) (hd : t.devices = s.devices)
    (hc : t.cfg = s.cfg) : t.Leaves left :=
  ⟨by rw [h.records, hd], by rw [h.roms, hd], by rw [hd, hc]; exact h.wf⟩

/-- Every byte of memory reads as before. -/
theorem State.Quiet.peek {s t : State} (h : s.Quiet t) (addr : Word) : t.peek addr = s.peek addr := by
  unfold State.peek State.route
  rw [h.keeps.cfg]
  exact find_of_shapes (c := s.cfg) (b := addr) (fun d => d.peek (d.offset addr))
    (fun d e hd => by
      simp only [Device.offset, Device.base_of_record (Device.record_of_shape hd), Device.peek_of_shape hd])
    h.shapes

/-- Every word of memory reads as before. -/
theorem State.Quiet.peekWord {s t : State} (h : s.Quiet t) (addr : Word) : t.peekWord addr = s.peekWord addr := by
  unfold State.peekWord State.route
  rw [h.keeps.cfg]
  exact find_of_shapes (c := s.cfg) (b := addr) (fun d => d.peekWord (d.offset addr))
    (fun d e hd => by
      simp only [Device.offset, Device.base_of_record (Device.record_of_shape hd), Device.peekWord_of_shape hd])
    h.shapes

/-! ## The bus operations -/

/-- A device put back as it is changes nothing. -/
theorem State.putRouted_self {s : State} {addr : Word} {d : Device} {u : DeviceUnit} (h : s.route addr = some d)
    (hu : d.unit = u) : s.putRouted addr { d with unit := u } = s := by
  subst hu
  simp only [State.putRouted, replaceRouted_self h]

/-- `putRouted` of a device that an operation which stores nothing left. -/
theorem State.putRouted_quiet {s : State} {addr : Word} {d d' : Device} (h : s.route addr = some d)
    (hq : d.Quiet s.cfg d') : s.Quiet (s.putRouted addr d') := by
  refine ⟨Eq.refl _, map_replaceRouted Device.shape h hq.shape, fun hw e he => ?_⟩
  rcases mem_replaceRouted he with rfl | he
  · exact hq.wf (hw d (List.mem_of_find?_eq_some h))
  · exact hw e he

theorem State.putRouted_keeps {s : State} {addr : Word} {d d' : Device} (h : s.route addr = some d)
    (hk : d.Keeps s.cfg d') : s.Keeps (s.putRouted addr d') := by
  refine ⟨Eq.refl _, map_replaceRouted Device.record h hk.record, map_replaceRouted Device.romBytes h hk.rom,
    fun hw e he => ?_⟩
  rcases mem_replaceRouted he with rfl | he
  · exact hk.wf (hw d (List.mem_of_find?_eq_some h))
  · exact hw e he

/-- What `BusGet` can do when it answers a byte (R37). -/
theorem State.busGet_ok {s t : State} {addr : Word} {v : Byte} (h : s.busGet addr = .ok (v, t)) :
    ∃ d d', s.route addr = some d ∧ d.get s.cfg (d.offset addr) = .ok (v, d') ∧ t = s.putRouted addr d' := by
  unfold State.busGet at h
  cases hr : s.route addr with
  | none => simp [hr] at h
  | some d =>
    cases hg : d.get s.cfg (d.offset addr) with
    | error e => simp [hr, hg, Except.map] at h
    | ok p =>
      simp [hr, hg, Except.map] at h
      exact ⟨d, p.2, rfl, by rw [hg, ← h.1], h.2.symm⟩

theorem State.busGet_quiet {s t : State} {addr : Word} {v : Byte} (h : s.busGet addr = .ok (v, t)) : s.Quiet t := by
  obtain ⟨d, d', hr, hg, rfl⟩ := State.busGet_ok h
  exact State.putRouted_quiet hr (Device.get_quiet hg)

/-- What `BusGetWord` can do when it answers a word (R39). -/
theorem State.busGetWord_ok {s t : State} {addr : Word} {w : Word} (h : s.busGetWord addr = .ok (w, t)) :
    ∃ d d', s.route addr = some d ∧ d.getWord s.cfg (d.offset addr) = .ok (w, d') ∧ t = s.putRouted addr d' := by
  unfold State.busGetWord at h
  cases hr : s.route addr with
  | none => simp [hr] at h
  | some d =>
    cases hg : d.getWord s.cfg (d.offset addr) with
    | error e => simp [hr, hg, Except.map] at h
    | ok p =>
      simp [hr, hg, Except.map] at h
      exact ⟨d, p.2, rfl, by rw [hg, ← h.1], h.2.symm⟩

theorem State.busGetWord_quiet {s t : State} {addr : Word} {w : Word} (h : s.busGetWord addr = .ok (w, t)) :
    s.Quiet t := by
  obtain ⟨d, d', hr, hg, rfl⟩ := State.busGetWord_ok h
  exact State.putRouted_quiet hr (Device.getWord_quiet hg)

/-- What `BusSet` can do when it succeeds (R38). -/
theorem State.busSet_ok {s t : State} {addr : Word} {v : Byte} (h : s.busSet addr v = .ok t) :
    ∃ d d', s.route addr = some d ∧ d.set s.cfg (d.offset addr) v = .ok d' ∧ t = s.putRouted addr d' := by
  unfold State.busSet at h
  cases hr : s.route addr with
  | none => simp [hr] at h
  | some d =>
    cases hg : d.set s.cfg (d.offset addr) v with
    | error e => simp [hr, hg, Except.map] at h
    | ok d' =>
      simp [hr, hg, Except.map] at h
      exact ⟨d, d', rfl, hg, h.symm⟩

theorem State.busSet_keeps {s t : State} {addr : Word} {v : Byte} (h : s.busSet addr v = .ok t) : s.Keeps t := by
  obtain ⟨d, d', hr, hg, rfl⟩ := State.busSet_ok h
  exact State.putRouted_keeps hr (Device.set_keeps hg)

/-- The router finds a device that claims the address. -/
theorem State.route_claims {s : State} {addr : Word} {d : Device} (h : s.route addr = some d) :
    d.claims s.cfg addr = true := by
  simpa using List.find?_some h

/-- Two addresses the same record claims have distinct offsets. -/
theorem Device.offset_ne {c : Config} {d : Device} {a b : Word} (ha : d.claims c a = true) (hb : d.claims c b = true)
    (h : a ≠ b) : d.offset a ≠ d.offset b := by
  simp only [Device.claims, Bool.and_eq_true, decide_eq_true_eq] at ha hb
  have : a.toNat ≠ b.toNat := fun e => h (BitVec.eq_of_toNat_eq e)
  simp only [Device.offset]
  omega

/-- The peek of an address after the routed device of another was replaced by a device that peeks alike there. -/
theorem State.peek_putRouted {s : State} {addr b : Word} {d d' : Device} (h : s.route addr = some d)
    (hr : d'.record = d.record) (hp : d.claims s.cfg b = true → d'.peek (d.offset b) = d.peek (d.offset b)) :
    (s.putRouted addr d').peek b = s.peek b := by
  have hbase := Device.base_of_record hr
  have key := find_replaceRouted (b := b)
    (fun e => if e.claims s.cfg b then e.peek (e.offset b) else none) h hr (by
      simp only [Device.claims_of_record hr b, Device.offset, hbase]
      split
      · next hc => exact hp hc
      · rfl)
  have conv : ∀ ds : List Device, (ds.find? (fun d => d.claims s.cfg b)).bind
      (fun e => if e.claims s.cfg b then e.peek (e.offset b) else none) =
      (ds.find? (fun d => d.claims s.cfg b)).bind (fun e => e.peek (e.offset b)) := by
    intro ds
    cases hf : ds.find? (fun d => d.claims s.cfg b) with
    | none => rfl
    | some e => have := List.find?_some hf; simp_all
  simpa [State.peek, State.route, State.putRouted, conv] using key

/-- A byte write leaves every other byte of memory alone. -/
theorem State.busSet_peek_ne {s t : State} {addr b : Word} {v : Byte} (h : s.busSet addr v = .ok t)
    (hw : ∀ d ∈ s.devices, d.unit.wf s.cfg) (hb : b ≠ addr) : t.peek b = s.peek b := by
  obtain ⟨d, d', hr, hg, rfl⟩ := State.busSet_ok h
  refine State.peek_putRouted hr (Device.set_keeps hg).record fun hc => ?_
  exact Device.set_peek_ne hg (hw d (List.mem_of_find?_eq_some hr))
    (Device.offset_ne hc (State.route_claims hr) hb)

/-- A byte written to memory reads back. -/
theorem State.busSet_peek_same {s t : State} {addr : Word} {v v0 : Byte} (h : s.busSet addr v = .ok t)
    (hw : ∀ d ∈ s.devices, d.unit.wf s.cfg) (hp : s.peek addr = some v0) : t.peek addr = some v := by
  obtain ⟨d, d', hr, hg, rfl⟩ := State.busSet_ok h
  have hrec := (Device.set_keeps hg).record
  have h1 : (s.putRouted addr d').route addr = some d' := find_replaceRouted_same hr hrec
  unfold State.peek at hp ⊢
  rw [h1]
  rw [hr] at hp
  simp only [Option.bind_some, Device.offset, Device.base_of_record hrec] at hp ⊢
  exact Device.set_peek_same hg (hw d (List.mem_of_find?_eq_some hr)) hp

/-- A byte of memory is read by `BusGet` with no side effect (R45). -/
theorem State.busGet_of_peek {s : State} {addr : Word} {v : Byte} (h : s.peek addr = some v) :
    s.busGet addr = .ok (v, s) := by
  unfold State.peek at h
  unfold State.busGet
  cases hr : s.route addr with
  | none => simp [hr] at h
  | some d =>
    simp only [hr, Option.bind_some] at h
    simp only [Device.get_of_peek h, Except.map, State.putRouted, replaceRouted_self hr]

/-- A word of memory is read by `BusGetWord` with no side effect (R47). -/
theorem State.busGetWord_of_peek {s : State} {addr : Word} {w : Word} (h : s.peekWord addr = some w) :
    s.busGetWord addr = .ok (w, s) := by
  unfold State.peekWord at h
  unfold State.busGetWord
  cases hr : s.route addr with
  | none => simp [hr] at h
  | some d =>
    simp only [hr, Option.bind_some] at h
    simp only [Device.getWord_of_peek h, Except.map, State.putRouted, replaceRouted_self hr]

/-! ## The host's turn -/

theorem State.kbdEnqueue_quiet (s : State) (k : KeyPress) : s.Quiet (s.kbdEnqueue k) := by
  have hq := fun d : Device => Device.enqueue_quiet s.cfg d k.key
  refine ⟨Eq.refl _, ?_, fun hw e he => ?_⟩
  · simp only [State.kbdEnqueue]
    refine List.ext_getElem (by simp) fun i h1 h2 => ?_
    simp only [List.getElem_map, List.getElem_modify]
    split
    · exact (hq _).shape
    · rfl
  · simp only [State.kbdEnqueue] at he
    obtain ⟨i, hi, rfl⟩ := List.mem_iff_getElem.mp he
    simp only [List.getElem_modify]
    split
    · exact (hq _).wf (hw _ (List.getElem_mem _))
    · exact hw _ (List.getElem_mem _)

/-- The host's turn stores nothing in memory and touches no register (R53, R67). -/
theorem State.hostTurn_quiet (s : State) : s.Quiet s.hostTurn := by
  have fold : ∀ (ks : List KeyPress) (t : State), t.Quiet (ks.foldl State.kbdEnqueue t) := by
    intro ks
    induction ks with
    | nil => intro t; exact .rfl
    | cons k ks ih => intro t; exact (State.kbdEnqueue_quiet t k).trans (ih _)
  unfold State.hostTurn
  split
  · exact .rfl
  · next keys rest _ =>
    exact State.Quiet.trans (t := { s with arrivals := rest }) ⟨Eq.refl _, Eq.refl _, id⟩ (fold keys _)

/-- Two states that differ in CPU registers and the phase alone: the same devices, parameters and schedule. -/
abbrev State.SameBus (s t : State) : Prop := t = { s with
  pc := t.pc, sp := t.sp, a := t.a, x := t.x, y := t.y, p := t.p, lea := t.lea, halted := t.halted, phase := t.phase }

/-- The host's turn depends on the devices and the schedule alone. -/
theorem State.hostTurn_of_cpu {s t : State} (h : s.SameBus t) :
    t.hostTurn = { t with devices := s.hostTurn.devices, arrivals := s.hostTurn.arrivals } := by
  have fold : ∀ (ks : List KeyPress) (s t : State), s.SameBus t →
      ks.foldl State.kbdEnqueue t = { t with
        devices := (ks.foldl State.kbdEnqueue s).devices, arrivals := (ks.foldl State.kbdEnqueue s).arrivals } := by
    intro ks
    induction ks with
    | nil => intro s t h; rw [h]; rfl
    | cons k ks ih =>
      intro s t h
      have hd : t.devices = s.devices := by rw [h]
      rw [List.foldl_cons, List.foldl_cons, ih (s.kbdEnqueue k) (t.kbdEnqueue k)
        (by unfold State.SameBus
            conv_lhs => rw [h]
            simp only [State.kbdEnqueue])]
      rfl
  have ha : t.arrivals = s.arrivals := by rw [h]
  unfold State.hostTurn
  rw [ha]
  split
  · rw [h]
  · next keys rest _ => exact fold keys { s with arrivals := rest } _ (by unfold State.SameBus; conv_lhs => rw [h])

/-- The host's turn does not look at `PC`. -/
theorem State.hostTurn_withPC (s : State) (w : Word) :
    ({ s with pc := w } : State).hostTurn = { s.hostTurn with pc := w } := by
  rw [State.hostTurn_of_cpu (s := s) (Eq.refl _)]
  conv_rhs => rw [(State.hostTurn_quiet s).cpu]

/-- The host's turn does not look at what a step begins with. -/
theorem State.hostTurn_beginStep (s : State) : s.beginStep.hostTurn = s.hostTurn.beginStep := by
  rw [State.hostTurn_of_cpu (s := s) (t := s.beginStep) (Eq.refl _)]
  conv_rhs => rw [(State.hostTurn_quiet s).cpu]
  rfl

/-! ## One bus operation of the CPU -/

theorem State.access_of_ok {α : Type} {s : State} {op : State → Except BusError α} {v : α}
    (h : op s.hostTurn = .ok v) : s.access op = .ok v := by
  simp [State.access, h, Except.mapError]

/-- A failing operation's error carries its kind and the devices as they were before it (R211 item 1). -/
theorem State.access_of_error {α : Type} {s : State} {op : State → Except BusError α} {kind : BusError}
    (h : op s.hostTurn = .error kind) : s.access op = .error (.busError kind s.hostTurn.aftermath) := by
  simp [State.access, h, Except.mapError]

theorem State.access_ok {α : Type} {s : State} {op : State → Except BusError α} {v : α} (h : s.access op = .ok v) :
    op s.hostTurn = .ok v := by
  cases ho : op s.hostTurn with
  | error e => simp [State.access_of_error ho] at h
  | ok w => simpa [State.access_of_ok ho] using h

theorem State.access_error {α : Type} {s : State} {op : State → Except BusError α} {e : Fault}
    (h : s.access op = .error e) :
    ∃ kind, op s.hostTurn = .error kind ∧ e = .busError kind s.hostTurn.aftermath := by
  cases ho : op s.hostTurn with
  | error kind => exact ⟨kind, rfl, by simpa [State.access_of_error ho] using h.symm⟩
  | ok w => simp [State.access_of_ok ho] at h

/-- A failing access leaves the devices as the host's turn before it did. -/
theorem State.access_leaves {α : Type} {s : State} {op : State → Except BusError α} {kind : BusError}
    {left : Aftermath} (h : s.access op = .error (.busError kind left)) : s.Leaves left := by
  obtain ⟨_, -, he⟩ := State.access_error h
  simp only [Fault.busError.injEq] at he
  rw [he.2]
  exact (State.hostTurn_quiet s).keeps.leaves

/-! ## The CPU's primitives (R7) -/

theorem State.memRead_quiet {s t : State} {addr : Word} {v : Byte} (h : s.memRead addr = .ok (v, t)) : s.Quiet t :=
  (State.hostTurn_quiet s).trans (State.busGet_quiet (State.access_ok h))

theorem State.memReadWord_quiet {s t : State} {addr : Word} {w : Word} (h : s.memReadWord addr = .ok (w, t)) :
    s.Quiet t :=
  (State.hostTurn_quiet s).trans (State.busGetWord_quiet (State.access_ok h))

theorem State.memWrite_keeps {s t : State} {addr : Word} {v : Byte} (h : s.memWrite addr v = .ok t) : s.Keeps t :=
  (State.hostTurn_quiet s).keeps.trans (State.busSet_keeps (State.access_ok h))

theorem State.memWrite_peek_ne {s t : State} {addr b : Word} {v : Byte} (h : s.memWrite addr v = .ok t)
    (hw : ∀ d ∈ s.devices, d.unit.wf s.cfg) (hb : b ≠ addr) : t.peek b = s.peek b := by
  rw [State.busSet_peek_ne (State.access_ok h) ((State.hostTurn_quiet s).wf hw) hb, (State.hostTurn_quiet s).peek]

theorem State.memWrite_peek_same {s t : State} {addr : Word} {v v0 : Byte} (h : s.memWrite addr v = .ok t)
    (hw : ∀ d ∈ s.devices, d.unit.wf s.cfg) (hp : s.peek addr = some v0) : t.peek addr = some v :=
  State.busSet_peek_same (v0 := v0) (State.access_ok h) ((State.hostTurn_quiet s).wf hw) (by rw [(State.hostTurn_quiet s).peek, hp])

theorem State.memRead_leaves {s : State} {addr : Word} {kind : BusError} {left : Aftermath}
    (h : s.memRead addr = .error (.busError kind left)) : s.Leaves left := by
  unfold State.memRead at h
  exact State.access_leaves h

theorem State.memReadWord_leaves {s : State} {addr : Word} {kind : BusError} {left : Aftermath}
    (h : s.memReadWord addr = .error (.busError kind left)) : s.Leaves left := by
  unfold State.memReadWord at h
  exact State.access_leaves h

theorem State.memWrite_leaves {s : State} {addr : Word} {v : Byte} {kind : BusError} {left : Aftermath}
    (h : s.memWrite addr v = .error (.busError kind left)) : s.Leaves left := by
  unfold State.memWrite at h
  exact State.access_leaves h

/-- Reading a byte of memory gives it, and only the host's turn happens. -/
theorem State.memRead_of_peek {s : State} {addr : Word} {v : Byte} (h : s.peek addr = some v) :
    s.memRead addr = .ok (v, s.hostTurn) :=
  State.access_of_ok (State.busGet_of_peek (by rw [(State.hostTurn_quiet s).peek, h]))

/-- Reading a word of memory gives it, and only the host's turn happens. -/
theorem State.memReadWord_of_peek {s : State} {addr : Word} {w : Word} (h : s.peekWord addr = some w) :
    s.memReadWord addr = .ok (w, s.hostTurn) :=
  State.access_of_ok (State.busGetWord_of_peek (by rw [(State.hostTurn_quiet s).peekWord, h]))

/-- A bus read depends on the devices, the parameters and the schedule alone. -/
theorem State.memRead_of_cpu {s t : State} (h : s.SameBus t) (addr : Word) :
    t.memRead addr = (s.memRead addr).map fun (v, u) => (v, { t with devices := u.devices, arrivals := u.arrivals }) := by
  have hc : t.cfg = s.hostTurn.cfg := by rw [h, (State.hostTurn_quiet s).keeps.cfg]
  unfold State.memRead State.access
  rw [State.hostTurn_of_cpu h]
  simp only [State.busGet, State.route, hc]
  cases s.hostTurn.devices.find? fun d => d.claims s.hostTurn.cfg addr with
  | none => rfl
  | some d =>
    dsimp only
    cases d.get s.hostTurn.cfg (d.offset addr) with
    | error e => rfl
    | ok p => simp [Except.map, Except.mapError, State.putRouted]

/-- A word read depends on the devices, the parameters and the schedule alone. -/
theorem State.memReadWord_of_cpu {s t : State} (h : s.SameBus t) (addr : Word) :
    t.memReadWord addr =
      (s.memReadWord addr).map fun (w, u) => (w, { t with devices := u.devices, arrivals := u.arrivals }) := by
  have hc : t.cfg = s.hostTurn.cfg := by rw [h, (State.hostTurn_quiet s).keeps.cfg]
  unfold State.memReadWord State.access
  rw [State.hostTurn_of_cpu h]
  simp only [State.busGetWord, State.route, hc]
  cases s.hostTurn.devices.find? fun d => d.claims s.hostTurn.cfg addr with
  | none => rfl
  | some d =>
    dsimp only
    cases d.getWord s.hostTurn.cfg (d.offset addr) with
    | error e => rfl
    | ok p => simp [Except.map, Except.mapError, State.putRouted]

/-- A bus write depends on the devices, the parameters and the schedule alone. -/
theorem State.memWrite_of_cpu {s t : State} (h : s.SameBus t) (addr : Word) (v : Byte) :
    t.memWrite addr v =
      (s.memWrite addr v).map fun u => { t with devices := u.devices, arrivals := u.arrivals } := by
  have hc : t.cfg = s.hostTurn.cfg := by rw [h, (State.hostTurn_quiet s).keeps.cfg]
  unfold State.memWrite State.access
  rw [State.hostTurn_of_cpu h]
  simp only [State.busSet, State.route, hc]
  cases s.hostTurn.devices.find? fun d => d.claims s.hostTurn.cfg addr with
  | none => rfl
  | some d =>
    dsimp only
    cases d.set s.hostTurn.cfg (d.offset addr) v with
    | error e => rfl
    | ok p => simp [Except.map, Except.mapError, State.putRouted]

/-- What `Push8` can do when it succeeds (R12). -/
theorem State.push8_ok {s t : State} {v : Byte} (h : s.push8 v = .ok t) :
    ∃ u, s.memWrite (stackAddr s.sp) v = .ok u ∧ t = { u with sp := s.sp - 1#8 } := by
  unfold State.push8 at h
  cases hm : s.memWrite (stackAddr s.sp) v with
  | error e => simp [hm, Except.map] at h
  | ok u =>
    simp only [hm, Except.map, Except.ok.injEq] at h
    exact ⟨u, rfl, by rw [← h, (State.memWrite_keeps hm).sp]⟩

/-- A push writes through the bus and decrements `SP`; it touches nothing else (R12). -/
theorem State.push8_keeps {s t : State} {v : Byte} (h : s.push8 v = .ok t) :
    ({ s with sp := s.sp - 1#8 } : State).Keeps t := by
  obtain ⟨u, h1, rfl⟩ := State.push8_ok h
  have k := State.memWrite_keeps h1
  refine ⟨?_, k.records, k.roms, k.wf⟩
  conv_lhs => rw [k.cpu]

/-- What `Pull8` can do when it answers a byte (R12). -/
theorem State.pull8_quiet {s t : State} {v : Byte} (h : s.pull8 = .ok (v, t)) :
    ({ s with sp := s.sp + 1#8 } : State).Quiet t := State.memRead_quiet h

theorem State.push8_error {s : State} {v : Byte} {e : Fault} (h : s.push8 v = .error e) :
    s.memWrite (stackAddr s.sp) v = .error e := by
  unfold State.push8 at h
  cases hm : s.memWrite (stackAddr s.sp) v with
  | error e' => simpa [hm, Except.map] using h
  | ok u => simp [hm, Except.map] at h

theorem State.push8_leaves {s : State} {v : Byte} {kind : BusError} {left : Aftermath}
    (h : s.push8 v = .error (.busError kind left)) : s.Leaves left := State.memWrite_leaves (State.push8_error h)

theorem State.pull8_leaves {s : State} {kind : BusError} {left : Aftermath}
    (h : s.pull8 = .error (.busError kind left)) : s.Leaves left :=
  (State.memRead_leaves (s := { s with sp := s.sp + 1#8 }) h).congr rfl rfl

/-! ## Going on with a step (R104) -/

@[simp] theorem proceed_ok {α : Type} (v : α) (k : α → Out) : proceed (.ok v) k = k v := rfl

@[simp] theorem proceed_error {α : Type} (e : Fault) (k : α → Out) : proceed (.error e) k = .fault e := rfl

/-- A step that goes on to a next state got a result from the bus operation. -/
theorem proceed_next {α : Type} {r : Except Fault α} {k : α → Out} {t : State} (h : proceed r k = .next t) :
    ∃ v, r = .ok v ∧ k v = .next t := by
  cases r with
  | ok v => exact ⟨v, rfl, h⟩
  | error e => simp [proceed, endStep] at h

/-- A step that ends in an error got it from the bus operation or from what follows. -/
theorem proceed_fault {α : Type} {r : Except Fault α} {k : α → Out} {e : Fault} (h : proceed r k = .fault e) :
    r = .error e ∨ ∃ v, r = .ok v ∧ k v = .fault e := by
  cases r with
  | ok v => exact .inr ⟨v, rfl, h⟩
  | error e' => exact .inl (by simpa [proceed, endStep] using h)

end Sys2Proof.Machine
end

