-- ==== Sys2Proof/Laws/Flags.lean ====
section
/-! SUPPORT. Reading a flag after a write of one, of `P` as a whole, or by a shared flag computation. -/

namespace Sys2Proof.Machine

theorem bitOf_withBit_same (v : Byte) (i : Nat) (b : Bool) (h : i < 8) : bitOf (withBit v i b) i = b := by
  cases b <;> simp [bitOf, withBit, h]

theorem bitOf_withBit_ne (v : Byte) (i j : Nat) (b : Bool) (h : i ≠ j) : bitOf (withBit v i b) j = bitOf v j := by
  by_cases hj : j < 8
  · rcases Nat.lt_or_gt_of_ne h with h1 | h1
    · have h2 : j - i ≠ 0 := by omega
      cases b <;> simp [bitOf, withBit, hj, h2]
    · cases b <;> simp [bitOf, withBit, hj, h1]
  · rw [bitOf, bitOf, BitVec.getLsbD_of_ge _ _ (by omega), BitVec.getLsbD_of_ge _ _ (by omega)]

/-- Distinct flags are distinct bits. -/
theorem Flag.bit_inj {f g : Flag} (h : f ≠ g) : f.bit ≠ g.bit := by
  revert h; cases f <;> cases g <;> decide

theorem Flag.bit_lt (f : Flag) : f.bit < 8 := by cases f <;> decide

/-- The reserved bit reads 1 in every state (R15). -/
@[simp] theorem State.flag_R (s : State) : s.flag .R = true := by
  simp [State.flag, State.status, bitOf, Flag.bit]

/-- A flag other than the reserved bit is its bit of `P`. -/
theorem State.flag_eq_bit (s : State) (f : Flag) (h : f ≠ .R) : s.flag f = bitOf s.p f.bit := by
  cases f <;> first | exact absurd rfl h | simp [State.flag, State.status, bitOf, Flag.bit]

/-- A flag depends on `P` alone. -/
theorem State.flag_congr {s t : State} (h : t.p = s.p) (f : Flag) : t.flag f = s.flag f := by
  simp [State.flag, State.status, h]

/-- `P` as read depends on `P` alone. -/
theorem State.status_congr {s t : State} (h : t.p = s.p) : t.status = s.status := by
  simp [State.status, h]

/-- A flag read after a flag write. -/
theorem State.flag_setFlag (s : State) (f g : Flag) (b : Bool) (hf : f ≠ .R) :
    (s.setFlag f b).flag g = if g = f then b else s.flag g := by
  by_cases hg : g = .R
  · subst hg; simp [Ne.symm hf]
  · rw [State.flag_eq_bit _ _ hg, State.flag_eq_bit _ _ hg]
    simp only [State.setFlag, if_neg hf]
    by_cases h : g = f
    · subst h; simp [bitOf_withBit_same _ _ _ g.bit_lt]
    · rw [bitOf_withBit_ne _ _ _ _ (Flag.bit_inj (Ne.symm h)), if_neg h]

/-- A write of the reserved bit changes nothing (R22). -/
@[simp] theorem State.setFlag_R (s : State) (b : Bool) : s.setFlag .R b = s := by simp [State.setFlag]

/-- The stored bit 5 is out of a flag write's reach (R15). -/
@[simp] theorem State.setFlag_bit5 (s : State) (f : Flag) (b : Bool) : bitOf (s.setFlag f b).p 5 = bitOf s.p 5 := by
  by_cases h : f = .R
  · subst h; simp
  · simp only [State.setFlag, if_neg h]
    exact bitOf_withBit_ne _ _ _ _ (Flag.bit_inj (g := .R) h)

/-- `SetZN(v)` writes exactly `Z` and `N` (R120). -/
theorem State.flag_setZN (s : State) (v : Byte) (g : Flag) :
    (s.setZN v).flag g = if g = .N then bitOf v 7 else if g = .Z then v == 0#8 else s.flag g := by
  rw [State.setZN, State.flag_setFlag _ _ _ _ (by decide), State.flag_setFlag _ _ _ _ (by decide)]

@[simp] theorem State.setZN_bit5 (s : State) (v : Byte) : bitOf (s.setZN v).p 5 = bitOf s.p 5 := by
  simp only [State.setZN, State.setFlag_bit5]

/-! No flag computation reaches bit 5 (R15). -/

@[simp] theorem State.addWithCarry_bit5 (s : State) (m : Byte) : bitOf (s.addWithCarry m).p 5 = bitOf s.p 5 := by
  simp only [State.addWithCarry, State.setZN_bit5, State.setFlag_bit5]

@[simp] theorem State.compare_bit5 (s : State) (r m : Byte) : bitOf (s.compare r m).p 5 = bitOf s.p 5 := by
  simp only [State.compare, State.setFlag_bit5]

@[simp] theorem State.setShift_bit5 (s : State) (b : Bool) (r : Byte) :
    bitOf (s.setShift b r).p 5 = bitOf s.p 5 := by
  simp only [State.setShift, State.setZN_bit5, State.setFlag_bit5]

@[simp] theorem State.bitTest_bit5 (s : State) (m : Byte) : bitOf (s.bitTest m).p 5 = bitOf s.p 5 := by
  simp only [State.bitTest, State.setFlag_bit5]

@[simp] theorem State.shiftA_bit5 (s : State) (b : Bool) (r : Byte) : bitOf (s.shiftA b r).p 5 = bitOf s.p 5 :=
  s.setShift_bit5 b r

@[simp] theorem State.loadA_bit5 (s : State) (r : Byte) : bitOf (s.loadA r).p 5 = bitOf s.p 5 := s.setZN_bit5 r

@[simp] theorem State.loadX_bit5 (s : State) (r : Byte) : bitOf (s.loadX r).p 5 = bitOf s.p 5 := s.setZN_bit5 r

@[simp] theorem State.loadY_bit5 (s : State) (r : Byte) : bitOf (s.loadY r).p 5 = bitOf s.p 5 := s.setZN_bit5 r

/-- A whole write of `P` sets bit 5 (R15). -/
@[simp] theorem bitOf_forced_bit5 (v : Byte) : bitOf (v ||| 0x20#8) 5 = true := by
  simp [bitOf]

/-- `AddWithCarry` writes exactly `C`, `Z`, `V`, `N` (R121). -/
theorem State.flag_addWithCarry (s : State) (m : Byte) (g : Flag) :
    (s.addWithCarry m).flag g =
      if g = .N then bitOf (adcResult s.a m (s.flag .C)) 7
      else if g = .Z then adcResult s.a m (s.flag .C) == 0#8
      else if g = .C then adcCarry s.a m (s.flag .C)
      else if g = .V then adcOverflow s.a m (s.flag .C)
      else s.flag g := by
  have h : (s.addWithCarry m).flag g = (((s.setFlag .V (adcOverflow s.a m (s.flag .C))).setFlag .C
      (adcCarry s.a m (s.flag .C))).setZN (adcResult s.a m (s.flag .C))).flag g := State.flag_congr rfl g
  rw [h, State.flag_setZN, State.flag_setFlag _ _ _ _ (by decide), State.flag_setFlag _ _ _ _ (by decide)]

/-- `Compare` writes exactly `C`, `Z`, `N` (R123). -/
theorem State.flag_compare (s : State) (r m : Byte) (g : Flag) :
    (s.compare r m).flag g =
      if g = .C then decide (r.toNat ≥ m.toNat)
      else if g = .Z then r == m
      else if g = .N then bitOf (r - m) 7
      else s.flag g := by
  rw [State.compare, State.flag_setFlag _ _ _ _ (by decide), State.flag_setFlag _ _ _ _ (by decide),
    State.flag_setFlag _ _ _ _ (by decide)]

/-- A shift writes exactly `C`, `Z`, `N` (R129 to R132). -/
theorem State.flag_setShift (s : State) (b : Bool) (r : Byte) (g : Flag) :
    (s.setShift b r).flag g =
      if g = .N then bitOf r 7 else if g = .Z then r == 0#8 else if g = .C then b else s.flag g := by
  rw [State.setShift, State.flag_setZN, State.flag_setFlag _ _ _ _ (by decide)]

/-- `BIT` writes exactly `Z`, `V`, `N` (R139). -/
theorem State.flag_bitTest (s : State) (m : Byte) (g : Flag) :
    (s.bitTest m).flag g =
      if g = .V then bitOf m 6 else if g = .N then bitOf m 7 else if g = .Z then s.a &&& m == 0#8 else s.flag g := by
  rw [State.bitTest, State.flag_setFlag _ _ _ _ (by decide), State.flag_setFlag _ _ _ _ (by decide),
    State.flag_setFlag _ _ _ _ (by decide)]

theorem State.flag_shiftA (s : State) (b : Bool) (r : Byte) (g : Flag) :
    (s.shiftA b r).flag g = (s.setShift b r).flag g := State.flag_congr rfl g

theorem State.flag_loadA (s : State) (r : Byte) (g : Flag) : (s.loadA r).flag g = (s.setZN r).flag g :=
  State.flag_congr rfl g

theorem State.flag_loadX (s : State) (r : Byte) (g : Flag) : (s.loadX r).flag g = (s.setZN r).flag g :=
  State.flag_congr rfl g

theorem State.flag_loadY (s : State) (r : Byte) (g : Flag) : (s.loadY r).flag g = (s.setZN r).flag g :=
  State.flag_congr rfl g

/-- A whole write of `P` loads every flag but the reserved bit (R15, R16). -/
theorem State.flag_setStatus (s : State) (v : Byte) (g : Flag) (h : g ≠ .R) :
    (s.setStatus v).flag g = bitOf v g.bit := by
  rw [State.flag_eq_bit _ _ h]
  cases g <;> first | exact absurd rfl h | simp [bitOf, Flag.bit]

end Sys2Proof.Machine
end

