-- ==== Sys2Proof/Laws/Operands.lean ====
section
/-! SUPPORT. What resolving an operand, reading it, and the shared bodies over it can do: registers and memory are left as
they were, but for `LEA` and for what the body writes. -/

namespace Sys2Proof.Machine

/-- Bus activity leaves the same whatever `LEA` holds. -/
theorem State.Quiet.setLea {s t : State} (h : s.Quiet t) (e : Word) :
    ({ s with lea := e } : State).Quiet { t with lea := e } := by
  refine ⟨?_, h.shapes, h.wf⟩
  rw [h.cpu]

/-- What `Resolve` can do when it answers an address: it writes `LEA` with it, and stores nothing (R19, R106 to R115). -/
theorem resolve_quiet {m : Mode} {s t : State} {ea : Word} (h : resolve m s = .ok (ea, t)) :
    t.lea = ea ∧ ({ s with lea := ea } : State).Quiet t := by
  have hmap : ∀ {r : Except Fault (Word × State)} {f : Word → State → Word},
      (∀ {w u}, r = .ok (w, u) → s.Quiet u) →
      r.map (fun (w, u) => u.resolved (f w u)) = .ok (ea, t) →
      t.lea = ea ∧ ({ s with lea := ea } : State).Quiet t := by
    intro r f hq hr
    cases r with
    | error e => simp [Except.map] at hr
    | ok p =>
      obtain ⟨w, u⟩ := p
      simp only [Except.map, Except.ok.injEq, State.resolved, Prod.mk.injEq] at hr
      obtain ⟨rfl, rfl⟩ := hr
      exact ⟨rfl, (hq rfl).setLea _⟩
  cases m with
  | indirect w => exact hmap (f := fun w _ => w) State.memReadWord_quiet h
  | indexedIndirect nn => exact hmap (f := fun w _ => w) State.memReadWord_quiet h
  | indirectIndexed nn => exact hmap (f := fun w u => w + zext16 u.y) State.memReadWord_quiet h
  | _ =>
    simp only [resolve, State.resolved, Except.ok.injEq, Prod.mk.injEq] at h
    obtain ⟨rfl, rfl⟩ := h
    exact ⟨rfl, .rfl⟩

/-- What reading an operand can do when it answers a byte. -/
theorem readOperand_quiet {m : Mode} {s t : State} {v : Byte} (h : readOperand m s = .ok (v, t)) :
    ({ s with lea := t.lea } : State).Quiet t := by
  have hbind : ∀ {m : Mode}, (resolve m s).bind (fun (ea, s) => s.memRead ea) = .ok (v, t) →
      ({ s with lea := t.lea } : State).Quiet t := by
    intro m hb
    cases hr : resolve m s with
    | error e => simp [hr, Except.bind] at hb
    | ok p =>
      obtain ⟨ea, u⟩ := p
      simp only [hr, Except.bind] at hb
      obtain ⟨h1, h2⟩ := resolve_quiet hr
      have h3 := State.memRead_quiet hb
      rw [h3.keeps.lea, h1]
      exact h2.trans h3
  cases m with
  | immediate nn =>
    simp only [readOperand, resolve, State.resolved, Except.map, Except.ok.injEq, Prod.mk.injEq] at h
    obtain ⟨-, rfl⟩ := h
    exact .rfl
  | _ =>
    simp only [readOperand] at h
    exact hbind h

/-- An error while an address resolves leaves the devices as bus activity does. -/
theorem resolve_leaves {m : Mode} {s : State} {kind : BusError} {left : Aftermath}
    (h : resolve m s = .error (.busError kind left)) : s.Leaves left := by
  have hmap : ∀ {a : Word} {f : Word × State → Word × State},
      (s.memReadWord a).map f = .error (.busError kind left) → s.Leaves left := by
    intro a f hr
    cases hm : s.memReadWord a with
    | error e =>
      simp only [hm, Except.map, Except.error.injEq] at hr
      exact State.memReadWord_leaves (hr ▸ hm)
    | ok p => simp [hm, Except.map] at hr
  cases m with
  | indirect w => exact hmap h
  | indexedIndirect nn => exact hmap h
  | indirectIndexed nn => exact hmap h
  | _ => simp [resolve] at h

/-- An address that resolves leaves the devices of the state before it to a later error. -/
theorem resolve_trans_leaves {m : Mode} {s t : State} {ea : Word} {left : Aftermath}
    (h : resolve m s = .ok (ea, t)) (g : t.Leaves left) : s.Leaves left :=
  ((resolve_quiet h).2.keeps.trans_leaves g).congr rfl rfl

/-- An error while an operand is read leaves the devices as bus activity does. -/
theorem readOperand_leaves {m : Mode} {s : State} {kind : BusError} {left : Aftermath}
    (h : readOperand m s = .error (.busError kind left)) : s.Leaves left := by
  have hbind : ∀ {m : Mode}, (resolve m s).bind (fun (ea, s) => s.memRead ea) = .error (.busError kind left) →
      s.Leaves left := by
    intro m hb
    cases hr : resolve m s with
    | error e =>
      simp only [hr, Except.bind, Except.error.injEq] at hb
      exact resolve_leaves (hb ▸ hr)
    | ok p =>
      simp only [hr, Except.bind] at hb
      exact resolve_trans_leaves hr (State.memRead_leaves hb)
  cases m with
  | immediate nn => simp [readOperand, resolve, Except.map] at h
  | _ =>
    simp only [readOperand] at h
    exact hbind h

/-- Bus activity leaves every flag. -/
theorem State.Keeps.flag {s t : State} (h : s.Keeps t) (f : Flag) : t.flag f = s.flag f := State.flag_congr h.p f

/-- Resolving an operand leaves every flag. -/
theorem resolve_flag {m : Mode} {s t : State} {ea : Word} (h : resolve m s = .ok (ea, t)) (f : Flag) :
    t.flag f = s.flag f := (resolve_quiet h).2.keeps.flag f

/-- Reading an operand leaves every flag. -/
theorem readOperand_flag {m : Mode} {s t : State} {v : Byte} (h : readOperand m s = .ok (v, t)) (f : Flag) :
    t.flag f = s.flag f := (readOperand_quiet h).keeps.flag f

/-- A push leaves every flag. -/
theorem State.push8_flag {s t : State} {v : Byte} (h : s.push8 v = .ok t) (f : Flag) : t.flag f = s.flag f :=
  (State.push8_keeps h).flag f

/-- A pull leaves every flag. -/
theorem State.pull8_flag {s t : State} {v : Byte} (h : s.pull8 = .ok (v, t)) (f : Flag) : t.flag f = s.flag f :=
  (State.pull8_quiet h).keeps.flag f

/-- A body over an operand byte goes on from the state the read left. -/
theorem withOperand_of_ok {m : Mode} {s t : State} {v : Byte} (f : Byte → State → State)
    (h : readOperand m s = .ok (v, t)) : withOperand m s f = .next (f v t) := by
  simp [withOperand, h]

theorem withOperand_of_error {m : Mode} {s : State} {e : Fault} (f : Byte → State → State)
    (h : readOperand m s = .error e) : withOperand m s f = .fault e := by
  simp [withOperand, h]

/-- What a body over an operand byte can do when it answers a next state. -/
theorem withOperand_next {m : Mode} {s u : State} {f : Byte → State → State} (h : withOperand m s f = .next u) :
    ∃ v t, readOperand m s = .ok (v, t) ∧ u = f v t := by
  obtain ⟨⟨v, t⟩, h1, h2⟩ := proceed_next h
  exact ⟨v, t, h1, by simpa using h2.symm⟩

/-- What a read-modify-write can do when it answers a next state (R141). -/
theorem readModifyWrite_next {m : Mode} {s u : State} {op : Byte → Byte} {f : Byte → State → State}
    (h : readModifyWrite m s op f = .next u) :
    ∃ ea t1 v t2 t3, resolve m s = .ok (ea, t1) ∧ t1.memRead ea = .ok (v, t2) ∧ t2.memWrite ea (op v) = .ok t3 ∧
      u = f v t3 := by
  obtain ⟨⟨ea, t1⟩, h1, h⟩ := proceed_next h
  obtain ⟨⟨v, t2⟩, h2, h⟩ := proceed_next h
  obtain ⟨t3, h3, h⟩ := proceed_next h
  exact ⟨ea, t1, v, t2, t3, h1, h2, h3, by simpa using h.symm⟩

/-- What a body over an operand byte leaves when it ends in an error. -/
theorem withOperand_leaves {m : Mode} {s : State} {f : Byte → State → State} {kind : BusError} {left : Aftermath}
    (h : withOperand m s f = .fault (.busError kind left)) : s.Leaves left := by
  rcases proceed_fault h with h | ⟨_, -, h⟩
  · exact readOperand_leaves h
  · simp at h

/-- What a read-modify-write leaves when it ends in an error (R141). -/
theorem readModifyWrite_leaves {m : Mode} {s : State} {op : Byte → Byte} {f : Byte → State → State}
    {kind : BusError} {left : Aftermath} (h : readModifyWrite m s op f = .fault (.busError kind left)) :
    s.Leaves left := by
  rcases proceed_fault h with h | ⟨_, h1, h⟩
  · exact resolve_leaves h
  rcases proceed_fault h with h | ⟨_, h2, h⟩
  · exact resolve_trans_leaves h1 (State.memRead_leaves h)
  rcases proceed_fault h with h | ⟨_, -, h⟩
  · exact resolve_trans_leaves h1 ((State.memRead_quiet h2).keeps.trans_leaves (State.memWrite_leaves h))
  · simp at h

/-- What a store leaves when it ends in an error. -/
theorem store_leaves {m : Mode} {s : State} {v : Byte} {kind : BusError} {left : Aftermath}
    (h : store m s v = .fault (.busError kind left)) : s.Leaves left := by
  rcases proceed_fault h with h | ⟨_, h1, h⟩
  · exact resolve_leaves h
  rcases proceed_fault h with h | ⟨_, -, h⟩
  · exact resolve_trans_leaves h1 (State.memWrite_leaves h)
  · simp at h

/-- A read-modify-write completes when its three accesses do (R141). -/
theorem readModifyWrite_of_ok {m : Mode} {s t1 t2 t3 : State} {ea : Word} {v : Byte} {op : Byte → Byte}
    (f : Byte → State → State) (h1 : resolve m s = .ok (ea, t1)) (h2 : t1.memRead ea = .ok (v, t2))
    (h3 : t2.memWrite ea (op v) = .ok t3) : readModifyWrite m s op f = .next (f v t3) := by
  simp [readModifyWrite, h1, h2, h3]

/-- What a store can do when it answers a next state (R183 to R185). -/
theorem store_next {m : Mode} {s u : State} {v : Byte} (h : store m s v = .next u) :
    ∃ ea t, resolve m s = .ok (ea, t) ∧ t.memWrite ea v = .ok u := by
  obtain ⟨⟨ea, t⟩, h1, h⟩ := proceed_next h
  obtain ⟨t3, h3, h⟩ := proceed_next h
  simp only [Host.Outcome.next.injEq] at h
  exact ⟨ea, t, h1, by rw [h3, h]⟩

/-- A store completes when its address resolves and its write succeeds. -/
theorem store_of_ok {m : Mode} {s t u : State} {ea : Word} {v : Byte} (h1 : resolve m s = .ok (ea, t))
    (h2 : t.memWrite ea v = .ok u) : store m s v = .next u := by
  simp [store, h1, h2]

end Sys2Proof.Machine
end

