-- ==== Sys2Proof/Laws/Instr.lean ====
section
/-! SUPPORT. One equation per mnemonic: what `exec` is for every opcode of it, at whatever operand it has. -/

namespace Sys2Proof.Machine

variable {i : Instr} {m : Mode} {s : State}

theorem exec_adc (h : i.mnemonic = .ADC) (ho : i.operand = .mode m) : exec i s = adc m s := by
  cases i <;> first | (cases h; done) | (cases ho; done) | (cases ho; rfl)

theorem exec_sbc (h : i.mnemonic = .SBC) (ho : i.operand = .mode m) : exec i s = sbc m s := by
  cases i <;> first | (cases h; done) | (cases ho; done) | (cases ho; rfl)

theorem exec_cmp (h : i.mnemonic = .CMP) (ho : i.operand = .mode m) : exec i s = cmp m s := by
  cases i <;> first | (cases h; done) | (cases ho; done) | (cases ho; rfl)

theorem exec_cpx (h : i.mnemonic = .CPX) (ho : i.operand = .mode m) : exec i s = cpx m s := by
  cases i <;> first | (cases h; done) | (cases ho; done) | (cases ho; rfl)

theorem exec_cpy (h : i.mnemonic = .CPY) (ho : i.operand = .mode m) : exec i s = cpy m s := by
  cases i <;> first | (cases h; done) | (cases ho; done) | (cases ho; rfl)

theorem exec_and (h : i.mnemonic = .AND) (ho : i.operand = .mode m) : exec i s = andA m s := by
  cases i <;> first | (cases h; done) | (cases ho; done) | (cases ho; rfl)

theorem exec_ora (h : i.mnemonic = .ORA) (ho : i.operand = .mode m) : exec i s = oraA m s := by
  cases i <;> first | (cases h; done) | (cases ho; done) | (cases ho; rfl)

theorem exec_eor (h : i.mnemonic = .EOR) (ho : i.operand = .mode m) : exec i s = eorA m s := by
  cases i <;> first | (cases h; done) | (cases ho; done) | (cases ho; rfl)

theorem exec_asl (h : i.mnemonic = .ASL) (ho : i.operand = .mode m) : exec i s = aslMem m s := by
  cases i <;> first | (cases h; done) | (cases ho; done) | (cases ho; rfl)

theorem exec_lsr (h : i.mnemonic = .LSR) (ho : i.operand = .mode m) : exec i s = lsrMem m s := by
  cases i <;> first | (cases h; done) | (cases ho; done) | (cases ho; rfl)

theorem exec_rol (h : i.mnemonic = .ROL) (ho : i.operand = .mode m) : exec i s = rolMem m s := by
  cases i <;> first | (cases h; done) | (cases ho; done) | (cases ho; rfl)

theorem exec_ror (h : i.mnemonic = .ROR) (ho : i.operand = .mode m) : exec i s = rorMem m s := by
  cases i <;> first | (cases h; done) | (cases ho; done) | (cases ho; rfl)

theorem exec_inc (h : i.mnemonic = .INC) (ho : i.operand = .mode m) : exec i s = incMem m s := by
  cases i <;> first | (cases h; done) | (cases ho; done) | (cases ho; rfl)

theorem exec_dec (h : i.mnemonic = .DEC) (ho : i.operand = .mode m) : exec i s = decMem m s := by
  cases i <;> first | (cases h; done) | (cases ho; done) | (cases ho; rfl)

theorem exec_bit (h : i.mnemonic = .BIT) (ho : i.operand = .mode m) : exec i s = bitA m s := by
  cases i <;> first | (cases h; done) | (cases ho; done) | (cases ho; rfl)

theorem exec_jmp (h : i.mnemonic = .JMP) (ho : i.operand = .mode m) : exec i s = jmp m s := by
  cases i <;> first | (cases h; done) | (cases ho; done) | (cases ho; rfl)

theorem exec_lda (h : i.mnemonic = .LDA) (ho : i.operand = .mode m) : exec i s = lda m s := by
  cases i <;> first | (cases h; done) | (cases ho; done) | (cases ho; rfl)

theorem exec_ldx (h : i.mnemonic = .LDX) (ho : i.operand = .mode m) : exec i s = ldx m s := by
  cases i <;> first | (cases h; done) | (cases ho; done) | (cases ho; rfl)

theorem exec_ldy (h : i.mnemonic = .LDY) (ho : i.operand = .mode m) : exec i s = ldy m s := by
  cases i <;> first | (cases h; done) | (cases ho; done) | (cases ho; rfl)

theorem exec_sta (h : i.mnemonic = .STA) (ho : i.operand = .mode m) : exec i s = store m s s.a := by
  cases i <;> first | (cases h; done) | (cases ho; done) | (cases ho; rfl)

theorem exec_stx (h : i.mnemonic = .STX) (ho : i.operand = .mode m) : exec i s = store m s s.x := by
  cases i <;> first | (cases h; done) | (cases ho; done) | (cases ho; rfl)

theorem exec_sty (h : i.mnemonic = .STY) (ho : i.operand = .mode m) : exec i s = store m s s.y := by
  cases i <;> first | (cases h; done) | (cases ho; done) | (cases ho; rfl)

end Sys2Proof.Machine
end

