-- ==== Sys2Proof/Laws/Exec.lean ====
section
/-! SUPPORT. Everything an instruction that goes on to a next state can have done, said once for all of them: a proof over
every instruction takes `exec_done` apart and needs no case for each opcode. -/

namespace Sys2Proof.Machine

/-- What the instructions that read an operand byte do with it (R121 to R128, R139, R180 to R182). -/
def operandBody : Mnemonic → Option (Byte → State → State)
  | .ADC => some fun v s => s.addWithCarry v
  | .SBC => some fun v s => s.addWithCarry (~~~v)
  | .CMP => some fun v s => s.compare s.a v
  | .CPX => some fun v s => s.compare s.x v
  | .CPY => some fun v s => s.compare s.y v
  | .AND => some fun v s => s.loadA (s.a &&& v)
  | .ORA => some fun v s => s.loadA (s.a ||| v)
  | .EOR => some fun v s => s.loadA (s.a ^^^ v)
  | .BIT => some fun v s => s.bitTest v
  | .LDA => some fun v s => s.loadA v
  | .LDX => some fun v s => s.loadX v
  | .LDY => some fun v s => s.loadY v
  | _ => none

/-- The byte a read-modify-write stores, from the old carry and the byte read (R129 to R134). -/
def modifiedByte : Mnemonic → Option (Bool → Byte → Byte)
  | .ASL => some fun _ v => aslByte v
  | .LSR => some fun _ v => lsrByte v
  | .ROL => some rolByte
  | .ROR => some rorByte
  | .INC => some fun _ v => v + 1#8
  | .DEC => some fun _ v => v - 1#8
  | _ => none

/-- The carry out of a shift or rotate (R129 to R132); `INC` and `DEC` have none. -/
def carryOut : Mnemonic → Option (Byte → Bool)
  | .ASL => some fun v => bitOf v 7
  | .LSR => some fun v => bitOf v 0
  | .ROL => some fun v => bitOf v 7
  | .ROR => some fun v => bitOf v 0
  | _ => none

/-- The flags of a read-modify-write: from the carry out, if there is one, and the byte stored. -/
def State.setModified (s : State) (out : Option Bool) (r : Byte) : State :=
  match out with
  | some b => s.setShift b r
  | none => s.setZN r

/-- The register a store writes to memory (R183 to R185). -/
def storedRegister : Mnemonic → Option (State → Byte)
  | .STA => some State.a
  | .STX => some State.x
  | .STY => some State.y
  | _ => none

/-- What the instructions that use the CPU alone do: no bus operation, `PC` left where the fetch put it (`BRK` skips its
padding). -/
def registerBody : Instr → Option (State → State)
  | .aslAcc => some fun s => s.shiftA (bitOf s.a 7) (aslByte s.a)
  | .lsrAcc => some fun s => s.shiftA (bitOf s.a 0) (lsrByte s.a)
  | .rolAcc => some fun s => s.shiftA (bitOf s.a 7) (rolByte (s.flag .C) s.a)
  | .rorAcc => some fun s => s.shiftA (bitOf s.a 0) (rorByte (s.flag .C) s.a)
  | .inx => some fun s => s.loadX (s.x + 1#8)
  | .dex => some fun s => s.loadX (s.x - 1#8)
  | .iny => some fun s => s.loadY (s.y + 1#8)
  | .dey => some fun s => s.loadY (s.y - 1#8)
  | .tax => some fun s => s.loadX s.a
  | .tay => some fun s => s.loadY s.a
  | .txa => some fun s => s.loadA s.x
  | .tya => some fun s => s.loadA s.y
  | .tsx => some fun s => s.loadX s.sp
  | .txs => some fun s => { s with sp := s.x }
  | .clc => some fun s => s.setFlag .C false
  | .sec => some fun s => s.setFlag .C true
  | .cli => some fun s => s.setFlag .I false
  | .sei => some fun s => s.setFlag .I true
  | .clv => some fun s => s.setFlag .V false
  | .cld => some fun s => s.setFlag .D false
  | .sed => some fun s => s.setFlag .D true
  | .nop => some id
  | .unassigned _ => some id
  | .brk => some fun s => { s with pc := s.pc + 1#16 }
  | .hlt => some fun s => { s with halted := true }
  | _ => none

/-- `i` run in `s` can end in the given state: one constructor for each shape of instruction. -/
inductive Done (i : Instr) (s : State) : State → Prop where
  | operand {m : Mode} {f : Byte → State → State} {v : Byte} {t : State} (ho : i.operand = .mode m)
      (hf : operandBody i.mnemonic = some f) (hr : readOperand m s = .ok (v, t)) : Done i s (f v t)
  | modify {m : Mode} {op : Bool → Byte → Byte} {ea : Word} {v : Byte} {t1 t2 t3 : State} (ho : i.operand = .mode m)
      (hop : modifiedByte i.mnemonic = some op) (h1 : resolve m s = .ok (ea, t1)) (h2 : t1.memRead ea = .ok (v, t2))
      (h3 : t2.memWrite ea (op (s.flag .C) v) = .ok t3) :
      Done i s (t3.setModified ((carryOut i.mnemonic).map fun out => out v) (op (s.flag .C) v))
  | store {m : Mode} {r : State → Byte} {ea : Word} {t u : State} (ho : i.operand = .mode m)
      (hr : storedRegister i.mnemonic = some r) (h1 : resolve m s = .ok (ea, t)) (h2 : t.memWrite ea (r s) = .ok u) :
      Done i s u
  | register {f : State → State} (hf : registerBody i = some f) : Done i s (f s)
  | branch {rr : Byte} {f : Flag} {b : Bool} (ho : i.operand = .relative rr)
      (hc : branchCondition i.mnemonic = some (f, b)) :
      Done i s (if s.flag f = b then { s with pc := s.branchTarget rr } else s)
  | jump {m : Mode} {ea : Word} {t : State} (hm : i.mnemonic = .JMP) (ho : i.operand = .mode m)
      (h1 : resolve m s = .ok (ea, t)) : Done i s { t with pc := ea }
  | call {w : Word} {t u : State} (hw : i = .jsr w)
      (h1 : ({ s with lea := w } : State).push8 (hi (s.pc - 1#16)) = .ok t)
      (h2 : t.push8 (lo (s.pc - 1#16)) = .ok u) : Done i s { u with pc := w }
  | ret {l h : Byte} {t u : State} (hi : i = .rts) (h1 : s.pull8 = .ok (l, t)) (h2 : t.pull8 = .ok (h, u)) :
      Done i s { u with pc := joinWord h l + 1#16 }
  | retInterrupt {b l h : Byte} {t u v : State} (hi : i = .rti) (h1 : s.pull8 = .ok (b, t))
      (h2 : (t.setStatus b).pull8 = .ok (l, u)) (h3 : u.pull8 = .ok (h, v)) :
      Done i s { v with pc := joinWord h l }
  | pushA {t : State} (hi : i = .pha) (h1 : s.push8 s.a = .ok t) : Done i s t
  | pushStatus {t : State} (hi : i = .php) (h1 : s.push8 s.status = .ok t) : Done i s t
  | pullA {b : Byte} {t : State} (hi : i = .pla) (h1 : s.pull8 = .ok (b, t)) : Done i s (t.loadA b)
  | pullStatus {b : Byte} {t : State} (hi : i = .plp) (h1 : s.pull8 = .ok (b, t)) : Done i s (t.setStatus b)

variable {i : Instr} {s t : State}

theorem done_operand {m : Mode} {f : Byte → State → State} (ho : i.operand = .mode m)
    (hf : operandBody i.mnemonic = some f) (he : exec i s = withOperand m s f) (h : exec i s = .next t) :
    Done i s t := by
  rw [he] at h
  obtain ⟨v, u, h1, rfl⟩ := withOperand_next h
  exact .operand ho hf h1

theorem done_modify {m : Mode} {op : Bool → Byte → Byte} (ho : i.operand = .mode m)
    (hop : modifiedByte i.mnemonic = some op)
    (he : exec i s = readModifyWrite m s (op (s.flag .C)) fun v t =>
      t.setModified ((carryOut i.mnemonic).map fun out => out v) (op (s.flag .C) v))
    (h : exec i s = .next t) : Done i s t := by
  rw [he] at h
  obtain ⟨ea, t1, v, t2, t3, h1, h2, h3, rfl⟩ := readModifyWrite_next h
  exact .modify ho hop h1 h2 h3

theorem done_store {m : Mode} {r : State → Byte} (ho : i.operand = .mode m) (hr : storedRegister i.mnemonic = some r)
    (he : exec i s = store m s (r s)) (h : exec i s = .next t) : Done i s t := by
  rw [he] at h
  obtain ⟨ea, u, h1, h2⟩ := store_next h
  exact .store ho hr h1 h2

theorem done_register {f : State → State} (hf : registerBody i = some f) (he : exec i s = .next (f s))
    (h : exec i s = .next t) : Done i s t := by
  rw [he] at h
  cases h
  exact .register hf

theorem done_branch {rr : Byte} {f : Flag} {b : Bool} (ho : i.operand = .relative rr)
    (hc : branchCondition i.mnemonic = some (f, b)) (he : exec i s = branch (s.flag f == b) rr s)
    (h : exec i s = .next t) : Done i s t := by
  rw [he] at h
  cases h
  simpa only [beq_iff_eq] using Done.branch ho hc

theorem done_jump {m : Mode} (hm : i.mnemonic = .JMP) (ho : i.operand = .mode m) (h : exec i s = .next t) :
    Done i s t := by
  rw [exec_jmp hm ho] at h
  obtain ⟨⟨ea, u⟩, h1, h2⟩ := proceed_next h
  cases h2
  exact .jump hm ho h1

theorem jmp_leaves {m : Mode} {kind : BusError} {left : Aftermath} (h : jmp m s = .fault (.busError kind left)) :
    s.Leaves left := by
  rcases proceed_fault h with h | ⟨_, -, h⟩
  · exact resolve_leaves h
  · simp at h

/-- A pull leaves the devices of the state before it to a later error. -/
theorem State.pull8_trans_leaves {v : Byte} {left : Aftermath} (h : s.pull8 = .ok (v, t)) (g : t.Leaves left) :
    s.Leaves left := ((State.pull8_quiet h).keeps.trans_leaves g).congr rfl rfl

/-- Everything `exec` can do when it answers a next state. -/
theorem exec_done (h : exec i s = .next t) : Done i s t := by
  cases i with
  | adcImm nn => exact done_operand rfl rfl rfl h
  | adcZp nn => exact done_operand rfl rfl rfl h
  | adcZpx nn => exact done_operand rfl rfl rfl h
  | adcAbs w => exact done_operand rfl rfl rfl h
  | adcAbx w => exact done_operand rfl rfl rfl h
  | adcAby w => exact done_operand rfl rfl rfl h
  | adcIzx nn => exact done_operand rfl rfl rfl h
  | adcIzy nn => exact done_operand rfl rfl rfl h
  | sbcImm nn => exact done_operand rfl rfl rfl h
  | sbcZp nn => exact done_operand rfl rfl rfl h
  | sbcZpx nn => exact done_operand rfl rfl rfl h
  | sbcAbs w => exact done_operand rfl rfl rfl h
  | sbcAbx w => exact done_operand rfl rfl rfl h
  | sbcAby w => exact done_operand rfl rfl rfl h
  | sbcIzx nn => exact done_operand rfl rfl rfl h
  | sbcIzy nn => exact done_operand rfl rfl rfl h
  | cmpImm nn => exact done_operand rfl rfl rfl h
  | cmpZp nn => exact done_operand rfl rfl rfl h
  | cmpZpx nn => exact done_operand rfl rfl rfl h
  | cmpAbs w => exact done_operand rfl rfl rfl h
  | cmpAbx w => exact done_operand rfl rfl rfl h
  | cmpAby w => exact done_operand rfl rfl rfl h
  | cmpIzx nn => exact done_operand rfl rfl rfl h
  | cmpIzy nn => exact done_operand rfl rfl rfl h
  | cpxImm nn => exact done_operand rfl rfl rfl h
  | cpxZp nn => exact done_operand rfl rfl rfl h
  | cpxAbs w => exact done_operand rfl rfl rfl h
  | cpyImm nn => exact done_operand rfl rfl rfl h
  | cpyZp nn => exact done_operand rfl rfl rfl h
  | cpyAbs w => exact done_operand rfl rfl rfl h
  | andImm nn => exact done_operand rfl rfl rfl h
  | andZp nn => exact done_operand rfl rfl rfl h
  | andZpx nn => exact done_operand rfl rfl rfl h
  | andAbs w => exact done_operand rfl rfl rfl h
  | andAbx w => exact done_operand rfl rfl rfl h
  | andAby w => exact done_operand rfl rfl rfl h
  | andIzx nn => exact done_operand rfl rfl rfl h
  | andIzy nn => exact done_operand rfl rfl rfl h
  | oraImm nn => exact done_operand rfl rfl rfl h
  | oraZp nn => exact done_operand rfl rfl rfl h
  | oraZpx nn => exact done_operand rfl rfl rfl h
  | oraAbs w => exact done_operand rfl rfl rfl h
  | oraAbx w => exact done_operand rfl rfl rfl h
  | oraAby w => exact done_operand rfl rfl rfl h
  | oraIzx nn => exact done_operand rfl rfl rfl h
  | oraIzy nn => exact done_operand rfl rfl rfl h
  | eorImm nn => exact done_operand rfl rfl rfl h
  | eorZp nn => exact done_operand rfl rfl rfl h
  | eorZpx nn => exact done_operand rfl rfl rfl h
  | eorAbs w => exact done_operand rfl rfl rfl h
  | eorAbx w => exact done_operand rfl rfl rfl h
  | eorAby w => exact done_operand rfl rfl rfl h
  | eorIzx nn => exact done_operand rfl rfl rfl h
  | eorIzy nn => exact done_operand rfl rfl rfl h
  | aslAcc => exact done_register rfl rfl h
  | aslZp nn => exact done_modify rfl rfl rfl h
  | aslZpx nn => exact done_modify rfl rfl rfl h
  | aslAbs w => exact done_modify rfl rfl rfl h
  | aslAbx w => exact done_modify rfl rfl rfl h
  | lsrAcc => exact done_register rfl rfl h
  | lsrZp nn => exact done_modify rfl rfl rfl h
  | lsrZpx nn => exact done_modify rfl rfl rfl h
  | lsrAbs w => exact done_modify rfl rfl rfl h
  | lsrAbx w => exact done_modify rfl rfl rfl h
  | rolAcc => exact done_register rfl rfl h
  | rolZp nn => exact done_modify rfl rfl rfl h
  | rolZpx nn => exact done_modify rfl rfl rfl h
  | rolAbs w => exact done_modify rfl rfl rfl h
  | rolAbx w => exact done_modify rfl rfl rfl h
  | rorAcc => exact done_register rfl rfl h
  | rorZp nn => exact done_modify rfl rfl rfl h
  | rorZpx nn => exact done_modify rfl rfl rfl h
  | rorAbs w => exact done_modify rfl rfl rfl h
  | rorAbx w => exact done_modify rfl rfl rfl h
  | incZp nn => exact done_modify rfl rfl rfl h
  | incZpx nn => exact done_modify rfl rfl rfl h
  | incAbs w => exact done_modify rfl rfl rfl h
  | incAbx w => exact done_modify rfl rfl rfl h
  | decZp nn => exact done_modify rfl rfl rfl h
  | decZpx nn => exact done_modify rfl rfl rfl h
  | decAbs w => exact done_modify rfl rfl rfl h
  | decAbx w => exact done_modify rfl rfl rfl h
  | inx => exact done_register rfl rfl h
  | dex => exact done_register rfl rfl h
  | iny => exact done_register rfl rfl h
  | dey => exact done_register rfl rfl h
  | bitZp nn => exact done_operand rfl rfl rfl h
  | bitAbs w => exact done_operand rfl rfl rfl h
  | bpl rr => exact done_branch rfl rfl (by rw [beq_false]; rfl) h
  | bmi rr => exact done_branch rfl rfl (by rw [beq_true]; rfl) h
  | bvc rr => exact done_branch rfl rfl (by rw [beq_false]; rfl) h
  | bvs rr => exact done_branch rfl rfl (by rw [beq_true]; rfl) h
  | bcc rr => exact done_branch rfl rfl (by rw [beq_false]; rfl) h
  | bcs rr => exact done_branch rfl rfl (by rw [beq_true]; rfl) h
  | bne rr => exact done_branch rfl rfl (by rw [beq_false]; rfl) h
  | beq rr => exact done_branch rfl rfl (by rw [beq_true]; rfl) h
  | jmpAbs w => exact done_jump rfl rfl h
  | jmpInd w => exact done_jump rfl rfl h
  | jsr w =>
    obtain ⟨_, h2, h⟩ := proceed_next h
    obtain ⟨_, h3, h⟩ := proceed_next h
    cases h
    exact .call rfl h2 h3
  | rts =>
    obtain ⟨_, h1, h⟩ := proceed_next h
    obtain ⟨_, h2, h⟩ := proceed_next h
    cases h
    exact .ret rfl h1 h2
  | rti =>
    obtain ⟨_, h1, h⟩ := proceed_next h
    obtain ⟨_, h2, h⟩ := proceed_next h
    obtain ⟨_, h3, h⟩ := proceed_next h
    cases h
    exact .retInterrupt rfl h1 h2 h3
  | brk => exact done_register rfl rfl h
  | hlt => exact done_register rfl rfl h
  | pha =>
    obtain ⟨_, h1, h⟩ := proceed_next h
    cases h
    exact .pushA rfl h1
  | pla =>
    obtain ⟨_, h1, h⟩ := proceed_next h
    cases h
    exact .pullA rfl h1
  | php =>
    obtain ⟨_, h1, h⟩ := proceed_next h
    cases h
    exact .pushStatus rfl h1
  | plp =>
    obtain ⟨_, h1, h⟩ := proceed_next h
    cases h
    exact .pullStatus rfl h1
  | txs => exact done_register rfl rfl h
  | tsx => exact done_register rfl rfl h
  | ldaImm nn => exact done_operand rfl rfl rfl h
  | ldaZp nn => exact done_operand rfl rfl rfl h
  | ldaZpx nn => exact done_operand rfl rfl rfl h
  | ldaAbs w => exact done_operand rfl rfl rfl h
  | ldaAbx w => exact done_operand rfl rfl rfl h
  | ldaAby w => exact done_operand rfl rfl rfl h
  | ldaIzx nn => exact done_operand rfl rfl rfl h
  | ldaIzy nn => exact done_operand rfl rfl rfl h
  | ldxImm nn => exact done_operand rfl rfl rfl h
  | ldxZp nn => exact done_operand rfl rfl rfl h
  | ldxZpy nn => exact done_operand rfl rfl rfl h
  | ldxAbs w => exact done_operand rfl rfl rfl h
  | ldxAby w => exact done_operand rfl rfl rfl h
  | ldyImm nn => exact done_operand rfl rfl rfl h
  | ldyZp nn => exact done_operand rfl rfl rfl h
  | ldyZpx nn => exact done_operand rfl rfl rfl h
  | ldyAbs w => exact done_operand rfl rfl rfl h
  | ldyAbx w => exact done_operand rfl rfl rfl h
  | staZp nn => exact done_store rfl rfl rfl h
  | staZpx nn => exact done_store rfl rfl rfl h
  | staAbs w => exact done_store rfl rfl rfl h
  | staAbx w => exact done_store rfl rfl rfl h
  | staAby w => exact done_store rfl rfl rfl h
  | staIzx nn => exact done_store rfl rfl rfl h
  | staIzy nn => exact done_store rfl rfl rfl h
  | stxZp nn => exact done_store rfl rfl rfl h
  | stxZpy nn => exact done_store rfl rfl rfl h
  | stxAbs w => exact done_store rfl rfl rfl h
  | styZp nn => exact done_store rfl rfl rfl h
  | styZpx nn => exact done_store rfl rfl rfl h
  | styAbs w => exact done_store rfl rfl rfl h
  | tax => exact done_register rfl rfl h
  | tay => exact done_register rfl rfl h
  | txa => exact done_register rfl rfl h
  | tya => exact done_register rfl rfl h
  | clc => exact done_register rfl rfl h
  | sec => exact done_register rfl rfl h
  | cli => exact done_register rfl rfl h
  | sei => exact done_register rfl rfl h
  | clv => exact done_register rfl rfl h
  | cld => exact done_register rfl rfl h
  | sed => exact done_register rfl rfl h
  | nop => exact done_register rfl rfl h
  | unassigned op => exact done_register rfl rfl h

theorem jsr_leaves {w : Word} {kind : BusError} {left : Aftermath}
    (h : exec (.jsr w) s = .fault (.busError kind left)) : s.Leaves left := by
  simp only [exec, execJsr, resolve, State.resolved, proceed_ok] at h
  refine State.Leaves.congr (s := { s with lea := w }) ?_ rfl rfl
  rcases proceed_fault h with h | ⟨_, h1, h⟩
  · exact State.push8_leaves h
  rcases proceed_fault h with h | ⟨_, -, h⟩
  · exact ((State.push8_keeps h1).trans_leaves (State.push8_leaves h)).congr rfl rfl
  · simp at h

/-- What an instruction with an addressing mode leaves of the devices when it ends in an error. -/
theorem exec_mode_leaves {m : Mode} {kind : BusError} {left : Aftermath} (ho : i.operand = .mode m)
    (h : exec i s = .fault (.busError kind left)) : s.Leaves left := by
  cases hm : i.mnemonic
  case ADC => rw [exec_adc hm ho] at h; exact withOperand_leaves h
  case SBC => rw [exec_sbc hm ho] at h; exact withOperand_leaves h
  case CMP => rw [exec_cmp hm ho] at h; exact withOperand_leaves h
  case CPX => rw [exec_cpx hm ho] at h; exact withOperand_leaves h
  case CPY => rw [exec_cpy hm ho] at h; exact withOperand_leaves h
  case AND => rw [exec_and hm ho] at h; exact withOperand_leaves h
  case ORA => rw [exec_ora hm ho] at h; exact withOperand_leaves h
  case EOR => rw [exec_eor hm ho] at h; exact withOperand_leaves h
  case BIT => rw [exec_bit hm ho] at h; exact withOperand_leaves h
  case LDA => rw [exec_lda hm ho] at h; exact withOperand_leaves h
  case LDX => rw [exec_ldx hm ho] at h; exact withOperand_leaves h
  case LDY => rw [exec_ldy hm ho] at h; exact withOperand_leaves h
  case ASL => rw [exec_asl hm ho] at h; exact readModifyWrite_leaves h
  case LSR => rw [exec_lsr hm ho] at h; exact readModifyWrite_leaves h
  case ROL => rw [exec_rol hm ho] at h; exact readModifyWrite_leaves h
  case ROR => rw [exec_ror hm ho] at h; exact readModifyWrite_leaves h
  case INC => rw [exec_inc hm ho] at h; exact readModifyWrite_leaves h
  case DEC => rw [exec_dec hm ho] at h; exact readModifyWrite_leaves h
  case STA => rw [exec_sta hm ho] at h; exact store_leaves h
  case STX => rw [exec_stx hm ho] at h; exact store_leaves h
  case STY => rw [exec_sty hm ho] at h; exact store_leaves h
  case JMP => rw [exec_jmp hm ho] at h; exact jmp_leaves h
  case JSR =>
    cases i <;> first | (cases hm; done) | exact jsr_leaves h
  all_goals (cases i <;> first | (cases hm; done) | cases ho)

/-- What an instruction that ends in an error leaves of the devices, whatever it is (R211 item 1). -/
theorem exec_leaves {kind : BusError} {left : Aftermath} (h : exec i s = .fault (.busError kind left)) :
    s.Leaves left := by
  by_cases hi : i ∈ [Instr.rts, .rti, .pha, .php, .pla, .plp]
  · simp only [List.mem_cons, List.not_mem_nil, or_false] at hi
    rcases hi with rfl | rfl | rfl | rfl | rfl | rfl
    · rcases proceed_fault h with h | ⟨_, h1, h⟩
      · exact State.pull8_leaves h
      rcases proceed_fault h with h | ⟨_, -, h⟩
      · exact State.pull8_trans_leaves h1 (State.pull8_leaves h)
      · simp at h
    · rcases proceed_fault h with h | ⟨_, h1, h⟩
      · exact State.pull8_leaves h
      rcases proceed_fault h with h | ⟨_, h2, h⟩
      · exact State.pull8_trans_leaves h1 ((State.pull8_leaves h).congr rfl rfl)
      rcases proceed_fault h with h | ⟨_, -, h⟩
      · exact State.pull8_trans_leaves h1 ((State.pull8_trans_leaves h2 (State.pull8_leaves h)).congr rfl rfl)
      · simp at h
    all_goals
      rcases proceed_fault h with h | ⟨_, -, h⟩
      · first | exact State.push8_leaves h | exact State.pull8_leaves h
      · simp at h
  · cases ho : i.operand with
    | mode m => exact exec_mode_leaves ho h
    | _ => cases i <;> first | (cases ho; done) | cases h | simp at hi

/-- Whatever an instruction can have done, it does: the converse of `exec_done`. -/
theorem exec_of_done (h : Done i s t) : exec i s = .next t := by
  cases h with
  | operand ho hf hr =>
    cases hm : i.mnemonic <;> rw [hm] at hf <;> cases hf
    · rw [exec_adc hm ho]; exact withOperand_of_ok _ hr
    · rw [exec_sbc hm ho]; exact withOperand_of_ok _ hr
    · rw [exec_cmp hm ho]; exact withOperand_of_ok _ hr
    · rw [exec_cpx hm ho]; exact withOperand_of_ok _ hr
    · rw [exec_cpy hm ho]; exact withOperand_of_ok _ hr
    · rw [exec_and hm ho]; exact withOperand_of_ok _ hr
    · rw [exec_ora hm ho]; exact withOperand_of_ok _ hr
    · rw [exec_eor hm ho]; exact withOperand_of_ok _ hr
    · rw [exec_bit hm ho]; exact withOperand_of_ok _ hr
    · rw [exec_lda hm ho]; exact withOperand_of_ok _ hr
    · rw [exec_ldx hm ho]; exact withOperand_of_ok _ hr
    · rw [exec_ldy hm ho]; exact withOperand_of_ok _ hr
  | modify ho hop h1 h2 h3 =>
    cases hm : i.mnemonic <;> rw [hm] at hop <;> cases hop
    · rw [exec_asl hm ho]; exact readModifyWrite_of_ok _ h1 h2 h3
    · rw [exec_lsr hm ho]; exact readModifyWrite_of_ok _ h1 h2 h3
    · rw [exec_rol hm ho]; exact readModifyWrite_of_ok _ h1 h2 h3
    · rw [exec_ror hm ho]; exact readModifyWrite_of_ok _ h1 h2 h3
    · rw [exec_inc hm ho]; exact readModifyWrite_of_ok _ h1 h2 h3
    · rw [exec_dec hm ho]; exact readModifyWrite_of_ok _ h1 h2 h3
  | store ho hr h1 h2 =>
    cases hm : i.mnemonic <;> rw [hm] at hr <;> cases hr
    · rw [exec_sta hm ho]; exact store_of_ok h1 h2
    · rw [exec_stx hm ho]; exact store_of_ok h1 h2
    · rw [exec_sty hm ho]; exact store_of_ok h1 h2
  | register hf => cases i <;> cases hf <;> rfl
  | branch ho hc =>
    cases i <;> cases ho <;> cases hc <;>
      simp only [exec, execBpl, execBmi, execBvc, execBvs, execBcc, execBcs, execBne, execBeq, branch,
        Bool.not_eq_eq_eq_not, Bool.not_true]
  | jump hm ho h1 => rw [exec_jmp hm ho]; simp [jmp, h1]
  | call hw h1 h2 =>
    subst hw
    have h2 := h2
    simp only [exec, execJsr, resolve, State.resolved, proceed_ok, h1, h2]
  | ret hi h1 h2 => subst hi; simp [exec, execRts, h1, h2]
  | retInterrupt hi h1 h2 h3 => subst hi; simp [exec, execRti, h1, h2, h3]
  | pushA hi h1 => subst hi; simp [exec, execPha, h1]
  | pushStatus hi h1 => subst hi; simp [exec, execPhp, h1]
  | pullA hi h1 => subst hi; simp [exec, execPla, h1]
  | pullStatus hi h1 => subst hi; simp [exec, execPlp, h1]

end Sys2Proof.Machine
end

