-- ==== Sys2Proof/Laws/Fetch.lean ====
section
/-! SUPPORT. What fetching an instruction can do: it stores nothing, moves `PC`, and an error leaves the devices as bus
activity does (R62, R101, R103). -/

namespace Sys2Proof.Machine

/-- Bus activity leaves the same whatever `PC` holds. -/
theorem State.Quiet.setPC {s t : State} (h : s.Quiet t) (w : Word) :
    ({ s with pc := w } : State).Quiet { t with pc := w } := by
  refine ⟨?_, h.shapes, h.wf⟩
  rw [h.cpu]

/-- Bus activity after `PC` has moved. -/
theorem State.Quiet.thenPC {s t u : State} {w : Word} (h : ({ s with pc := w } : State).Quiet t)
    (g : ({ t with pc := u.pc } : State).Quiet u) : ({ s with pc := u.pc } : State).Quiet u :=
  (h.setPC u.pc).trans g

theorem State.fetch8_quiet {s t : State} {v : Byte} (h : s.fetch8 = .ok (v, t)) :
    ({ s with pc := s.pc + 1#16 } : State).Quiet t := by
  unfold State.fetch8 at h
  cases hm : s.memRead s.pc with
  | error e => simp [hm, Except.map] at h
  | ok p =>
    have q := State.memRead_quiet (v := p.1) (t := p.2) hm
    simp only [hm, Except.map, Except.ok.injEq, Prod.mk.injEq] at h
    rw [← h.2, q.keeps.pc]
    exact q.setPC _

theorem State.fetch16_quiet {s t : State} {w : Word} (h : s.fetch16 = .ok (w, t)) :
    ({ s with pc := s.pc + 2#16 } : State).Quiet t := by
  unfold State.fetch16 at h
  cases hm : s.memReadWord s.pc with
  | error e => simp [hm, Except.map] at h
  | ok p =>
    have q := State.memReadWord_quiet (w := p.1) (t := p.2) hm
    simp only [hm, Except.map, Except.ok.injEq, Prod.mk.injEq] at h
    rw [← h.2, q.keeps.pc]
    exact q.setPC _

theorem State.fetch8_error {s : State} {e : Fault} (h : s.fetch8 = .error e) : s.memRead s.pc = .error e := by
  unfold State.fetch8 at h
  cases hm : s.memRead s.pc with
  | error e' => simpa [hm, Except.map] using h
  | ok p => simp [hm, Except.map] at h

theorem State.fetch16_error {s : State} {e : Fault} (h : s.fetch16 = .error e) :
    s.memReadWord s.pc = .error e := by
  unfold State.fetch16 at h
  cases hm : s.memReadWord s.pc with
  | error e' => simpa [hm, Except.map] using h
  | ok p => simp [hm, Except.map] at h

/-- What the operand fetch can do when it answers an instruction: at most one bus read. -/
theorem fetchOperand_quiet {l : Layout} {i : Instr} {s t : State} (h : fetchOperand l s = .ok (i, t)) :
    ({ s with pc := t.pc } : State).Quiet t := by
  cases l with
  | bare j =>
    simp only [fetchOperand, Except.ok.injEq, Prod.mk.injEq] at h
    obtain ⟨-, rfl⟩ := h
    exact .rfl
  | padded j =>
    simp only [fetchOperand, Except.ok.injEq, Prod.mk.injEq] at h
    obtain ⟨-, rfl⟩ := h
    exact .rfl
  | byte k =>
    simp only [fetchOperand] at h
    cases hf : s.fetch8 with
    | error e => simp [hf, Except.map] at h
    | ok p =>
      simp only [hf, Except.map, Except.ok.injEq, Prod.mk.injEq] at h
      rw [← h.2]
      exact (State.fetch8_quiet (v := p.1) (t := p.2) hf).setPC _
  | word k =>
    simp only [fetchOperand] at h
    cases hf : s.fetch16 with
    | error e => simp [hf, Except.map] at h
    | ok p =>
      simp only [hf, Except.map, Except.ok.injEq, Prod.mk.injEq] at h
      rw [← h.2]
      exact (State.fetch16_quiet (w := p.1) (t := p.2) hf).setPC _

/-- What an error of the operand fetch leaves of the devices. -/
theorem fetchOperand_leaves {l : Layout} {s : State} {kind : BusError} {left : Aftermath}
    (h : fetchOperand l s = .error (.busError kind left)) : s.Leaves left := by
  cases l with
  | bare j => simp [fetchOperand] at h
  | padded j => simp [fetchOperand] at h
  | byte k =>
    simp only [fetchOperand] at h
    cases hf : s.fetch8 with
    | error e =>
      simp only [hf, Except.map, Except.error.injEq] at h
      exact State.memRead_leaves (State.fetch8_error (h ▸ hf))
    | ok p => simp [hf, Except.map] at h
  | word k =>
    simp only [fetchOperand] at h
    cases hf : s.fetch16 with
    | error e =>
      simp only [hf, Except.map, Except.error.injEq] at h
      exact State.memReadWord_leaves (State.fetch16_error (h ▸ hf))
    | ok p => simp [hf, Except.map] at h

/-- What a fetch can do when it answers an instruction: it stores nothing and moves `PC`. -/
theorem fetch_quiet {s t : State} {i : Instr} (h : fetch s = .ok (i, t)) :
    ({ s with pc := t.pc } : State).Quiet t := by
  unfold fetch at h
  cases hf : s.fetch8 with
  | error e => simp [hf, Except.bind] at h
  | ok p =>
    simp only [hf, Except.bind] at h
    exact (State.fetch8_quiet (v := p.1) (t := p.2) hf).thenPC (fetchOperand_quiet h)

/-- What an error of a fetch leaves of the devices (R211 item 1). -/
theorem fetch_leaves {s : State} {kind : BusError} {left : Aftermath} (h : fetch s = .error (.busError kind left)) :
    s.Leaves left := by
  unfold fetch at h
  cases hf : s.fetch8 with
  | error e =>
    simp only [hf, Except.bind, Except.error.injEq] at h
    exact State.memRead_leaves (State.fetch8_error (h ▸ hf))
  | ok p =>
    simp only [hf, Except.bind] at h
    have q := (State.fetch8_quiet (v := p.1) (t := p.2) hf).keeps
    exact (q.trans_leaves (fetchOperand_leaves h)).congr rfl rfl

end Sys2Proof.Machine
end

