-- ==== Sys2Proof/Laws/PerInstr.lean ====
section
/-! SUPPORT. The family `Coding`, one lemma per constructor: the layout the decoder finds for an instruction's opcode value
builds that instruction from its operand bytes (30_encoding.md R80 to R87). -/

set_option maxRecDepth 2048

namespace Sys2Proof.Laws.Coding

open Sys2Proof

/-- The layout makes `i` from `i`'s own operand bytes. -/
def Builds (l : Layout) (i : Instr) : Prop :=
  match l with
  | .bare j => j = i ∧ i.operand.bytes = []
  | .padded j => j = i ∧ i = .brk
  | .byte k => ∃ nn, k nn = i ∧ i.operand.bytes = [nn]
  | .word k => ∃ w, k w = i ∧ i.operand.bytes = [lo w, hi w]

/-- With an admissible `HALT_OPCODE`, the opcode value of a well-formed instruction finds a layout that builds it. -/
def Statement (i : Instr) : Prop :=
  ∀ halt : Byte, unassignedOpcodes.contains halt = true → i.wf halt = true → Builds (layoutOf halt (i.opcode halt)) i

/-- R87's list and R84's table share no value. -/
theorem findRow_of_unassigned : ∀ op : Byte, unassignedOpcodes.contains op = true →
    findRow op opcodeTable = none := by
  have h : unassignedOpcodes.all (fun op => (findRow op opcodeTable).isNone) = true := by decide +kernel
  intro op ho
  have := List.all_eq_true.mp h op (by simpa using ho)
  simpa using this

/-- An assigned opcode value is looked up in the table, since `HALT_OPCODE` is not one. -/
theorem layoutOf_assigned {halt op : Byte} {l : Layout} (hh : unassignedOpcodes.contains halt = true)
    (h : findRow op opcodeTable = some l) : layoutOf halt op = l := by
  have hne : op ≠ halt := by
    rintro rfl
    rw [findRow_of_unassigned op hh] at h
    cases h
  simp [layoutOf, hne, h]

/-- An assigned instruction's row of R84 decides the layout. -/
theorem of_row {i : Instr} {halt op : Byte} {l : Layout} (hop : i.opcode halt = op)
    (hrow : findRow op opcodeTable = some l) (hb : Builds l i) (hh : unassignedOpcodes.contains halt = true) :
    Builds (layoutOf halt (i.opcode halt)) i := by
  rw [hop, layoutOf_assigned hh hrow]
  exact hb

theorem adcImm (nn : Byte) : Statement (.adcImm nn) :=
  fun _ hh _ => of_row (op := 0x69) (l := .byte .adcImm) rfl rfl ⟨_, rfl, rfl⟩ hh

theorem adcZp (nn : Byte) : Statement (.adcZp nn) :=
  fun _ hh _ => of_row (op := 0x65) (l := .byte .adcZp) rfl rfl ⟨_, rfl, rfl⟩ hh

theorem adcZpx (nn : Byte) : Statement (.adcZpx nn) :=
  fun _ hh _ => of_row (op := 0x75) (l := .byte .adcZpx) rfl rfl ⟨_, rfl, rfl⟩ hh

theorem adcAbs (w : Word) : Statement (.adcAbs w) :=
  fun _ hh _ => of_row (op := 0x6D) (l := .word .adcAbs) rfl rfl ⟨_, rfl, rfl⟩ hh

theorem adcAbx (w : Word) : Statement (.adcAbx w) :=
  fun _ hh _ => of_row (op := 0x7D) (l := .word .adcAbx) rfl rfl ⟨_, rfl, rfl⟩ hh

theorem adcAby (w : Word) : Statement (.adcAby w) :=
  fun _ hh _ => of_row (op := 0x79) (l := .word .adcAby) rfl rfl ⟨_, rfl, rfl⟩ hh

theorem adcIzx (nn : Byte) : Statement (.adcIzx nn) :=
  fun _ hh _ => of_row (op := 0x61) (l := .byte .adcIzx) rfl rfl ⟨_, rfl, rfl⟩ hh

theorem adcIzy (nn : Byte) : Statement (.adcIzy nn) :=
  fun _ hh _ => of_row (op := 0x71) (l := .byte .adcIzy) rfl rfl ⟨_, rfl, rfl⟩ hh

theorem sbcImm (nn : Byte) : Statement (.sbcImm nn) :=
  fun _ hh _ => of_row (op := 0xE9) (l := .byte .sbcImm) rfl rfl ⟨_, rfl, rfl⟩ hh

theorem sbcZp (nn : Byte) : Statement (.sbcZp nn) :=
  fun _ hh _ => of_row (op := 0xE5) (l := .byte .sbcZp) rfl rfl ⟨_, rfl, rfl⟩ hh

theorem sbcZpx (nn : Byte) : Statement (.sbcZpx nn) :=
  fun _ hh _ => of_row (op := 0xF5) (l := .byte .sbcZpx) rfl rfl ⟨_, rfl, rfl⟩ hh

theorem sbcAbs (w : Word) : Statement (.sbcAbs w) :=
  fun _ hh _ => of_row (op := 0xED) (l := .word .sbcAbs) rfl rfl ⟨_, rfl, rfl⟩ hh

theorem sbcAbx (w : Word) : Statement (.sbcAbx w) :=
  fun _ hh _ => of_row (op := 0xFD) (l := .word .sbcAbx) rfl rfl ⟨_, rfl, rfl⟩ hh

theorem sbcAby (w : Word) : Statement (.sbcAby w) :=
  fun _ hh _ => of_row (op := 0xF9) (l := .word .sbcAby) rfl rfl ⟨_, rfl, rfl⟩ hh

theorem sbcIzx (nn : Byte) : Statement (.sbcIzx nn) :=
  fun _ hh _ => of_row (op := 0xE1) (l := .byte .sbcIzx) rfl rfl ⟨_, rfl, rfl⟩ hh

theorem sbcIzy (nn : Byte) : Statement (.sbcIzy nn) :=
  fun _ hh _ => of_row (op := 0xF1) (l := .byte .sbcIzy) rfl rfl ⟨_, rfl, rfl⟩ hh

theorem cmpImm (nn : Byte) : Statement (.cmpImm nn) :=
  fun _ hh _ => of_row (op := 0xC9) (l := .byte .cmpImm) rfl rfl ⟨_, rfl, rfl⟩ hh

theorem cmpZp (nn : Byte) : Statement (.cmpZp nn) :=
  fun _ hh _ => of_row (op := 0xC5) (l := .byte .cmpZp) rfl rfl ⟨_, rfl, rfl⟩ hh

theorem cmpZpx (nn : Byte) : Statement (.cmpZpx nn) :=
  fun _ hh _ => of_row (op := 0xD5) (l := .byte .cmpZpx) rfl rfl ⟨_, rfl, rfl⟩ hh

theorem cmpAbs (w : Word) : Statement (.cmpAbs w) :=
  fun _ hh _ => of_row (op := 0xCD) (l := .word .cmpAbs) rfl rfl ⟨_, rfl, rfl⟩ hh

theorem cmpAbx (w : Word) : Statement (.cmpAbx w) :=
  fun _ hh _ => of_row (op := 0xDD) (l := .word .cmpAbx) rfl rfl ⟨_, rfl, rfl⟩ hh

theorem cmpAby (w : Word) : Statement (.cmpAby w) :=
  fun _ hh _ => of_row (op := 0xD9) (l := .word .cmpAby) rfl rfl ⟨_, rfl, rfl⟩ hh

theorem cmpIzx (nn : Byte) : Statement (.cmpIzx nn) :=
  fun _ hh _ => of_row (op := 0xC1) (l := .byte .cmpIzx) rfl rfl ⟨_, rfl, rfl⟩ hh

theorem cmpIzy (nn : Byte) : Statement (.cmpIzy nn) :=
  fun _ hh _ => of_row (op := 0xD1) (l := .byte .cmpIzy) rfl rfl ⟨_, rfl, rfl⟩ hh

theorem cpxImm (nn : Byte) : Statement (.cpxImm nn) :=
  fun _ hh _ => of_row (op := 0xE0) (l := .byte .cpxImm) rfl rfl ⟨_, rfl, rfl⟩ hh

theorem cpxZp (nn : Byte) : Statement (.cpxZp nn) :=
  fun _ hh _ => of_row (op := 0xE4) (l := .byte .cpxZp) rfl rfl ⟨_, rfl, rfl⟩ hh

theorem cpxAbs (w : Word) : Statement (.cpxAbs w) :=
  fun _ hh _ => of_row (op := 0xEC) (l := .word .cpxAbs) rfl rfl ⟨_, rfl, rfl⟩ hh

theorem cpyImm (nn : Byte) : Statement (.cpyImm nn) :=
  fun _ hh _ => of_row (op := 0xC0) (l := .byte .cpyImm) rfl rfl ⟨_, rfl, rfl⟩ hh

theorem cpyZp (nn : Byte) : Statement (.cpyZp nn) :=
  fun _ hh _ => of_row (op := 0xC4) (l := .byte .cpyZp) rfl rfl ⟨_, rfl, rfl⟩ hh

theorem cpyAbs (w : Word) : Statement (.cpyAbs w) :=
  fun _ hh _ => of_row (op := 0xCC) (l := .word .cpyAbs) rfl rfl ⟨_, rfl, rfl⟩ hh

theorem andImm (nn : Byte) : Statement (.andImm nn) :=
  fun _ hh _ => of_row (op := 0x29) (l := .byte .andImm) rfl rfl ⟨_, rfl, rfl⟩ hh

theorem andZp (nn : Byte) : Statement (.andZp nn) :=
  fun _ hh _ => of_row (op := 0x25) (l := .byte .andZp) rfl rfl ⟨_, rfl, rfl⟩ hh

theorem andZpx (nn : Byte) : Statement (.andZpx nn) :=
  fun _ hh _ => of_row (op := 0x35) (l := .byte .andZpx) rfl rfl ⟨_, rfl, rfl⟩ hh

theorem andAbs (w : Word) : Statement (.andAbs w) :=
  fun _ hh _ => of_row (op := 0x2D) (l := .word .andAbs) rfl rfl ⟨_, rfl, rfl⟩ hh

theorem andAbx (w : Word) : Statement (.andAbx w) :=
  fun _ hh _ => of_row (op := 0x3D) (l := .word .andAbx) rfl rfl ⟨_, rfl, rfl⟩ hh

theorem andAby (w : Word) : Statement (.andAby w) :=
  fun _ hh _ => of_row (op := 0x39) (l := .word .andAby) rfl rfl ⟨_, rfl, rfl⟩ hh

theorem andIzx (nn : Byte) : Statement (.andIzx nn) :=
  fun _ hh _ => of_row (op := 0x21) (l := .byte .andIzx) rfl rfl ⟨_, rfl, rfl⟩ hh

theorem andIzy (nn : Byte) : Statement (.andIzy nn) :=
  fun _ hh _ => of_row (op := 0x31) (l := .byte .andIzy) rfl rfl ⟨_, rfl, rfl⟩ hh

theorem oraImm (nn : Byte) : Statement (.oraImm nn) :=
  fun _ hh _ => of_row (op := 0x09) (l := .byte .oraImm) rfl rfl ⟨_, rfl, rfl⟩ hh

theorem oraZp (nn : Byte) : Statement (.oraZp nn) :=
  fun _ hh _ => of_row (op := 0x05) (l := .byte .oraZp) rfl rfl ⟨_, rfl, rfl⟩ hh

theorem oraZpx (nn : Byte) : Statement (.oraZpx nn) :=
  fun _ hh _ => of_row (op := 0x15) (l := .byte .oraZpx) rfl rfl ⟨_, rfl, rfl⟩ hh

theorem oraAbs (w : Word) : Statement (.oraAbs w) :=
  fun _ hh _ => of_row (op := 0x0D) (l := .word .oraAbs) rfl rfl ⟨_, rfl, rfl⟩ hh

theorem oraAbx (w : Word) : Statement (.oraAbx w) :=
  fun _ hh _ => of_row (op := 0x1D) (l := .word .oraAbx) rfl rfl ⟨_, rfl, rfl⟩ hh

theorem oraAby (w : Word) : Statement (.oraAby w) :=
  fun _ hh _ => of_row (op := 0x19) (l := .word .oraAby) rfl rfl ⟨_, rfl, rfl⟩ hh

theorem oraIzx (nn : Byte) : Statement (.oraIzx nn) :=
  fun _ hh _ => of_row (op := 0x01) (l := .byte .oraIzx) rfl rfl ⟨_, rfl, rfl⟩ hh

theorem oraIzy (nn : Byte) : Statement (.oraIzy nn) :=
  fun _ hh _ => of_row (op := 0x11) (l := .byte .oraIzy) rfl rfl ⟨_, rfl, rfl⟩ hh

theorem eorImm (nn : Byte) : Statement (.eorImm nn) :=
  fun _ hh _ => of_row (op := 0x49) (l := .byte .eorImm) rfl rfl ⟨_, rfl, rfl⟩ hh

theorem eorZp (nn : Byte) : Statement (.eorZp nn) :=
  fun _ hh _ => of_row (op := 0x45) (l := .byte .eorZp) rfl rfl ⟨_, rfl, rfl⟩ hh

theorem eorZpx (nn : Byte) : Statement (.eorZpx nn) :=
  fun _ hh _ => of_row (op := 0x55) (l := .byte .eorZpx) rfl rfl ⟨_, rfl, rfl⟩ hh

theorem eorAbs (w : Word) : Statement (.eorAbs w) :=
  fun _ hh _ => of_row (op := 0x4D) (l := .word .eorAbs) rfl rfl ⟨_, rfl, rfl⟩ hh

theorem eorAbx (w : Word) : Statement (.eorAbx w) :=
  fun _ hh _ => of_row (op := 0x5D) (l := .word .eorAbx) rfl rfl ⟨_, rfl, rfl⟩ hh

theorem eorAby (w : Word) : Statement (.eorAby w) :=
  fun _ hh _ => of_row (op := 0x59) (l := .word .eorAby) rfl rfl ⟨_, rfl, rfl⟩ hh

theorem eorIzx (nn : Byte) : Statement (.eorIzx nn) :=
  fun _ hh _ => of_row (op := 0x41) (l := .byte .eorIzx) rfl rfl ⟨_, rfl, rfl⟩ hh

theorem eorIzy (nn : Byte) : Statement (.eorIzy nn) :=
  fun _ hh _ => of_row (op := 0x51) (l := .byte .eorIzy) rfl rfl ⟨_, rfl, rfl⟩ hh

theorem aslAcc : Statement (.aslAcc) :=
  fun _ hh _ => of_row (op := 0x0A) (l := .bare .aslAcc) rfl rfl ⟨rfl, rfl⟩ hh

theorem aslZp (nn : Byte) : Statement (.aslZp nn) :=
  fun _ hh _ => of_row (op := 0x06) (l := .byte .aslZp) rfl rfl ⟨_, rfl, rfl⟩ hh

theorem aslZpx (nn : Byte) : Statement (.aslZpx nn) :=
  fun _ hh _ => of_row (op := 0x16) (l := .byte .aslZpx) rfl rfl ⟨_, rfl, rfl⟩ hh

theorem aslAbs (w : Word) : Statement (.aslAbs w) :=
  fun _ hh _ => of_row (op := 0x0E) (l := .word .aslAbs) rfl rfl ⟨_, rfl, rfl⟩ hh

theorem aslAbx (w : Word) : Statement (.aslAbx w) :=
  fun _ hh _ => of_row (op := 0x1E) (l := .word .aslAbx) rfl rfl ⟨_, rfl, rfl⟩ hh

theorem lsrAcc : Statement (.lsrAcc) :=
  fun _ hh _ => of_row (op := 0x4A) (l := .bare .lsrAcc) rfl rfl ⟨rfl, rfl⟩ hh

theorem lsrZp (nn : Byte) : Statement (.lsrZp nn) :=
  fun _ hh _ => of_row (op := 0x46) (l := .byte .lsrZp) rfl rfl ⟨_, rfl, rfl⟩ hh

theorem lsrZpx (nn : Byte) : Statement (.lsrZpx nn) :=
  fun _ hh _ => of_row (op := 0x56) (l := .byte .lsrZpx) rfl rfl ⟨_, rfl, rfl⟩ hh

theorem lsrAbs (w : Word) : Statement (.lsrAbs w) :=
  fun _ hh _ => of_row (op := 0x4E) (l := .word .lsrAbs) rfl rfl ⟨_, rfl, rfl⟩ hh

theorem lsrAbx (w : Word) : Statement (.lsrAbx w) :=
  fun _ hh _ => of_row (op := 0x5E) (l := .word .lsrAbx) rfl rfl ⟨_, rfl, rfl⟩ hh

theorem rolAcc : Statement (.rolAcc) :=
  fun _ hh _ => of_row (op := 0x2A) (l := .bare .rolAcc) rfl rfl ⟨rfl, rfl⟩ hh

theorem rolZp (nn : Byte) : Statement (.rolZp nn) :=
  fun _ hh _ => of_row (op := 0x26) (l := .byte .rolZp) rfl rfl ⟨_, rfl, rfl⟩ hh

theorem rolZpx (nn : Byte) : Statement (.rolZpx nn) :=
  fun _ hh _ => of_row (op := 0x36) (l := .byte .rolZpx) rfl rfl ⟨_, rfl, rfl⟩ hh

theorem rolAbs (w : Word) : Statement (.rolAbs w) :=
  fun _ hh _ => of_row (op := 0x2E) (l := .word .rolAbs) rfl rfl ⟨_, rfl, rfl⟩ hh

theorem rolAbx (w : Word) : Statement (.rolAbx w) :=
  fun _ hh _ => of_row (op := 0x3E) (l := .word .rolAbx) rfl rfl ⟨_, rfl, rfl⟩ hh

theorem rorAcc : Statement (.rorAcc) :=
  fun _ hh _ => of_row (op := 0x6A) (l := .bare .rorAcc) rfl rfl ⟨rfl, rfl⟩ hh

theorem rorZp (nn : Byte) : Statement (.rorZp nn) :=
  fun _ hh _ => of_row (op := 0x66) (l := .byte .rorZp) rfl rfl ⟨_, rfl, rfl⟩ hh

theorem rorZpx (nn : Byte) : Statement (.rorZpx nn) :=
  fun _ hh _ => of_row (op := 0x76) (l := .byte .rorZpx) rfl rfl ⟨_, rfl, rfl⟩ hh

theorem rorAbs (w : Word) : Statement (.rorAbs w) :=
  fun _ hh _ => of_row (op := 0x6E) (l := .word .rorAbs) rfl rfl ⟨_, rfl, rfl⟩ hh

theorem rorAbx (w : Word) : Statement (.rorAbx w) :=
  fun _ hh _ => of_row (op := 0x7E) (l := .word .rorAbx) rfl rfl ⟨_, rfl, rfl⟩ hh

theorem incZp (nn : Byte) : Statement (.incZp nn) :=
  fun _ hh _ => of_row (op := 0xE6) (l := .byte .incZp) rfl rfl ⟨_, rfl, rfl⟩ hh

theorem incZpx (nn : Byte) : Statement (.incZpx nn) :=
  fun _ hh _ => of_row (op := 0xF6) (l := .byte .incZpx) rfl rfl ⟨_, rfl, rfl⟩ hh

theorem incAbs (w : Word) : Statement (.incAbs w) :=
  fun _ hh _ => of_row (op := 0xEE) (l := .word .incAbs) rfl rfl ⟨_, rfl, rfl⟩ hh

theorem incAbx (w : Word) : Statement (.incAbx w) :=
  fun _ hh _ => of_row (op := 0xFE) (l := .word .incAbx) rfl rfl ⟨_, rfl, rfl⟩ hh

theorem decZp (nn : Byte) : Statement (.decZp nn) :=
  fun _ hh _ => of_row (op := 0xC6) (l := .byte .decZp) rfl rfl ⟨_, rfl, rfl⟩ hh

theorem decZpx (nn : Byte) : Statement (.decZpx nn) :=
  fun _ hh _ => of_row (op := 0xD6) (l := .byte .decZpx) rfl rfl ⟨_, rfl, rfl⟩ hh

theorem decAbs (w : Word) : Statement (.decAbs w) :=
  fun _ hh _ => of_row (op := 0xCE) (l := .word .decAbs) rfl rfl ⟨_, rfl, rfl⟩ hh

theorem decAbx (w : Word) : Statement (.decAbx w) :=
  fun _ hh _ => of_row (op := 0xDE) (l := .word .decAbx) rfl rfl ⟨_, rfl, rfl⟩ hh

theorem inx : Statement (.inx) :=
  fun _ hh _ => of_row (op := 0xE8) (l := .bare .inx) rfl rfl ⟨rfl, rfl⟩ hh

theorem dex : Statement (.dex) :=
  fun _ hh _ => of_row (op := 0xCA) (l := .bare .dex) rfl rfl ⟨rfl, rfl⟩ hh

theorem iny : Statement (.iny) :=
  fun _ hh _ => of_row (op := 0xC8) (l := .bare .iny) rfl rfl ⟨rfl, rfl⟩ hh

theorem dey : Statement (.dey) :=
  fun _ hh _ => of_row (op := 0x88) (l := .bare .dey) rfl rfl ⟨rfl, rfl⟩ hh

theorem bitZp (nn : Byte) : Statement (.bitZp nn) :=
  fun _ hh _ => of_row (op := 0x24) (l := .byte .bitZp) rfl rfl ⟨_, rfl, rfl⟩ hh

theorem bitAbs (w : Word) : Statement (.bitAbs w) :=
  fun _ hh _ => of_row (op := 0x2C) (l := .word .bitAbs) rfl rfl ⟨_, rfl, rfl⟩ hh

theorem bpl (rr : Byte) : Statement (.bpl rr) :=
  fun _ hh _ => of_row (op := 0x10) (l := .byte .bpl) rfl rfl ⟨_, rfl, rfl⟩ hh

theorem bmi (rr : Byte) : Statement (.bmi rr) :=
  fun _ hh _ => of_row (op := 0x30) (l := .byte .bmi) rfl rfl ⟨_, rfl, rfl⟩ hh

theorem bvc (rr : Byte) : Statement (.bvc rr) :=
  fun _ hh _ => of_row (op := 0x50) (l := .byte .bvc) rfl rfl ⟨_, rfl, rfl⟩ hh

theorem bvs (rr : Byte) : Statement (.bvs rr) :=
  fun _ hh _ => of_row (op := 0x70) (l := .byte .bvs) rfl rfl ⟨_, rfl, rfl⟩ hh

theorem bcc (rr : Byte) : Statement (.bcc rr) :=
  fun _ hh _ => of_row (op := 0x90) (l := .byte .bcc) rfl rfl ⟨_, rfl, rfl⟩ hh

theorem bcs (rr : Byte) : Statement (.bcs rr) :=
  fun _ hh _ => of_row (op := 0xB0) (l := .byte .bcs) rfl rfl ⟨_, rfl, rfl⟩ hh

theorem bne (rr : Byte) : Statement (.bne rr) :=
  fun _ hh _ => of_row (op := 0xD0) (l := .byte .bne) rfl rfl ⟨_, rfl, rfl⟩ hh

theorem beq (rr : Byte) : Statement (.beq rr) :=
  fun _ hh _ => of_row (op := 0xF0) (l := .byte .beq) rfl rfl ⟨_, rfl, rfl⟩ hh

theorem jmpAbs (w : Word) : Statement (.jmpAbs w) :=
  fun _ hh _ => of_row (op := 0x4C) (l := .word .jmpAbs) rfl rfl ⟨_, rfl, rfl⟩ hh

theorem jmpInd (w : Word) : Statement (.jmpInd w) :=
  fun _ hh _ => of_row (op := 0x6C) (l := .word .jmpInd) rfl rfl ⟨_, rfl, rfl⟩ hh

theorem jsr (w : Word) : Statement (.jsr w) :=
  fun _ hh _ => of_row (op := 0x20) (l := .word .jsr) rfl rfl ⟨_, rfl, rfl⟩ hh

theorem rts : Statement (.rts) :=
  fun _ hh _ => of_row (op := 0x60) (l := .bare .rts) rfl rfl ⟨rfl, rfl⟩ hh

theorem rti : Statement (.rti) :=
  fun _ hh _ => of_row (op := 0x40) (l := .bare .rti) rfl rfl ⟨rfl, rfl⟩ hh

theorem brk : Statement (.brk) :=
  fun _ hh _ => of_row (op := 0x00) (l := .padded .brk) rfl rfl ⟨rfl, rfl⟩ hh

theorem hlt : Statement (.hlt) := by
  intro halt hh _
  simp [Instr.opcode, layoutOf, Builds, Instr.operand, Operand.bytes]

theorem pha : Statement (.pha) :=
  fun _ hh _ => of_row (op := 0x48) (l := .bare .pha) rfl rfl ⟨rfl, rfl⟩ hh

theorem pla : Statement (.pla) :=
  fun _ hh _ => of_row (op := 0x68) (l := .bare .pla) rfl rfl ⟨rfl, rfl⟩ hh

theorem php : Statement (.php) :=
  fun _ hh _ => of_row (op := 0x08) (l := .bare .php) rfl rfl ⟨rfl, rfl⟩ hh

theorem plp : Statement (.plp) :=
  fun _ hh _ => of_row (op := 0x28) (l := .bare .plp) rfl rfl ⟨rfl, rfl⟩ hh

theorem txs : Statement (.txs) :=
  fun _ hh _ => of_row (op := 0x9A) (l := .bare .txs) rfl rfl ⟨rfl, rfl⟩ hh

theorem tsx : Statement (.tsx) :=
  fun _ hh _ => of_row (op := 0xBA) (l := .bare .tsx) rfl rfl ⟨rfl, rfl⟩ hh

theorem ldaImm (nn : Byte) : Statement (.ldaImm nn) :=
  fun _ hh _ => of_row (op := 0xA9) (l := .byte .ldaImm) rfl rfl ⟨_, rfl, rfl⟩ hh

theorem ldaZp (nn : Byte) : Statement (.ldaZp nn) :=
  fun _ hh _ => of_row (op := 0xA5) (l := .byte .ldaZp) rfl rfl ⟨_, rfl, rfl⟩ hh

theorem ldaZpx (nn : Byte) : Statement (.ldaZpx nn) :=
  fun _ hh _ => of_row (op := 0xB5) (l := .byte .ldaZpx) rfl rfl ⟨_, rfl, rfl⟩ hh

theorem ldaAbs (w : Word) : Statement (.ldaAbs w) :=
  fun _ hh _ => of_row (op := 0xAD) (l := .word .ldaAbs) rfl rfl ⟨_, rfl, rfl⟩ hh

theorem ldaAbx (w : Word) : Statement (.ldaAbx w) :=
  fun _ hh _ => of_row (op := 0xBD) (l := .word .ldaAbx) rfl rfl ⟨_, rfl, rfl⟩ hh

theorem ldaAby (w : Word) : Statement (.ldaAby w) :=
  fun _ hh _ => of_row (op := 0xB9) (l := .word .ldaAby) rfl rfl ⟨_, rfl, rfl⟩ hh

theorem ldaIzx (nn : Byte) : Statement (.ldaIzx nn) :=
  fun _ hh _ => of_row (op := 0xA1) (l := .byte .ldaIzx) rfl rfl ⟨_, rfl, rfl⟩ hh

theorem ldaIzy (nn : Byte) : Statement (.ldaIzy nn) :=
  fun _ hh _ => of_row (op := 0xB1) (l := .byte .ldaIzy) rfl rfl ⟨_, rfl, rfl⟩ hh

theorem ldxImm (nn : Byte) : Statement (.ldxImm nn) :=
  fun _ hh _ => of_row (op := 0xA2) (l := .byte .ldxImm) rfl rfl ⟨_, rfl, rfl⟩ hh

theorem ldxZp (nn : Byte) : Statement (.ldxZp nn) :=
  fun _ hh _ => of_row (op := 0xA6) (l := .byte .ldxZp) rfl rfl ⟨_, rfl, rfl⟩ hh

theorem ldxZpy (nn : Byte) : Statement (.ldxZpy nn) :=
  fun _ hh _ => of_row (op := 0xB6) (l := .byte .ldxZpy) rfl rfl ⟨_, rfl, rfl⟩ hh

theorem ldxAbs (w : Word) : Statement (.ldxAbs w) :=
  fun _ hh _ => of_row (op := 0xAE) (l := .word .ldxAbs) rfl rfl ⟨_, rfl, rfl⟩ hh

theorem ldxAby (w : Word) : Statement (.ldxAby w) :=
  fun _ hh _ => of_row (op := 0xBE) (l := .word .ldxAby) rfl rfl ⟨_, rfl, rfl⟩ hh

theorem ldyImm (nn : Byte) : Statement (.ldyImm nn) :=
  fun _ hh _ => of_row (op := 0xA0) (l := .byte .ldyImm) rfl rfl ⟨_, rfl, rfl⟩ hh

theorem ldyZp (nn : Byte) : Statement (.ldyZp nn) :=
  fun _ hh _ => of_row (op := 0xA4) (l := .byte .ldyZp) rfl rfl ⟨_, rfl, rfl⟩ hh

theorem ldyZpx (nn : Byte) : Statement (.ldyZpx nn) :=
  fun _ hh _ => of_row (op := 0xB4) (l := .byte .ldyZpx) rfl rfl ⟨_, rfl, rfl⟩ hh

theorem ldyAbs (w : Word) : Statement (.ldyAbs w) :=
  fun _ hh _ => of_row (op := 0xAC) (l := .word .ldyAbs) rfl rfl ⟨_, rfl, rfl⟩ hh

theorem ldyAbx (w : Word) : Statement (.ldyAbx w) :=
  fun _ hh _ => of_row (op := 0xBC) (l := .word .ldyAbx) rfl rfl ⟨_, rfl, rfl⟩ hh

theorem staZp (nn : Byte) : Statement (.staZp nn) :=
  fun _ hh _ => of_row (op := 0x85) (l := .byte .staZp) rfl rfl ⟨_, rfl, rfl⟩ hh

theorem staZpx (nn : Byte) : Statement (.staZpx nn) :=
  fun _ hh _ => of_row (op := 0x95) (l := .byte .staZpx) rfl rfl ⟨_, rfl, rfl⟩ hh

theorem staAbs (w : Word) : Statement (.staAbs w) :=
  fun _ hh _ => of_row (op := 0x8D) (l := .word .staAbs) rfl rfl ⟨_, rfl, rfl⟩ hh

theorem staAbx (w : Word) : Statement (.staAbx w) :=
  fun _ hh _ => of_row (op := 0x9D) (l := .word .staAbx) rfl rfl ⟨_, rfl, rfl⟩ hh

theorem staAby (w : Word) : Statement (.staAby w) :=
  fun _ hh _ => of_row (op := 0x99) (l := .word .staAby) rfl rfl ⟨_, rfl, rfl⟩ hh

theorem staIzx (nn : Byte) : Statement (.staIzx nn) :=
  fun _ hh _ => of_row (op := 0x81) (l := .byte .staIzx) rfl rfl ⟨_, rfl, rfl⟩ hh

theorem staIzy (nn : Byte) : Statement (.staIzy nn) :=
  fun _ hh _ => of_row (op := 0x91) (l := .byte .staIzy) rfl rfl ⟨_, rfl, rfl⟩ hh

theorem stxZp (nn : Byte) : Statement (.stxZp nn) :=
  fun _ hh _ => of_row (op := 0x86) (l := .byte .stxZp) rfl rfl ⟨_, rfl, rfl⟩ hh

theorem stxZpy (nn : Byte) : Statement (.stxZpy nn) :=
  fun _ hh _ => of_row (op := 0x96) (l := .byte .stxZpy) rfl rfl ⟨_, rfl, rfl⟩ hh

theorem stxAbs (w : Word) : Statement (.stxAbs w) :=
  fun _ hh _ => of_row (op := 0x8E) (l := .word .stxAbs) rfl rfl ⟨_, rfl, rfl⟩ hh

theorem styZp (nn : Byte) : Statement (.styZp nn) :=
  fun _ hh _ => of_row (op := 0x84) (l := .byte .styZp) rfl rfl ⟨_, rfl, rfl⟩ hh

theorem styZpx (nn : Byte) : Statement (.styZpx nn) :=
  fun _ hh _ => of_row (op := 0x94) (l := .byte .styZpx) rfl rfl ⟨_, rfl, rfl⟩ hh

theorem styAbs (w : Word) : Statement (.styAbs w) :=
  fun _ hh _ => of_row (op := 0x8C) (l := .word .styAbs) rfl rfl ⟨_, rfl, rfl⟩ hh

theorem tax : Statement (.tax) :=
  fun _ hh _ => of_row (op := 0xAA) (l := .bare .tax) rfl rfl ⟨rfl, rfl⟩ hh

theorem tay : Statement (.tay) :=
  fun _ hh _ => of_row (op := 0xA8) (l := .bare .tay) rfl rfl ⟨rfl, rfl⟩ hh

theorem txa : Statement (.txa) :=
  fun _ hh _ => of_row (op := 0x8A) (l := .bare .txa) rfl rfl ⟨rfl, rfl⟩ hh

theorem tya : Statement (.tya) :=
  fun _ hh _ => of_row (op := 0x98) (l := .bare .tya) rfl rfl ⟨rfl, rfl⟩ hh

theorem clc : Statement (.clc) :=
  fun _ hh _ => of_row (op := 0x18) (l := .bare .clc) rfl rfl ⟨rfl, rfl⟩ hh

theorem sec : Statement (.sec) :=
  fun _ hh _ => of_row (op := 0x38) (l := .bare .sec) rfl rfl ⟨rfl, rfl⟩ hh

theorem cli : Statement (.cli) :=
  fun _ hh _ => of_row (op := 0x58) (l := .bare .cli) rfl rfl ⟨rfl, rfl⟩ hh

theorem sei : Statement (.sei) :=
  fun _ hh _ => of_row (op := 0x78) (l := .bare .sei) rfl rfl ⟨rfl, rfl⟩ hh

theorem clv : Statement (.clv) :=
  fun _ hh _ => of_row (op := 0xB8) (l := .bare .clv) rfl rfl ⟨rfl, rfl⟩ hh

theorem cld : Statement (.cld) :=
  fun _ hh _ => of_row (op := 0xD8) (l := .bare .cld) rfl rfl ⟨rfl, rfl⟩ hh

theorem sed : Statement (.sed) :=
  fun _ hh _ => of_row (op := 0xF8) (l := .bare .sed) rfl rfl ⟨rfl, rfl⟩ hh

theorem nop : Statement (.nop) :=
  fun _ hh _ => of_row (op := 0xEA) (l := .bare .nop) rfl rfl ⟨rfl, rfl⟩ hh

theorem unassigned (op : Byte) : Statement (.unassigned op) := by
  intro halt hh hw
  simp only [Instr.wf, Bool.and_eq_true, bne_iff_ne, ne_eq] at hw
  simp [Instr.opcode, layoutOf, hw.2, findRow_of_unassigned op hw.1, Builds, Instr.operand, Operand.bytes]

end Sys2Proof.Laws.Coding
end

