-- ==== Sys2Proof/Tests/Slice0.lean ====
section
/-! SUPPORT. Tests: the checks of WellFormed refuse what they should, words written out from 30_encoding.md decode to what
they stand for, the vectors of 95_test_vectors.md, and a concrete case that meets the hypotheses of each statement. -/

namespace Sys2Proof.Tests

open Sys2Proof Sys2Proof.Machine

/-! ## WellFormed: each check refuses an ill-formed term -/

theorem test_wf_refuses_assigned_opcode_as_unassigned : Instr.wf 0xDB (.unassigned 0x69) = false := by decide

theorem test_wf_refuses_halt_opcode_as_unassigned : Instr.wf 0xDB (.unassigned 0xDB) = false := by decide

theorem test_wf_accepts_unassigned_and_any_operand :
    (Instr.wf 0xDB (.unassigned 0x02) && Instr.wf 0xDB (.ldaImm 0xFF)) = true := by decide

theorem test_config_default_wf : Config.default.wf = true := by decide

theorem test_config_refuses_assigned_halt_opcode : Config.wf { Config.default with haltOpcode := 0x00 } = false := by
  decide

theorem test_config_refuses_reset_status_without_bit5 :
    Config.wf { Config.default with resetStatus := 0x04 } = false := by decide

theorem test_config_refuses_equal_keyboard_offsets : Config.wf { Config.default with kbdDataOff := 1 } = false := by
  decide

theorem test_config_refuses_keyboard_offset_outside : Config.wf { Config.default with kbdCtrlOff := 2 } = false := by
  decide

theorem test_config_refuses_equal_terminal_offsets : Config.wf { Config.default with termDataOff := 1 } = false := by
  decide

theorem test_config_refuses_terminal_offset_outside : Config.wf { Config.default with termCtrlOff := 2 } = false := by
  decide

theorem test_config_refuses_small_peripheral :
    Config.wf { Config.default with periphSize := 1, kbdCtrlOff := 0, termCtrlOff := 0 } = false := by decide

theorem test_config_refuses_no_rows : Config.wf { Config.default with termRows := 0 } = false := by decide

theorem test_config_refuses_no_columns : Config.wf { Config.default with termCols := 0 } = false := by decide

/-! ## Decoding: words written out from 30_encoding.md (R84; operand words are little-endian, R60) -/

/-- What the decoder reads, under the default `HALT_OPCODE`. -/
def read (bytes : List Byte) : Option (Instr × List Byte) := (decode 0xDB bytes).toOption

/-- ALU rows of R84: `ADC` 69 65 75 6D 7D 79 61 71. -/
theorem test_decode_adc_forms :
    read [0x69, 0x12] = some (.adcImm 0x12, []) ∧ read [0x65, 0x12] = some (.adcZp 0x12, []) ∧
    read [0x75, 0x12] = some (.adcZpx 0x12, []) ∧ read [0x6D, 0x34, 0x12] = some (.adcAbs 0x1234, []) ∧
    read [0x7D, 0x34, 0x12] = some (.adcAbx 0x1234, []) ∧ read [0x79, 0x34, 0x12] = some (.adcAby 0x1234, []) ∧
    read [0x61, 0x12] = some (.adcIzx 0x12, []) ∧ read [0x71, 0x12] = some (.adcIzy 0x12, []) := by decide

/-- Rows of R84: `SBC`. -/
theorem test_decode_sbc :
    read [0xE9, 0x12] = some (.sbcImm 0x12, []) ∧
    read [0xE5, 0x12] = some (.sbcZp 0x12, []) ∧
    read [0xF5, 0x12] = some (.sbcZpx 0x12, []) ∧
    read [0xED, 0x34, 0x12] = some (.sbcAbs 0x1234, []) ∧
    read [0xFD, 0x34, 0x12] = some (.sbcAbx 0x1234, []) ∧
    read [0xF9, 0x34, 0x12] = some (.sbcAby 0x1234, []) ∧
    read [0xE1, 0x12] = some (.sbcIzx 0x12, []) ∧
    read [0xF1, 0x12] = some (.sbcIzy 0x12, []) := by decide

/-- Rows of R84: `CMP`. -/
theorem test_decode_cmp :
    read [0xC9, 0x12] = some (.cmpImm 0x12, []) ∧
    read [0xC5, 0x12] = some (.cmpZp 0x12, []) ∧
    read [0xD5, 0x12] = some (.cmpZpx 0x12, []) ∧
    read [0xCD, 0x34, 0x12] = some (.cmpAbs 0x1234, []) ∧
    read [0xDD, 0x34, 0x12] = some (.cmpAbx 0x1234, []) ∧
    read [0xD9, 0x34, 0x12] = some (.cmpAby 0x1234, []) ∧
    read [0xC1, 0x12] = some (.cmpIzx 0x12, []) ∧
    read [0xD1, 0x12] = some (.cmpIzy 0x12, []) := by decide

/-- Rows of R84: `CPX`, `CPY`. -/
theorem test_decode_cpx_cpy :
    read [0xE0, 0x12] = some (.cpxImm 0x12, []) ∧
    read [0xE4, 0x12] = some (.cpxZp 0x12, []) ∧
    read [0xEC, 0x34, 0x12] = some (.cpxAbs 0x1234, []) ∧
    read [0xC0, 0x12] = some (.cpyImm 0x12, []) ∧
    read [0xC4, 0x12] = some (.cpyZp 0x12, []) ∧
    read [0xCC, 0x34, 0x12] = some (.cpyAbs 0x1234, []) := by decide

/-- Rows of R84: `AND`. -/
theorem test_decode_and :
    read [0x29, 0x12] = some (.andImm 0x12, []) ∧
    read [0x25, 0x12] = some (.andZp 0x12, []) ∧
    read [0x35, 0x12] = some (.andZpx 0x12, []) ∧
    read [0x2D, 0x34, 0x12] = some (.andAbs 0x1234, []) ∧
    read [0x3D, 0x34, 0x12] = some (.andAbx 0x1234, []) ∧
    read [0x39, 0x34, 0x12] = some (.andAby 0x1234, []) ∧
    read [0x21, 0x12] = some (.andIzx 0x12, []) ∧
    read [0x31, 0x12] = some (.andIzy 0x12, []) := by decide

/-- Rows of R84: `ORA`. -/
theorem test_decode_ora :
    read [0x09, 0x12] = some (.oraImm 0x12, []) ∧
    read [0x05, 0x12] = some (.oraZp 0x12, []) ∧
    read [0x15, 0x12] = some (.oraZpx 0x12, []) ∧
    read [0x0D, 0x34, 0x12] = some (.oraAbs 0x1234, []) ∧
    read [0x1D, 0x34, 0x12] = some (.oraAbx 0x1234, []) ∧
    read [0x19, 0x34, 0x12] = some (.oraAby 0x1234, []) ∧
    read [0x01, 0x12] = some (.oraIzx 0x12, []) ∧
    read [0x11, 0x12] = some (.oraIzy 0x12, []) := by decide

/-- Rows of R84: `EOR`. -/
theorem test_decode_eor :
    read [0x49, 0x12] = some (.eorImm 0x12, []) ∧
    read [0x45, 0x12] = some (.eorZp 0x12, []) ∧
    read [0x55, 0x12] = some (.eorZpx 0x12, []) ∧
    read [0x4D, 0x34, 0x12] = some (.eorAbs 0x1234, []) ∧
    read [0x5D, 0x34, 0x12] = some (.eorAbx 0x1234, []) ∧
    read [0x59, 0x34, 0x12] = some (.eorAby 0x1234, []) ∧
    read [0x41, 0x12] = some (.eorIzx 0x12, []) ∧
    read [0x51, 0x12] = some (.eorIzy 0x12, []) := by decide

/-- Rows of R84: `ASL`. -/
theorem test_decode_asl :
    read [0x0A] = some (.aslAcc, []) ∧
    read [0x06, 0x12] = some (.aslZp 0x12, []) ∧
    read [0x16, 0x12] = some (.aslZpx 0x12, []) ∧
    read [0x0E, 0x34, 0x12] = some (.aslAbs 0x1234, []) ∧
    read [0x1E, 0x34, 0x12] = some (.aslAbx 0x1234, []) := by decide

/-- Rows of R84: `LSR`. -/
theorem test_decode_lsr :
    read [0x4A] = some (.lsrAcc, []) ∧
    read [0x46, 0x12] = some (.lsrZp 0x12, []) ∧
    read [0x56, 0x12] = some (.lsrZpx 0x12, []) ∧
    read [0x4E, 0x34, 0x12] = some (.lsrAbs 0x1234, []) ∧
    read [0x5E, 0x34, 0x12] = some (.lsrAbx 0x1234, []) := by decide

/-- Rows of R84: `ROL`. -/
theorem test_decode_rol :
    read [0x2A] = some (.rolAcc, []) ∧
    read [0x26, 0x12] = some (.rolZp 0x12, []) ∧
    read [0x36, 0x12] = some (.rolZpx 0x12, []) ∧
    read [0x2E, 0x34, 0x12] = some (.rolAbs 0x1234, []) ∧
    read [0x3E, 0x34, 0x12] = some (.rolAbx 0x1234, []) := by decide

/-- Rows of R84: `ROR`. -/
theorem test_decode_ror :
    read [0x6A] = some (.rorAcc, []) ∧
    read [0x66, 0x12] = some (.rorZp 0x12, []) ∧
    read [0x76, 0x12] = some (.rorZpx 0x12, []) ∧
    read [0x6E, 0x34, 0x12] = some (.rorAbs 0x1234, []) ∧
    read [0x7E, 0x34, 0x12] = some (.rorAbx 0x1234, []) := by decide

/-- Rows of R84: `INC`, `DEC`. -/
theorem test_decode_inc_dec :
    read [0xE6, 0x12] = some (.incZp 0x12, []) ∧
    read [0xF6, 0x12] = some (.incZpx 0x12, []) ∧
    read [0xEE, 0x34, 0x12] = some (.incAbs 0x1234, []) ∧
    read [0xFE, 0x34, 0x12] = some (.incAbx 0x1234, []) ∧
    read [0xC6, 0x12] = some (.decZp 0x12, []) ∧
    read [0xD6, 0x12] = some (.decZpx 0x12, []) ∧
    read [0xCE, 0x34, 0x12] = some (.decAbs 0x1234, []) ∧
    read [0xDE, 0x34, 0x12] = some (.decAbx 0x1234, []) := by decide

/-- Rows of R84: `INX`, `DEX`, `INY`, `DEY`, `BIT`, `BPL`, `BMI`. -/
theorem test_decode_inx_dex_iny_dey_bit_bpl_bmi :
    read [0xE8] = some (.inx, []) ∧
    read [0xCA] = some (.dex, []) ∧
    read [0xC8] = some (.iny, []) ∧
    read [0x88] = some (.dey, []) ∧
    read [0x24, 0x12] = some (.bitZp 0x12, []) ∧
    read [0x2C, 0x34, 0x12] = some (.bitAbs 0x1234, []) ∧
    read [0x10, 0x12] = some (.bpl 0x12, []) ∧
    read [0x30, 0x12] = some (.bmi 0x12, []) := by decide

/-- Rows of R84: `BVC`, `BVS`, `BCC`, `BCS`, `BNE`, `BEQ`, `JMP`. -/
theorem test_decode_bvc_bvs_bcc_bcs_bne_beq_jmp :
    read [0x50, 0x12] = some (.bvc 0x12, []) ∧
    read [0x70, 0x12] = some (.bvs 0x12, []) ∧
    read [0x90, 0x12] = some (.bcc 0x12, []) ∧
    read [0xB0, 0x12] = some (.bcs 0x12, []) ∧
    read [0xD0, 0x12] = some (.bne 0x12, []) ∧
    read [0xF0, 0x12] = some (.beq 0x12, []) ∧
    read [0x4C, 0x34, 0x12] = some (.jmpAbs 0x1234, []) ∧
    read [0x6C, 0x34, 0x12] = some (.jmpInd 0x1234, []) := by decide

/-- Rows of R84: `JSR`, `RTS`, `RTI`, `BRK`, `HLT`, `PHA`, `PLA`, `PHP`. -/
theorem test_decode_jsr_rts_rti_brk_hlt_pha_pla_php :
    read [0x20, 0x34, 0x12] = some (.jsr 0x1234, []) ∧
    read [0x60] = some (.rts, []) ∧
    read [0x40] = some (.rti, []) ∧
    read [0x00, 0x12] = some (.brk, []) ∧
    read [0xDB] = some (.hlt, []) ∧
    read [0x48] = some (.pha, []) ∧
    read [0x68] = some (.pla, []) ∧
    read [0x08] = some (.php, []) := by decide

/-- Rows of R84: `PLP`, `TXS`, `TSX`. -/
theorem test_decode_plp_txs_tsx :
    read [0x28] = some (.plp, []) ∧
    read [0x9A] = some (.txs, []) ∧
    read [0xBA] = some (.tsx, []) := by decide

/-- Rows of R84: `LDA`. -/
theorem test_decode_lda :
    read [0xA9, 0x12] = some (.ldaImm 0x12, []) ∧
    read [0xA5, 0x12] = some (.ldaZp 0x12, []) ∧
    read [0xB5, 0x12] = some (.ldaZpx 0x12, []) ∧
    read [0xAD, 0x34, 0x12] = some (.ldaAbs 0x1234, []) ∧
    read [0xBD, 0x34, 0x12] = some (.ldaAbx 0x1234, []) ∧
    read [0xB9, 0x34, 0x12] = some (.ldaAby 0x1234, []) ∧
    read [0xA1, 0x12] = some (.ldaIzx 0x12, []) ∧
    read [0xB1, 0x12] = some (.ldaIzy 0x12, []) := by decide

/-- Rows of R84: `LDX`. -/
theorem test_decode_ldx :
    read [0xA2, 0x12] = some (.ldxImm 0x12, []) ∧
    read [0xA6, 0x12] = some (.ldxZp 0x12, []) ∧
    read [0xB6, 0x12] = some (.ldxZpy 0x12, []) ∧
    read [0xAE, 0x34, 0x12] = some (.ldxAbs 0x1234, []) ∧
    read [0xBE, 0x34, 0x12] = some (.ldxAby 0x1234, []) := by decide

/-- Rows of R84: `LDY`. -/
theorem test_decode_ldy :
    read [0xA0, 0x12] = some (.ldyImm 0x12, []) ∧
    read [0xA4, 0x12] = some (.ldyZp 0x12, []) ∧
    read [0xB4, 0x12] = some (.ldyZpx 0x12, []) ∧
    read [0xAC, 0x34, 0x12] = some (.ldyAbs 0x1234, []) ∧
    read [0xBC, 0x34, 0x12] = some (.ldyAbx 0x1234, []) := by decide

/-- Rows of R84: `STA`. -/
theorem test_decode_sta :
    read [0x85, 0x12] = some (.staZp 0x12, []) ∧
    read [0x95, 0x12] = some (.staZpx 0x12, []) ∧
    read [0x8D, 0x34, 0x12] = some (.staAbs 0x1234, []) ∧
    read [0x9D, 0x34, 0x12] = some (.staAbx 0x1234, []) ∧
    read [0x99, 0x34, 0x12] = some (.staAby 0x1234, []) ∧
    read [0x81, 0x12] = some (.staIzx 0x12, []) ∧
    read [0x91, 0x12] = some (.staIzy 0x12, []) := by decide

/-- Rows of R84: `STX`, `STY`, `TAX`, `TAY`. -/
theorem test_decode_stx_sty_tax_tay :
    read [0x86, 0x12] = some (.stxZp 0x12, []) ∧
    read [0x96, 0x12] = some (.stxZpy 0x12, []) ∧
    read [0x8E, 0x34, 0x12] = some (.stxAbs 0x1234, []) ∧
    read [0x84, 0x12] = some (.styZp 0x12, []) ∧
    read [0x94, 0x12] = some (.styZpx 0x12, []) ∧
    read [0x8C, 0x34, 0x12] = some (.styAbs 0x1234, []) ∧
    read [0xAA] = some (.tax, []) ∧
    read [0xA8] = some (.tay, []) := by decide

/-- Rows of R84: `TXA`, `TYA`, `CLC`, `SEC`, `CLI`, `SEI`, `CLV`, `CLD`. -/
theorem test_decode_txa_tya_clc_sec_cli_sei_clv_cld :
    read [0x8A] = some (.txa, []) ∧
    read [0x98] = some (.tya, []) ∧
    read [0x18] = some (.clc, []) ∧
    read [0x38] = some (.sec, []) ∧
    read [0x58] = some (.cli, []) ∧
    read [0x78] = some (.sei, []) ∧
    read [0xB8] = some (.clv, []) ∧
    read [0xD8] = some (.cld, []) := by decide

/-- Rows of R84: `SED`, `NOP`. -/
theorem test_decode_sed_nop :
    read [0xF8] = some (.sed, []) ∧
    read [0xEA] = some (.nop, []) := by decide

/-- R87, R88: an unassigned value is one byte long and leaves the next byte (vector D25). -/
theorem test_decode_unassigned : read [0x80, 0xA9] = some (.unassigned 0x80, [0xA9]) := by decide

/-- R86: another admissible `HALT_OPCODE`; 0xDB is then unassigned. -/
theorem test_decode_other_halt_opcode :
    (decode 0x02 [0x02]).toOption = some (.hlt, []) ∧ (decode 0x02 [0xDB]).toOption = some (.unassigned 0xDB, []) := by
  decide

/-- A list that ends before the operand is rejected by name. -/
theorem test_decode_rejects_short_lists :
    (match decode 0xDB [] with | .error e => some e | .ok _ => none) = some .noOpcode ∧
    (match decode 0xDB [0xAD, 0x12] with | .error e => some e | .ok _ => none) = some (.operandMissing 0xAD) := by
  decide

/-- The host's numbering: the first byte in the lowest bits. -/
theorem test_decodeTableWord : decodeTableWord 24 0x12346D = some (.adcAbs 0x1234) ∧ decodeTableWord 8 0xEA = some .nop := by
  decide

/-! ## One step: the vectors of 95_test_vectors.md -/

/-- Bytes placed from an address up, as an image is. -/
def image (s : State) (at' : Word) : List Byte → State
  | [] => s
  | v :: rest => image (s.place at' v) (at' + 1) rest

/-- The start state of a vector (95_test_vectors.md section 0): the instruction at 0x0200, the registers at the defaults. -/
def vec (code : List Byte) : State := { image State.reset 0x0200 code with pc := 0x0200 }

/-- The registers after one step. -/
def regs (s : State) : Option Registers :=
  match step s with
  | .next t => some t.getRegisters
  | .fault _ => none
  | .refused _ => none

/-- The registers after one step, and one byte of memory. -/
def regsAnd (s : State) (addr : Word) : Option (Registers × Option Byte) :=
  match step s with
  | .next t => some (t.getRegisters, t.peek addr)
  | .fault _ => none
  | .refused _ => none

/-- The error a step ends with. -/
def error (s : State) : Option BusError :=
  match step s with
  | .next _ => none
  | .fault (.busError kind _) => some kind
  | .refused _ => none

/-- The devices that a step which ends in an error leaves. -/
def left (s : State) : List Device :=
  match step s with
  | .next _ => []
  | .fault (.busError _ l) => l.devices
  | .refused _ => []

/-- What a step reports (R8). -/
def report (s : State) : Option StepReport := reportOf (step s)

/-- Vector M1. -/
theorem test_m1_lda_imm :
    regs (vec [0xA9, 0x7F]) =
      some ⟨0x0202, 0xFF, 0x7F, 0x00, 0x00, 0x20⟩ := by decide

/-- Vector M3. -/
theorem test_m3_lda_zpx_wrap :
    regs { image (vec [0xB5, 0xF0]) 0x0010 [0x99] with x := 0x20 } =
      some ⟨0x0202, 0xFF, 0x99, 0x20, 0x00, 0xA0⟩ := by decide

/-- Vector M4. -/
theorem test_m4_ldx_zpy_wrap :
    regs { image (vec [0xB6, 0xFF]) 0x0001 [0x55] with y := 0x02 } =
      some ⟨0x0202, 0xFF, 0x00, 0x55, 0x02, 0x20⟩ := by decide

/-- Vector M7. -/
theorem test_m7_lda_abx_wrap :
    regs { image (vec [0xBD, 0xF0, 0xFF]) 0x0010 [0x77] with x := 0x20 } =
      some ⟨0x0203, 0xFF, 0x77, 0x20, 0x00, 0x20⟩ := by decide

/-- Vector M8. -/
theorem test_m8_lda_aby :
    regs { image (vec [0xB9, 0x00, 0x13]) 0x13FF [0x00] with y := 0xFF } =
      some ⟨0x0203, 0xFF, 0x00, 0x00, 0xFF, 0x22⟩ := by decide

/-- Vector M10. -/
theorem test_m10_jmp_indirect_no_page_wrap :
    regs (image (image (vec [0x6C, 0xFF, 0x10]) 0x10FF [0x34, 0x12]) 0x1000 [0x99]) =
      some ⟨0x1234, 0xFF, 0x00, 0x00, 0x00, 0x20⟩ := by decide

/-- Vector M12. -/
theorem test_m12_lda_izx_wrap :
    regs { image (image (vec [0xA1, 0xFE]) 0x0001 [0x10, 0x20]) 0x2010 [0xCD] with x := 0x03 } =
      some ⟨0x0202, 0xFF, 0xCD, 0x03, 0x00, 0xA0⟩ := by decide

/-- Vector M13. -/
theorem test_m13_lda_izx_pointer_at_00ff :
    regs (image (image (vec [0xA1, 0xFF]) 0x00FF [0x00, 0x50]) 0x5000 [0xEE]) =
      some ⟨0x0202, 0xFF, 0xEE, 0x00, 0x00, 0xA0⟩ := by decide

/-- Vector M14. -/
theorem test_m14_lda_izy :
    regs { image (image (vec [0xB1, 0x30]) 0x0030 [0xF8, 0x12]) 0x1308 [0x5A] with y := 0x10 } =
      some ⟨0x0202, 0xFF, 0x5A, 0x00, 0x10, 0x20⟩ := by decide

/-- Vector M15. -/
theorem test_m15_sta_izy :
    regsAnd { image (vec [0x91, 0x32]) 0x0032 [0x00, 0x07] with a := 0x66, y := 0x02 } 0x0702 = some (⟨0x0202, 0xFF, 0x66, 0x00, 0x02, 0x20⟩, some 0x66) := by decide

/-- Vector M17. -/
theorem test_m17_inx_wrap :
    regs { vec [0xE8] with x := 0xFF } =
      some ⟨0x0201, 0xFF, 0x00, 0x00, 0x00, 0x22⟩ := by decide

/-- Vector M18. -/
theorem test_m18_bne_to_itself :
    regs (vec [0xD0, 0xFE]) =
      some ⟨0x0200, 0xFF, 0x00, 0x00, 0x00, 0x20⟩ := by decide

/-- Vector A6. -/
theorem test_a6_adc_overflow_zero_carry :
    regs { vec [0x69, 0x80] with a := 0x80 } =
      some ⟨0x0202, 0xFF, 0x00, 0x00, 0x00, 0x63⟩ := by decide

/-- Vector A9. -/
theorem test_a9_adc_ignores_decimal :
    regs { vec [0x69, 0x01] with a := 0x09, p := 0x28 } =
      some ⟨0x0202, 0xFF, 0x0A, 0x00, 0x00, 0x28⟩ := by decide

/-- Vector S2. -/
theorem test_s2_sbc_borrow_overflow :
    regs { vec [0xE9, 0xB0] with a := 0x50, p := 0x21 } =
      some ⟨0x0202, 0xFF, 0xA0, 0x00, 0x00, 0xE0⟩ := by decide

/-- Vector S5. -/
theorem test_s5_sbc_carry_clear :
    regs { vec [0xE9, 0x05] with a := 0x05 } =
      some ⟨0x0202, 0xFF, 0xFF, 0x00, 0x00, 0xA0⟩ := by decide

/-- Section 1 item 2, or section 2.3. -/
theorem test_cmp1_cmp_less :
    regs { vec [0xC9, 0x40] with a := 0x3F, p := 0x60 } =
      some ⟨0x0202, 0xFF, 0x3F, 0x00, 0x00, 0xE0⟩ := by decide

/-- Section 1 item 2, or section 2.3. -/
theorem test_cmp2_cmp_unsigned :
    regs { vec [0xC9, 0x01] with a := 0x80, p := 0x60 } =
      some ⟨0x0202, 0xFF, 0x80, 0x00, 0x00, 0x61⟩ := by decide

/-- Section 1 item 2, or section 2.3. -/
theorem test_cpx_cpx_equal :
    regs { vec [0xE0, 0x03] with x := 0x03, p := 0xA0 } =
      some ⟨0x0202, 0xFF, 0x00, 0x03, 0x00, 0x23⟩ := by decide

/-- Section 1 item 2, or section 2.3. -/
theorem test_cpy_cpy_less :
    regs { vec [0xC0, 0x04] with y := 0x03, p := 0x21 } =
      some ⟨0x0202, 0xFF, 0x00, 0x00, 0x03, 0xA0⟩ := by decide

/-- Vector L2. -/
theorem test_l2_and_keeps_v_c :
    regs { vec [0x29, 0x0F] with a := 0xF0, p := 0xE1 } =
      some ⟨0x0202, 0xFF, 0x00, 0x00, 0x00, 0x63⟩ := by decide

/-- Vector L3. -/
theorem test_l3_ora :
    regs { vec [0x09, 0x80] with a := 0x01 } =
      some ⟨0x0202, 0xFF, 0x81, 0x00, 0x00, 0xA0⟩ := by decide

/-- Vector L4. -/
theorem test_l4_eor :
    regs { vec [0x49, 0xFF] with a := 0xAA } =
      some ⟨0x0202, 0xFF, 0x55, 0x00, 0x00, 0x20⟩ := by decide

/-- Vector H2. -/
theorem test_h2_asl_drops_old_carry :
    regs { vec [0x0A] with a := 0x40, p := 0x21 } =
      some ⟨0x0201, 0xFF, 0x80, 0x00, 0x00, 0xA0⟩ := by decide

/-- Vector H3. -/
theorem test_h3_asl_memory :
    regsAnd (image (vec [0x06, 0x10]) 0x0010 [0x80]) 0x0010 = some (⟨0x0202, 0xFF, 0x00, 0x00, 0x00, 0x23⟩, some 0x00) := by decide

/-- Vector H4. -/
theorem test_h4_lsr :
    regs { vec [0x4A] with a := 0x01, p := 0xA0 } =
      some ⟨0x0201, 0xFF, 0x00, 0x00, 0x00, 0x23⟩ := by decide

/-- Vector H6. -/
theorem test_h6_rol :
    regs { vec [0x2A] with a := 0x80, p := 0x21 } =
      some ⟨0x0201, 0xFF, 0x01, 0x00, 0x00, 0x21⟩ := by decide

/-- Vector H8. -/
theorem test_h8_ror :
    regs { vec [0x6A] with a := 0x01, p := 0x21 } =
      some ⟨0x0201, 0xFF, 0x80, 0x00, 0x00, 0xA1⟩ := by decide

/-- Vector H10. -/
theorem test_h10_ror_memory :
    regsAnd { image (vec [0x6E, 0x00, 0x03]) 0x0300 [0x02] with p := 0x21 } 0x0300 = some (⟨0x0203, 0xFF, 0x00, 0x00, 0x00, 0xA0⟩, some 0x81) := by decide

/-- Vector I1. -/
theorem test_i1_inc_wrap :
    regsAnd (image (vec [0xE6, 0x10]) 0x0010 [0xFF]) 0x0010 = some (⟨0x0202, 0xFF, 0x00, 0x00, 0x00, 0x22⟩, some 0x00) := by decide

/-- Vector I4. -/
theorem test_i4_dec_keeps_carry :
    regsAnd { image (vec [0xC6, 0x10]) 0x0010 [0x01] with p := 0x21 } 0x0010 = some (⟨0x0202, 0xFF, 0x00, 0x00, 0x00, 0x23⟩, some 0x00) := by decide

/-- Vector I6. -/
theorem test_i6_dex_wrap :
    regs (vec [0xCA]) =
      some ⟨0x0201, 0xFF, 0x00, 0xFF, 0x00, 0xA0⟩ := by decide

/-- Vector I7. -/
theorem test_i7_iny :
    regs { vec [0xC8] with y := 0x7F } =
      some ⟨0x0201, 0xFF, 0x00, 0x00, 0x80, 0xA0⟩ := by decide

/-- Vector I8. -/
theorem test_i8_dey :
    regs { vec [0x88] with y := 0x01 } =
      some ⟨0x0201, 0xFF, 0x00, 0x00, 0x00, 0x22⟩ := by decide

/-- Vector T1. -/
theorem test_t1_bit_zero_with_n_v :
    regs { image (vec [0x24, 0x10]) 0x0010 [0xC0] with a := 0x01 } =
      some ⟨0x0202, 0xFF, 0x01, 0x00, 0x00, 0xE2⟩ := by decide

/-- Vector T3. -/
theorem test_t3_bit_absolute :
    regs { image (vec [0x2C, 0x00, 0x03]) 0x0300 [0x40] with a := 0x40 } =
      some ⟨0x0203, 0xFF, 0x40, 0x00, 0x00, 0x60⟩ := by decide

/-- Vector B13. -/
theorem test_b13_bcs_most_negative :
    regs { vec [0xB0, 0x80] with p := 0x21 } =
      some ⟨0x0182, 0xFF, 0x00, 0x00, 0x00, 0x21⟩ := by decide

/-- Vector B14. -/
theorem test_b14_beq_most_positive :
    regs { vec [0xF0, 0x7F] with p := 0x22 } =
      some ⟨0x0281, 0xFF, 0x00, 0x00, 0x00, 0x22⟩ := by decide

/-- Vector J1. -/
theorem test_j1_jmp :
    regs (vec [0x4C, 0x00, 0x03]) =
      some ⟨0x0300, 0xFF, 0x00, 0x00, 0x00, 0x20⟩ := by decide

/-- Vector J4. -/
theorem test_j4_jsr_stack_wrap :
    regsAnd { vec [0x20, 0x00, 0x04] with sp := 0x00 } 0x01FF = some (⟨0x0400, 0xFE, 0x00, 0x00, 0x00, 0x20⟩, some 0x02) := by decide

/-- Vector J6. -/
theorem test_j6_rts_wrap :
    regs { image (vec [0x60]) 0x01FE [0xFF, 0xFF] with sp := 0xFD } =
      some ⟨0x0000, 0xFF, 0x00, 0x00, 0x00, 0x20⟩ := by decide

/-- Vector J5. -/
theorem test_j5_rts :
    regs { image (vec [0x60]) 0x01FE [0x07, 0x03] with sp := 0xFD } =
      some ⟨0x0308, 0xFF, 0x00, 0x00, 0x00, 0x20⟩ := by decide

/-- Vector J7. -/
theorem test_j7_rti :
    regs { image (vec [0x40]) 0x01FD [0xC3, 0x34, 0x12] with sp := 0xFC } =
      some ⟨0x1234, 0xFF, 0x00, 0x00, 0x00, 0xE3⟩ := by decide

/-- Vector J8. -/
theorem test_j8_rti_forces_bit5 :
    regs { image (vec [0x40]) 0x01FD [0x00, 0x00, 0x02] with sp := 0xFC, p := 0xFF } =
      some ⟨0x0200, 0xFF, 0x00, 0x00, 0x00, 0x20⟩ := by decide

/-- Vector J11. -/
theorem test_j11_pha_wrap :
    regsAnd { vec [0x48] with a := 0x12, sp := 0x00 } 0x0100 = some (⟨0x0201, 0xFF, 0x12, 0x00, 0x00, 0x20⟩, some 0x12) := by decide

/-- Vector J13. -/
theorem test_j13_pla_wrap_zero :
    regs { image (vec [0x68]) 0x0100 [0x00] with a := 0x55 } =
      some ⟨0x0201, 0x00, 0x00, 0x00, 0x00, 0x22⟩ := by decide

/-- Vector J15. -/
theorem test_j15_php_break_as_stored :
    regsAnd { vec [0x08] with p := 0xFF } 0x01FF = some (⟨0x0201, 0xFE, 0x00, 0x00, 0x00, 0xFF⟩, some 0xFF) := by decide

/-- Vector J14. -/
theorem test_j14_php :
    regsAnd { vec [0x08] with p := 0x23 } 0x01FF = some (⟨0x0201, 0xFE, 0x00, 0x00, 0x00, 0x23⟩, some 0x23) := by decide

/-- Vector J16. -/
theorem test_j16_plp :
    regs { image (vec [0x28]) 0x01FF [0xC1] with sp := 0xFE } =
      some ⟨0x0201, 0xFF, 0x00, 0x00, 0x00, 0xE1⟩ := by decide

/-- Vector J18. -/
theorem test_j18_txs_no_flag :
    regs { vec [0x9A] with x := 0x00 } =
      some ⟨0x0201, 0x00, 0x00, 0x00, 0x00, 0x20⟩ := by decide

/-- Vector J19. -/
theorem test_j19_tsx :
    regs { vec [0xBA] with sp := 0xFD } =
      some ⟨0x0201, 0xFD, 0x00, 0xFD, 0x00, 0xA0⟩ := by decide

/-- Vector D4. -/
theorem test_d4_ldy_zero :
    regs { vec [0xA0, 0x00] with y := 0x01 } =
      some ⟨0x0202, 0xFF, 0x00, 0x00, 0x00, 0x22⟩ := by decide

/-- Vector D6. -/
theorem test_d6_ldy_abx :
    regs { image (vec [0xBC, 0x00, 0x03]) 0x0302 [0x90] with x := 0x02 } =
      some ⟨0x0203, 0xFF, 0x00, 0x02, 0x90, 0xA0⟩ := by decide

/-- Vector D7. -/
theorem test_d7_sta_keeps_flags :
    regsAnd { vec [0x85, 0x10] with a := 0x05, p := 0xA3 } 0x0010 = some (⟨0x0202, 0xFF, 0x05, 0x00, 0x00, 0xA3⟩, some 0x05) := by decide

/-- Vector D8. -/
theorem test_d8_stx_zpy_wrap :
    regsAnd { vec [0x96, 0x10] with x := 0x44, y := 0xF1 } 0x0001 = some (⟨0x0202, 0xFF, 0x00, 0x44, 0xF1, 0x20⟩, some 0x44) := by decide

/-- Vector D10. -/
theorem test_d10_tax :
    regs { vec [0xAA] with a := 0x80 } =
      some ⟨0x0201, 0xFF, 0x80, 0x80, 0x00, 0xA0⟩ := by decide

/-- Vector D11. -/
theorem test_d11_tay :
    regs { vec [0xA8] with y := 0x09 } =
      some ⟨0x0201, 0xFF, 0x00, 0x00, 0x00, 0x22⟩ := by decide

/-- Vector D12. -/
theorem test_d12_txa :
    regs { vec [0x8A] with a := 0xFF, x := 0x05, p := 0xA0 } =
      some ⟨0x0201, 0xFF, 0x05, 0x05, 0x00, 0x20⟩ := by decide

/-- Vector D13. -/
theorem test_d13_tya :
    regs { vec [0x98] with y := 0xFF } =
      some ⟨0x0201, 0xFF, 0xFF, 0x00, 0xFF, 0xA0⟩ := by decide

/-- Vector D14. -/
theorem test_d14_clc :
    regs { vec [0x18] with p := 0x21 } =
      some ⟨0x0201, 0xFF, 0x00, 0x00, 0x00, 0x20⟩ := by decide

/-- Vector D15. -/
theorem test_d15_sec :
    regs (vec [0x38]) =
      some ⟨0x0201, 0xFF, 0x00, 0x00, 0x00, 0x21⟩ := by decide

/-- Vector D16. -/
theorem test_d16_cli :
    regs { vec [0x58] with p := 0x24 } =
      some ⟨0x0201, 0xFF, 0x00, 0x00, 0x00, 0x20⟩ := by decide

/-- Vector D17. -/
theorem test_d17_sei :
    regs (vec [0x78]) =
      some ⟨0x0201, 0xFF, 0x00, 0x00, 0x00, 0x24⟩ := by decide

/-- Vector D18. -/
theorem test_d18_clv :
    regs { vec [0xB8] with p := 0x60 } =
      some ⟨0x0201, 0xFF, 0x00, 0x00, 0x00, 0x20⟩ := by decide

/-- Vector D19. -/
theorem test_d19_cld :
    regs { vec [0xD8] with p := 0x28 } =
      some ⟨0x0201, 0xFF, 0x00, 0x00, 0x00, 0x20⟩ := by decide

/-- Vector D20. -/
theorem test_d20_sed :
    regs (vec [0xF8]) =
      some ⟨0x0201, 0xFF, 0x00, 0x00, 0x00, 0x28⟩ := by decide

/-- Vector D22. -/
theorem test_d22_nop :
    regs { vec [0xEA] with a := 0x01, p := 0xE3 } =
      some ⟨0x0201, 0xFF, 0x01, 0x00, 0x00, 0xE3⟩ := by decide

/-- Vector D23. -/
theorem test_d23_unassigned :
    regs (vec [0x02]) =
      some ⟨0x0201, 0xFF, 0x00, 0x00, 0x00, 0x20⟩ := by decide

/-- Section 2.8: each branch taken on its own flag value and not on the other (target 0x0204). -/
theorem test_branches :
    (List.map (fun (op, p) => (regs { vec [op, 0x02] with p := p }).map (·.pc))
      [(0x10, 0x20), (0x10, 0xA0), (0x30, 0xA0), (0x30, 0x20), (0x50, 0x20), (0x50, 0x60), (0x70, 0x60), (0x70, 0x20)]) =
      [some 0x0204, some 0x0202, some 0x0204, some 0x0202, some 0x0204, some 0x0202, some 0x0204, some 0x0202] ∧
    (List.map (fun (op, p) => (regs { vec [op, 0x02] with p := p }).map (·.pc))
      [(0x90, 0x20), (0x90, 0x21), (0xB0, 0x21), (0xB0, 0x20), (0xD0, 0x20), (0xD0, 0x22), (0xF0, 0x22), (0xF0, 0x20)]) =
      [some 0x0204, some 0x0202, some 0x0204, some 0x0202, some 0x0204, some 0x0202, some 0x0204, some 0x0202] := by
  decide

/-- Vector J9: `BRK` at 0x0004 pushes nothing. -/
theorem test_j9_brk :
    regsAnd { image State.reset 0x0004 [0x00, 0xFF] with pc := 0x0004 } 0x01FF =
      some (⟨0x0006, 0xFF, 0x00, 0x00, 0x00, 0x20⟩, some 0x00) := by decide

/-- Vector J3: `JSR` at 0x0305 pushes 0x0307, high byte first. -/
theorem test_j3_jsr :
    regsAnd { image State.reset 0x0305 [0x20, 0x0B, 0x03] with pc := 0x0305 } 0x01FE =
      some (⟨0x030B, 0xFD, 0x00, 0x00, 0x00, 0x20⟩, some 0x07) ∧
    regsAnd { image State.reset 0x0305 [0x20, 0x0B, 0x03] with pc := 0x0305 } 0x01FF =
      some (⟨0x030B, 0xFD, 0x00, 0x00, 0x00, 0x20⟩, some 0x03) := by decide

/-- Vector J21: `HLT` reports a halt and leaves `PC` past the opcode. -/
theorem test_j21_hlt :
    report { image State.reset 0x030A [0xDB] with pc := 0x030A } = some ⟨true, none⟩ ∧
    regs { image State.reset 0x030A [0xDB] with pc := 0x030A } = some ⟨0x030B, 0xFF, 0x00, 0x00, 0x00, 0x20⟩ := by
  decide

/-- Vector D9: `STY` absolute. -/
theorem test_d9_sty :
    regsAnd { image State.reset 0x0300 [0x8C, 0x00, 0x02] with pc := 0x0300, y := 0x7F } 0x0200 =
      some (⟨0x0303, 0xFF, 0x00, 0x00, 0x7F, 0x20⟩, some 0x7F) := by decide

/-! ## Errors inside a step (95_test_vectors.md section 4.4; the two peripherals of program P4 lie elsewhere) -/

/-- Vectors E1 to E5: nothing at the opcode's address, nothing at the operand's, one past RAM, a store to ROM, a
read-modify-write of ROM. -/
theorem test_e1_to_e5 :
    [error { State.reset with pc := 0x9000 }, error (vec [0xAD, 0x00, 0x90]), error (vec [0xAD, 0x00, 0x80]),
      error (vec [0x8D, 0x00, 0xF0]), error (vec [0xEE, 0x00, 0xF0])] =
    [some .deviceNotFound, some .deviceNotFound, some .outOfRange, some .readOnlyViolation,
      some .readOnlyViolation] := by decide

/-- Vectors E6 to E9: through a pointer, and operands that end outside RAM. -/
theorem test_e6_to_e9 :
    [error { image (vec [0xB1, 0x10]) 0x0010 [0xFF, 0x7F] with y := 0x01 },
      error { image (vec [0xB1, 0x10]) 0x0010 [0xFF, 0x7F] with y := 0x02 },
      error { image State.reset 0x7FFE [0xAD] with pc := 0x7FFE },
      error { image State.reset 0x7FFF [0xA9] with pc := 0x7FFF }] =
    [some .outOfRange, some .deviceNotFound, some .outOfRange, some .outOfRange] := by decide

/-- A RAM that ends inside the stack page, at 0x0100, under code in ROM. -/
def shortStack : State :=
  { State.reset with
    sp := 0x00, pc := 0x0200,
    devices :=
      [ { name := "ROM", base := 0x0200, unit := .memory { MemoryDevice.new 0x0100 true with
          bytes := [(0x00, 0x20), (0x01, 0x34), (0x02, 0x12)] } },
        { name := "RAM", base := 0x0000, unit := .memory (MemoryDevice.new 0x0101 false) } ] }

/-- R211 item 1, "`JSR` whose second push fails has already written the first byte": the first, 0x02, goes to 0x0100, and
there is nothing at 0x01FF. -/
theorem test_first_push_stands :
    error shortStack = some .deviceNotFound ∧
    (left shortStack)[1]? = some { name := "RAM", base := 0x0000, unit := .memory { MemoryDevice.new 0x0101 false with
      bytes := [(0x0100, 0x02)] } } := by decide

/-- R211 item 1: a key popped by the opcode fetch stays popped when the operand fetch fails (`AD`, its operand word at
the keyboard's last address). -/
theorem test_popped_key_stands :
    error { State.reset.kbdEnqueue ⟨1, 0x2D⟩ with pc := 0xD010 } = some .outOfRange ∧
    left { State.reset.kbdEnqueue ⟨1, 0x2D⟩ with pc := 0xD010 } = State.reset.devices := by decide

/-- R8, R20, R236: an error reports its kind with `halted` false, and ends the run with what is left. -/
theorem test_error_report :
    report shortStack = some ⟨false, some .deviceNotFound⟩ ∧
    (match runFor 5 shortStack with
      | .error kind l => some (kind, (l.terminalView 0).isSome, l.devices.length)
      | .halted _ => none
      | .stopped _ => none
      | .declined _ => none) = some (.deviceNotFound, false, 2) := by decide

/-- Section 4.4, not errors: `EA` at 0xFFFF leaves `PC` 0x0000, and `A9` there reads its operand from 0x0000. -/
theorem test_pc_wraps :
    (regs { image State.reset 0xFFFF [0xEA] with pc := 0xFFFF }).map (·.pc) = some 0x0000 ∧
    (regs { image State.reset 0xFFFF [0xA9] with pc := 0xFFFF }).map (·.pc) = some 0x0001 := by decide

/-! ## Bus, devices, reset, host (95_test_vectors.md sections 4.1 to 4.3 and 4.5) -/

/-- The byte or the error of a `BusGet`. -/
def got (s : State) (addr : Word) : Option Byte × Option BusError :=
  match s.busGet addr with
  | .ok (v, _) => (some v, none)
  | .error e => (none, some e)

/-- The error of a `BusSet`. -/
def setError (s : State) (addr : Word) : Option BusError :=
  match s.busSet addr 0x5A with
  | .ok _ => none
  | .error e => some e

/-- The word or the error of a `BusGetWord`. -/
def gotWord (s : State) (addr : Word) : Option Word × Option BusError :=
  match s.busGetWord addr with
  | .ok (v, _) => (some v, none)
  | .error e => (none, some e)

/-- Vectors BUS1 to BUS5. -/
theorem test_bus1_to_bus5 :
    [got State.reset 0x0010, got State.reset 0x7FFF, got State.reset 0x8000, got State.reset 0x8001,
      got State.reset 0xF000, got State.reset 0xFFFF] =
    [(some 0x00, none), (some 0x00, none), (none, some .outOfRange), (none, some .deviceNotFound), (some 0x00, none),
      (some 0x00, none)] := by decide

/-- Vectors BUS6 to BUS9. -/
theorem test_bus6_to_bus9 :
    [setError State.reset 0x0010, setError State.reset 0xF000, setError State.reset 0x8000,
      setError State.reset 0x9000] =
    [none, some .readOnlyViolation, some .outOfRange, some .deviceNotFound] := by decide

/-- Vectors BUS10, BUS11, BUS13, BUS14. -/
theorem test_bus10_to_bus14 :
    [gotWord (image State.reset 0x0030 [0x00, 0x06]) 0x0030, gotWord State.reset 0x7FFF, gotWord State.reset 0xFFFE,
      gotWord State.reset 0xFFFF] =
    [(some 0x0600, none), (none, some .outOfRange), (some 0x0000, none), (none, some .outOfRange)] := by decide

/-- Vectors BUS15 to BUS17. -/
theorem test_bus15_to_bus17 :
    (match State.reset.busSetWord 0x0010 0x1234 with
      | .ok t => (t.peek 0x0010, t.peek 0x0011)
      | .error _ => (none, none)) = (some 0x34, some 0x12) ∧
    (match State.reset.busSetWord 0x7FFF 0x1234 with | .ok _ => none | .error e => some e) = some BusError.outOfRange ∧
    (match State.reset.busSetWord 0xFFFF 0x1234 with | .ok _ => none | .error e => some e) =
      some BusError.readOnlyViolation := by decide

/-- State.reset before its reset: the host may still register devices and load images (R235). -/
def setup : State := { State.reset with phase := .setup }

/-- The error of a host's call. -/
def errorOf {α : Type} : Host.Outcome α BusError Refusal → Option BusError
  | .next _ => none
  | .fault e => some e
  | .refused _ => none

/-- The refusal of a host's call. -/
def refusalOf {α : Type} : Host.Outcome α BusError Refusal → Option Refusal
  | .next _ => none
  | .fault _ => none
  | .refused r => some r

/-- The state after a load that succeeds. -/
def loaded (s : State) (data : List Byte) (addr : Word) : State :=
  match s.busLoad data addr with
  | .next (_, t) => t
  | .fault _ => s
  | .refused _ => s

/-- Vectors BUS18, BUS20, BUS21. -/
theorem test_bus18_to_bus21 :
    (loaded setup [0x01, 0x02, 0x03] 0xF000).peek 0xF002 = some 0x03 ∧
    errorOf (setup.busLoad [0xAA, 0xBB] 0xFFFF) = some BusError.imageTooLarge ∧
    errorOf (setup.busLoad [0xAA] 0x9000) = some BusError.deviceNotFound := by decide

/-- R238, 93 U8 and U9: a load at a peripheral, a second load into a device (a failed one does not count), a load after
reset, and a load after a step. -/
theorem test_loads_refused :
    refusalOf (setup.busLoad [0x00] 0xD010) = some .peripheralLoad ∧
    refusalOf ((loaded setup [0x01] 0xF000).busLoad [0x02] 0xF001) = some .secondLoad ∧
    refusalOf ((loaded setup [0xAA, 0xBB] 0xFFFF).busLoad [0x02] 0xF001) = none ∧
    refusalOf (State.reset.busLoad [0x01] 0xF000) = some .lateLoad ∧
    (match step setup with
      | .next t => refusalOf (t.busLoad [0x01] 0xF000)
      | .fault _ => none
      | .refused _ => none) = some .lateLoad := by decide

/-- R238, 93 U10: a registration after reset, and records of size 0 and past the address space; one that ends at 0x10000
is appended. -/
theorem test_registrations :
    refusalOf (State.reset.registerDevice "extra" (.memory (MemoryDevice.new 1 false)) 0x9000) =
      some .lateRegistration ∧
    refusalOf (setup.registerDevice "empty" (.memory (MemoryDevice.new 0 false)) 0x9000) = some .badRecord ∧
    refusalOf (setup.registerDevice "long" (.memory (MemoryDevice.new 2 false)) 0xFFFF) = some .badRecord ∧
    (match setup.registerDevice "last" (.keyboard Keyboard.new) 0xFFFE with
      | .next t => t.devices.length
      | .fault _ => 0
      | .refused _ => 0) = 5 := by decide

/-- R238: reset is performed once. -/
theorem test_second_reset_refused : refusalOf State.reset.hostReset = some .lateReset := by decide

/-- Log 12: a first reset after a step is refused, and a device is registered after a load. -/
theorem test_order_choices :
    refusalOf setup.beginStep.hostReset = some .lateReset ∧
    refusalOf ((loaded setup [0x01] 0xF000).registerDevice "late" (.keyboard Keyboard.new) 0x9000) = none := by decide

/-- Vector BUS24: the half-open interval. -/
theorem test_bus24 :
    got { State.reset with cfg := { Config.default with routeEndInclusive := false } } 0x8000 =
      (none, some .deviceNotFound) := by decide

/-- Vectors K1 to K3: an empty queue reads 0x00; a key is popped with bit 7 forced. -/
theorem test_k1_to_k3 :
    [got State.reset 0xD011, got State.reset 0xD010, got (State.reset.kbdEnqueue ⟨1, 0x41⟩) 0xD011,
      got (State.reset.kbdEnqueue ⟨1, 0x41⟩) 0xD010] =
    [(some 0x00, none), (some 0x00, none), (some 0x80, none), (some 0xC1, none)] := by decide

/-- Vectors K7 to K9. -/
theorem test_k7_to_k9 :
    got State.reset 0xD012 = (none, some .outOfRange) ∧
    gotWord ((State.reset.kbdEnqueue ⟨1, 0x31⟩).kbdEnqueue ⟨1, 0x32⟩) 0xD010 = (some 0x80B1, none) ∧
    gotWord State.reset 0xD011 = (none, some .outOfRange) := by decide

/-- Vectors K5 and K6. -/
theorem test_k5_k6 :
    (Keyboard.new.set Config.default 1 0x00).toOption.map (·.configured) = some true ∧
    (({ Keyboard.new with configured := true } : Keyboard).set Config.default 1 0xFF).toOption.map (·.configured) =
      some false ∧
    (Keyboard.new.set Config.default 0 0xFF).toOption = some Keyboard.new := by decide

/-- The 2 by 3 grid of section 4.3. -/
def small : Config := { Config.default with termRows := 2, termCols := 3 }

/-- The terminal after writes to its data address, starting configured. -/
def typed (grid : List (List Byte)) (row col : Nat) (v : Byte) : Option Terminal :=
  (({ grid := grid, row := row, col := col, configured := true } : Terminal).set small 0 v).toOption

/-- Vectors TM1 and TM2. -/
theorem test_tm1_tm2 :
    ((Terminal.new small).set small 0 0x41).toOption = some (Terminal.new small) ∧
    ((Terminal.new small).set small 1 0x00).toOption =
      some ⟨[[0x20, 0x20, 0x20], [0x20, 0x20, 0x20]], 0, 0, true⟩ := by decide

/-- Vectors TM3, TM5, TM7, TM9 and TM11. -/
theorem test_tm3_to_tm11 :
    typed [[0x20, 0x20, 0x20], [0x20, 0x20, 0x20]] 0 0 0xC1 =
      some ⟨[[0x41, 0x20, 0x20], [0x20, 0x20, 0x20]], 0, 1, true⟩ ∧
    typed [[0x41, 0x42, 0x20], [0x20, 0x20, 0x20]] 0 2 0x43 =
      some ⟨[[0x41, 0x42, 0x43], [0x20, 0x20, 0x20]], 1, 0, true⟩ ∧
    typed [[0x41, 0x42, 0x43], [0x44, 0x20, 0x20]] 1 1 0x0D =
      some ⟨[[0x44, 0x20, 0x20], [0x20, 0x20, 0x20]], 1, 0, true⟩ ∧
    typed [[0x44, 0x20, 0x20], [0x45, 0x20, 0x20]] 1 1 0x8D =
      some ⟨[[0x45, 0x20, 0x20], [0x20, 0x20, 0x20]], 1, 0, true⟩ ∧
    typed [[0x45, 0x20, 0x20], [0x46, 0x47, 0x20]] 1 2 0x48 =
      some ⟨[[0x46, 0x47, 0x48], [0x20, 0x20, 0x20]], 1, 0, true⟩ := by decide

/-- Vectors TM13 and TM14: the terminal reads 0x00, and past its two addresses is `OutOfRange`. -/
theorem test_tm13_tm14 :
    [got State.reset 0xD020, got State.reset 0xD021] = [(some 0x00, none), (some 0x00, none)] ∧
    setError State.reset 0xD022 = some .outOfRange := by decide

/-- The peripherals' data and control offsets exchanged. -/
def exchanged (s : State) : State :=
  { s with cfg := { s.cfg with kbdDataOff := 1, kbdCtrlOff := 0, termDataOff := 1, termCtrlOff := 0 } }

/-- R59: a word write whose low byte is the control address's clears and then prints the high byte; in the other order it
ends cleared. -/
theorem test_terminal_words :
    (match (exchanged State.reset).busSetWord 0xD020 0x4100 with
      | .ok t => (t.terminalView 2).map fun v => (v.1.head?.bind List.head?, v.2)
      | .error _ => none) = some (some 0x41, 0, 1) ∧
    (match State.reset.busSetWord 0xD020 0x0041 with
      | .ok t => (t.terminalView 2).map fun v => (v.1.head?.bind List.head?, v.2)
      | .error _ => none) = some (some 0x20, 0, 0) := by decide

/-- The registers after a reset of the host. -/
def afterReset (s : State) : Option Registers :=
  match s.hostReset with
  | .next t => some t.getRegisters
  | .fault _ => none
  | .refused _ => none

/-- Vectors Z1 and Z2 (`RESET_SP` = FD; bit 5 is forced). -/
theorem test_z1_z2 :
    afterReset (image setup 0xFFFC [0x00, 0x02]) = some ⟨0x0200, 0xFF, 0x00, 0x00, 0x00, 0x20⟩ ∧
    afterReset { image setup 0xFFFC [0x34, 0x12] with
        cfg := { Config.default with resetStatus := 0x04, resetSP := 0xFD } } =
      some ⟨0x1234, 0xFD, 0x00, 0x00, 0x00, 0x24⟩ := by decide

/-- Vectors Z5 and Z6. -/
theorem test_z5_z6 :
    (State.reset.setStatusFlag .C true).p = 0x21 ∧
    (({ State.reset with p := 0x21 } : State).setStatusFlag .R false).p = 0x21 := by decide

/-- R42: the sentinel comes with `DeviceNotFound` alone. -/
theorem test_sentinel :
    (State.reset.hostGet 0x9000).1 = ⟨some 0xEA, some .deviceNotFound⟩ ∧
    (State.reset.hostGet 0x8000).1 = ⟨none, some .outOfRange⟩ := by decide

/-- Log 8: a key that `arrivals` schedules before the second bus operation of a step is seen by that operation and not by
the first (`AD 11 D0` reads the keyboard's control address with its third operation). -/
theorem test_arrivals :
    (regs { vec [0xAD, 0x11, 0xD0] with arrivals := [[], [], [⟨1, 0x41⟩]] }).map (·.a) = some 0x80 ∧
    (regs { vec [0xAD, 0x11, 0xD0] with arrivals := [[], [], [], [⟨1, 0x41⟩]] }).map (·.a) = some 0x00 := by decide

/-- The memory of State.reset is canonical. -/
theorem test_reset_memory_wf : ∀ d ∈ State.reset.devices, ∀ m, d.memoryBytes = some m → m.wf := by
  simp [State.reset, defaultDevices, Device.memoryBytes, MemoryDevice.new, Memory.wf]

/-- Log 6: from State.reset with nothing loaded the step runs 0x00, which is `BRK`. -/
theorem test_reset_runs_brk : (regs State.reset).map (·.pc) = some 0x0002 := by decide

/-- The host's question: an instruction of the table placed after reset is the one the next step runs. -/
theorem test_withFetchWord : (regs (State.reset.withFetchWord 16 0x05A9)).map (·.a) = some 0x05 := by decide

/-! ## Witnesses: a concrete state and operands that meet the hypotheses of each statement, clause by clause -/

/-- A state of a run: code, data and stack bytes in RAM, two keys pending, the terminal configured, a byte in ROM. -/
def demo : State where
  pc := 0x0200
  sp := 0xFD
  a := 0x81
  x := 0x04
  y := 0x10
  p := 0xA1
  lea := 0x0000
  halted := false
  cfg := Config.default
  devices :=
    [ { name := "RAM", base := 0x0000, unit := .memory { MemoryDevice.new 0x8000 false with
        bytes := [(0x0010, 0x42), (0x0025, 0x40), (0x01FE, 0x07), (0x01FF, 0x03), (0x0200, 0xA9), (0x0201, 0x05),
          (0x0202, 0xEA), (0x0203, 0xDB), (0x0204, 0xAD), (0x0205, 0x10), (0x0207, 0x02), (0x0208, 0x08),
          (0x4000, 0xAB), (0x7FFE, 0xAD), (0x7FFF, 0xA9)] } },
      { name := "keyboard", base := 0xD010, unit := .keyboard { queue := [0x41, 0x42], configured := false } },
      { name := "terminal", base := 0xD020, unit := .terminal { Terminal.new Config.default with configured := true } },
      { name := "ROM", base := 0xF000, unit := .memory { MemoryDevice.new 0x1000 true with bytes := [(0, 0x77)] } } ]
  arrivals := []
  phase := .running

/-- RAM everywhere but for the stack page, which is ROM (vector E11). -/
def romStack : State :=
  { State.reset with devices :=
      [ { name := "ROM", base := 0x0100, unit := .memory (MemoryDevice.new 0x0100 true) },
        { name := "RAM", base := 0x0200, unit := .memory (MemoryDevice.new 0x0E00 false) } ] }

/-- The error of an access in a state with nothing scheduled. -/
def failed (kind : BusError) (s : State) : Fault := .busError kind s.aftermath

/-- A stack page of `n` bytes of RAM, and ROM at the top of the address space that ends with an opcode. -/
def shortPage (n : Nat) (op : Byte) : State :=
  { State.reset with
    sp := 0xFF, pc := 0xFFFF,
    devices :=
      [ { name := "RAM", base := 0x0100, unit := .memory (MemoryDevice.new n false) },
        { name := "ROM", base := 0xF000, unit := .memory { MemoryDevice.new 0x1000 true with
          bytes := [(0x0FFF, op)] } } ] }

/-- The peripherals one byte larger, with no register there. -/
def wider (s : State) : State := { s with cfg := { s.cfg with periphSize := 3 } }

theorem witness_invariant : demo.Inv := by
  refine ⟨by decide, by decide, ?_⟩
  intro d hd
  simp only [demo, List.mem_cons, List.not_mem_nil, or_false] at hd
  rcases hd with rfl | rfl | rfl | rfl
  · exact ⟨by decide, by decide⟩
  · trivial
  · exact ⟨by decide, by decide, by decide, by decide⟩
  · exact ⟨by decide, by decide⟩

/-- SourceBytesDecode, DecodeOfEncode: an admissible `HALT_OPCODE`, and well-formed instructions of each length. -/
theorem witness_encoding :
    (∀ halt ∈ [(0x02 : Byte), 0xDB, 0xFF], unassignedOpcodes.contains halt = true) ∧
    (∀ i ∈ [Instr.adcAbx 0xFFFF, .ldaImm 0x00, .brk, .hlt, .unassigned 0x03], i.wf 0x02 = true) := by decide

/-- EncodeOfDecode. -/
theorem witness_EncodeOfDecode :
    decode 0xDB [0xA9, 0x05, 0x07] = .ok (.ldaImm 0x05, [0x07]) ∧ Instr.ldaImm 0x05 ≠ .brk := ⟨rfl, by decide⟩

/-- ResetLoadsTheVector: a vector in ROM; no device at 0xFFFC; a ROM that ends at 0xFFFC (vectors Z1, Z3, Z4). -/
theorem witness_ResetLoadsTheVector :
    setup.phase = .setup ∧ (image setup 0xFFFC [0x00, 0x02]).phase = .setup ∧
    (image setup 0xFFFC [0x00, 0x02]).peekWord 0xFFFC = some 0x0200 ∧
    ({ setup with devices := [] } : State).route 0xFFFC = none ∧
    (∃ d m, ({ setup with devices := [⟨"ROM", 0xF000, .memory (MemoryDevice.new 0x0FFD true)⟩] } : State).route
      0xFFFC = some d ∧ d.unit = .memory m ∧ m.size ≤ d.offset 0xFFFC + 1) ∧ State.reset.phase = .running :=
  ⟨rfl, by decide, by decide, by decide, ⟨_, _, rfl, rfl, by decide⟩, rfl⟩

/-- StepRunsDecodedInstruction: an instruction of each length, and `BRK`. -/
theorem witness_StepRunsDecodedInstruction :
    unassignedOpcodes.contains demo.cfg.haltOpcode = true ∧ demo.HoldsCode (.ldaImm 0x05) ∧
    ({ demo with pc := 0x0202 } : State).HoldsCode .nop ∧ ({ demo with pc := 0x0203 } : State).HoldsCode .hlt ∧
    ({ demo with pc := 0x0204 } : State).HoldsCode (.ldaAbs 0x0010) ∧ ({ demo with pc := 0x0300 } : State).HoldsCode .brk ∧
    ({ demo with pc := 0x0207 } : State).HoldsCode (.unassigned 0x02) := by
  refine ⟨by decide, ⟨by decide, ?_⟩, ⟨by decide, trivial⟩, ⟨by decide, trivial⟩, ⟨by decide, ?_⟩, ⟨by decide, trivial⟩,
    ⟨by decide, trivial⟩⟩
  · show demo.peek _ = _
    decide
  · show State.peekWord _ _ = _
    decide

/-- HaltedReportsHlt: a step over `HLT` and one over another instruction. -/
theorem witness_HaltedReportsHlt :
    (∃ t u, fetch ({ demo with pc := 0x0203 } : State).beginStep = .ok (.hlt, u) ∧
      step { demo with pc := 0x0203 } = .next t) ∧
    ∃ t u, fetch demo.beginStep = .ok (.ldaImm 0x05, u) ∧ step demo = .next t :=
  ⟨⟨_, _, rfl, rfl⟩, _, _, rfl, rfl⟩

/-- StepKeepsInvariant, DeviceMapIsFixed, StepNeverChangesRom: a step that completes and one that ends in an error. -/
theorem witness_step :
    demo.Inv ∧ (∃ t, step demo = .next t) ∧ ({ demo with pc := 0x9000 } : State).Inv ∧
    ∃ kind l, step { demo with pc := 0x9000 } = .fault (.busError kind l) :=
  ⟨witness_invariant, ⟨_, rfl⟩, ⟨witness_invariant.cfg, witness_invariant.bit5, witness_invariant.devices⟩, _, _, rfl⟩

/-- DeviceMapIsFixed, the records: after reset; before it, one that ends at 0x10000, one of size 0, one past the end. -/
theorem witness_DeviceMapIsFixed :
    demo.phase = .running ∧ setup.phase = .setup ∧
    (1 ≤ Device.size setup.cfg ⟨"last", 0xFFFE, .keyboard Keyboard.new⟩ ∧
      (0xFFFE : Word).toNat + Device.size setup.cfg ⟨"last", 0xFFFE, .keyboard Keyboard.new⟩ ≤ 0x10000) ∧
    Device.size setup.cfg ⟨"empty", 0x9000, .memory (MemoryDevice.new 0 false)⟩ = 0 ∧
    0x10000 < (0xFFFF : Word).toNat + Device.size setup.cfg ⟨"long", 0xFFFF, .keyboard Keyboard.new⟩ := by decide

/-- StepHasThreeOutcomes: an opcode fetch of `HLT`, and one of another opcode. -/
theorem witness_StepHasThreeOutcomes :
    (∃ u, ({ demo with pc := 0x0203 } : State).beginStep.fetch8 = .ok (demo.cfg.haltOpcode, u)) ∧
    ∃ u, demo.beginStep.fetch8 = .ok (0xA9, u) := ⟨⟨_, rfl⟩, _, rfl⟩

/-- ImageTooLargeOnlyFromLoad, LoadInstallsImage: a load that does not fit, one that does, into a device not yet loaded;
one into a device that has been; one at a peripheral; one where nothing is; one after reset. -/
theorem witness_loads :
    setup.phase = .setup ∧
    (∃ d m, setup.route 0xFFFF = some d ∧ d.unit = .memory m ∧ m.loaded = false ∧
      m.size < d.offset 0xFFFF + ([0xAA, 0xBB] : List Byte).length ∧
      m.load (d.offset 0xFFFF) [0xAA, 0xBB] = .error .imageTooLarge) ∧
    (∃ d m m', setup.route 0xFFFE = some d ∧ d.unit = .memory m ∧ m.loaded = false ∧
      m.load (d.offset 0xFFFE) [0xAA, 0xBB] = .ok m') ∧
    (loaded setup [0x01] 0xF000).phase = .setup ∧
    (∃ d m, (loaded setup [0x01] 0xF000).route 0xF001 = some d ∧ d.unit = .memory m ∧ m.loaded = true) ∧
    (∃ d k, setup.route 0xD010 = some d ∧ d.unit = .keyboard k ∧ ∀ m, d.unit ≠ .memory m) ∧
    setup.route 0x9000 = none ∧ State.reset.phase = .running :=
  ⟨rfl, ⟨_, _, rfl, rfl, rfl, by decide, rfl⟩, ⟨_, _, _, rfl, rfl, rfl, rfl⟩, by decide, ⟨_, _, rfl, rfl, rfl⟩,
    ⟨_, _, rfl, rfl, nofun⟩, by decide, rfl⟩

/-- SequentialAdvance: `BRK`, and another instruction. -/
theorem witness_SequentialAdvance :
    (∃ t, exec .brk demo = .next t ∧ setsPC .brk = false) ∧ ∃ t, exec (.ldaZp 0x10) demo = .next t ∧
      setsPC (.ldaZp 0x10) = false := ⟨⟨_, rfl, rfl⟩, _, rfl, rfl⟩

/-- DecimalInterruptBreakHaveNoEffect: `D`, `I` and `B` all differ. -/
theorem witness_DecimalInterruptBreakHaveNoEffect :
    AgreeButDIB demo { demo with p := 0xBD } ∧ (Instr.adcImm 0x09) ≠ .php ∧ ∃ t, exec (.adcImm 0x09) demo = .next t :=
  ⟨⟨rfl, by intro f hf; cases f <;> first | rfl | exact absurd (by decide) hf⟩, by decide, _, rfl⟩

/-- DirectModesResolve: each mode, where its sum wraps (vectors M3, M4, M7 and M8). -/
theorem witness_DirectModesResolve :
    0x01FF = ((0x0200 : Word).toNat + 65535) % 65536 ∧ 0xFFFF = ((0x0000 : Word).toNat + 65535) % 65536 ∧
    0x10 = ((0xF0 : Byte).toNat + (0x20 : Byte).toNat) % 256 ∧ 0x01 = ((0xFF : Byte).toNat + (0x02 : Byte).toNat) % 256 ∧
    0x0010 = ((0xFFF0 : Word).toNat + (0x20 : Byte).toNat) % 65536 ∧
    0x13FF = ((0x1300 : Word).toNat + (0xFF : Byte).toNat) % 65536 := by decide

/-- PointerModesResolve: each mode, with a pointer in memory (vectors M9, M11, M14). -/
theorem witness_PointerModesResolve :
    demo.peekWord 0x0024 = some 0x4000 ∧ (0x0024 : Word).toNat = ((0x20 : Byte).toNat + demo.x.toNat) % 256 ∧
    (0x0024 : Word).toNat = (0x24 : Byte).toNat ∧ 0x4010 = ((0x4000 : Word).toNat + demo.y.toNat) % 65536 := by decide

/-- OperandIsByteAtAddress: an immediate, and a byte of memory through a pointer. -/
theorem witness_OperandIsByteAtAddress :
    (∃ ea t, resolve (.immediate 0x05) demo = .ok (ea, t)) ∧
    ∃ t, resolve (.indexedIndirect 0x20) demo = .ok (0x4000, t) ∧ t.peek 0x4000 = some 0xAB ∧
      ∀ nn, Mode.indexedIndirect 0x20 ≠ .immediate nn := ⟨⟨_, _, rfl⟩, _, rfl, by decide, nofun⟩

/-- BusErrorEndsStep, one access: each kind a step can meet. -/
theorem witness_BusErrorEndsStep_access :
    demo.hostTurn.busGet 0x9000 = .error .deviceNotFound ∧ demo.hostTurn.busGetWord 0x7FFF = .error .outOfRange ∧
    demo.hostTurn.busSet 0xF000 0x00 = .error .readOnlyViolation := ⟨rfl, rfl, rfl⟩

/-- BusErrorEndsStep, the opcode fetch (vectors E1 and E3's boundary 0x8000): no device, past RAM, and the one other
offset of each peripheral that routing reaches. -/
theorem witness_BusErrorEndsStep_opcode :
    ({ demo with pc := 0x9000 } : State).route 0x9000 = none ∧
    (∃ d m, ({ demo with pc := 0x8000 } : State).route 0x8000 = some d ∧ d.unit = .memory m ∧
      m.size ≤ d.offset 0x8000) ∧
    (∃ d k, ({ demo with pc := 0xD012 } : State).route 0xD012 = some d ∧ d.unit = .keyboard k ∧
      d.offset 0xD012 ≠ demo.cfg.kbdDataOff ∧ d.offset 0xD012 ≠ demo.cfg.kbdCtrlOff) ∧
    (∃ d u, ({ demo with pc := 0xD022 } : State).route 0xD022 = some d ∧ d.unit = .terminal u ∧
      d.offset 0xD022 ≠ demo.cfg.termDataOff ∧ d.offset 0xD022 ≠ demo.cfg.termCtrlOff) ∧
    demo.hostTurn.busGet 0xD012 = .error .outOfRange :=
  ⟨by decide, ⟨_, _, rfl, rfl, by decide⟩, ⟨_, _, rfl, rfl, by decide, by decide⟩,
    ⟨_, _, rfl, rfl, by decide, by decide⟩, rfl⟩

/-- BusErrorEndsStep, the operand fetch (vectors E8 and E9): a byte past RAM, a word whose second byte is past RAM, and
nothing at 0x0000 behind an opcode at 0xFFFF. -/
theorem witness_BusErrorEndsStep_operand :
    unassignedOpcodes.contains demo.cfg.haltOpcode = true ∧
    (∃ d m, ({ demo with pc := 0x7FFF } : State).peek 0x7FFF = some ((Instr.ldaImm 0x00).opcode demo.cfg.haltOpcode) ∧
      (Instr.ldaImm 0x00).operand.bytes.length = 1 ∧ demo.route (0x7FFF + 1) = some d ∧ d.unit = .memory m ∧
      m.size ≤ d.offset (0x7FFF + 1)) ∧
    (∃ d m, ({ demo with pc := 0x7FFE } : State).peek 0x7FFE = some ((Instr.ldaAbs 0x0000).opcode demo.cfg.haltOpcode) ∧
      (Instr.ldaAbs 0x0000).operand.bytes.length = 2 ∧ demo.route (0x7FFE + 1) = some d ∧ d.unit = .memory m ∧
      m.size ≤ d.offset (0x7FFE + 1) + 1) ∧
    ((shortPage 2 0xA9).peek 0xFFFF = some ((Instr.ldaImm 0x00).opcode demo.cfg.haltOpcode) ∧
      (shortPage 2 0xA9).route (0xFFFF + 1) = none) ∧
    (shortPage 2 0xAD).peek 0xFFFF = some ((Instr.ldaAbs 0x0000).opcode demo.cfg.haltOpcode) ∧
    (shortPage 2 0xAD).route (0xFFFF + 1) = none ∧ demo.hostTurn.hostTurn.busGet (0x7FFF + 1) = .error .outOfRange ∧
    demo.hostTurn.hostTurn.busGetWord (0x7FFE + 1) = .error .outOfRange :=
  ⟨by decide, ⟨_, _, by decide, rfl, rfl, rfl, by decide⟩, ⟨_, _, by decide, rfl, rfl, rfl, by decide⟩,
    ⟨by decide, by decide⟩, by decide, by decide, rfl, rfl⟩

/-- BusErrorEndsStep, the body: one error of each place (section 4.4). -/
theorem witness_BusErrorEndsStep_body :
    resolve (.indirect 0x7FFF) demo = .error (failed .outOfRange demo) ∧
    readOperand (.absolute 0x8000) demo = .error (failed .outOfRange demo) ∧
    (∃ t, resolve (.absolute 0x9000) demo = .ok (0x9000, t) ∧
      t.memRead 0x9000 = .error (failed .deviceNotFound demo)) ∧
    ∃ t v u, resolve (.absolute 0xF000) demo = .ok (0xF000, t) ∧ t.memRead 0xF000 = .ok (v, u) ∧
      (∀ r, u.memWrite 0xF000 r = .error (failed .readOnlyViolation demo)) ∧
      ∀ r, t.memWrite 0xF000 r = .error (failed .readOnlyViolation demo) :=
  ⟨rfl, rfl, ⟨_, rfl, rfl⟩, _, _, _, rfl, rfl, fun _ => rfl, fun _ => rfl⟩

/-- BusErrorEndsStep, the stack: the first access fails, the second alone, the third alone. -/
theorem witness_BusErrorEndsStep_stack :
    ({ State.reset with devices := [] } : State).pull8 =
      .error (failed .deviceNotFound { State.reset with devices := [] }) ∧
    (∀ v, romStack.push8 v = .error (failed .readOnlyViolation romStack)) ∧
    (∀ v, ({ romStack with lea := 0x0300 } : State).push8 v = .error (failed .readOnlyViolation romStack)) ∧
    (∃ l t, (shortPage 1 0x60).pull8 = .ok (l, t) ∧ t.pull8 = .error (failed .outOfRange (shortPage 1 0x60))) ∧
    (∃ b t, (shortPage 1 0x40).pull8 = .ok (b, t) ∧
      (t.setStatus b).pull8 = .error (failed .outOfRange (shortPage 1 0x40))) ∧
    ∃ b t l u, (shortPage 2 0x40).pull8 = .ok (b, t) ∧ (t.setStatus b).pull8 = .ok (l, u) ∧
      u.pull8 = .error (failed .outOfRange (shortPage 2 0x40)) :=
  ⟨rfl, fun _ => rfl, fun _ => rfl, ⟨_, _, rfl, rfl⟩, ⟨_, _, rfl, rfl⟩, _, _, _, _, rfl, rfl, rfl⟩

/-- The statements about an instruction that reads an operand: one operand of each kind, read from memory, the
keyboard and the instruction. -/
theorem witness_operand :
    (∃ t, readOperand (.immediate 0x05) demo = .ok (0x05, t)) ∧ (∃ t, readOperand (.zeroPage 0x10) demo = .ok (0x42, t)) ∧
    (∃ t, readOperand (.zeroPageX 0x0C) demo = .ok (0x42, t)) ∧ (∃ t, readOperand (.zeroPageY 0x00) demo = .ok (0x42, t)) ∧
    (∃ t, readOperand (.absolute 0xD010) demo = .ok (0xC1, t)) ∧
    (∃ t, readOperand (.absoluteX 0x3FFC) demo = .ok (0xAB, t)) ∧
    (∃ t, readOperand (.absoluteY 0x0000) demo = .ok (0x42, t)) ∧
    (∃ t, readOperand (.indexedIndirect 0x20) demo = .ok (0xAB, t)) ∧
    ∃ t, readOperand (.indirectIndexed 0x24) demo = .ok (0x00, t) :=
  ⟨⟨_, rfl⟩, ⟨_, rfl⟩, ⟨_, rfl⟩, ⟨_, rfl⟩, ⟨_, rfl⟩, ⟨_, rfl⟩, ⟨_, rfl⟩, ⟨_, rfl⟩, _, rfl⟩

/-- AdcAddsWithCarry, SbcAddsComplement, SbcSubtractsWithBorrow, BitTestsOperand, CompareSetsFlags, LogicCombinesBitwise,
LoadsSetRegister: an instruction of each mnemonic with an operand of `witness_operand`. -/
theorem witness_operand_instructions :
    ([Instr.adcImm 0x05, .sbcImm 0x05, .bitZp 0x10, .cmpImm 0x05, .cpxImm 0x05, .cpyImm 0x05, .andImm 0x05,
      .oraZp 0x10, .eorZp 0x10, .ldaImm 0x05, .ldxImm 0x05, .ldyImm 0x05].map fun i => (i.mnemonic, i.operand)) =
    [(.ADC, .mode (.immediate 0x05)), (.SBC, .mode (.immediate 0x05)), (.BIT, .mode (.zeroPage 0x10)),
      (.CMP, .mode (.immediate 0x05)), (.CPX, .mode (.immediate 0x05)), (.CPY, .mode (.immediate 0x05)),
      (.AND, .mode (.immediate 0x05)), (.ORA, .mode (.zeroPage 0x10)), (.EOR, .mode (.zeroPage 0x10)),
      (.LDA, .mode (.immediate 0x05)), (.LDX, .mode (.immediate 0x05)), (.LDY, .mode (.immediate 0x05))] := by decide

/-- The same statements' error clauses, and those of IncDecMemory: one past RAM, nothing there, a write to ROM. -/
theorem witness_operand_errors :
    readOperand (.absolute 0x8000) demo = .error (failed .outOfRange demo) ∧
    (∃ t, resolve (.absolute 0x9000) demo = .ok (0x9000, t) ∧ t.memRead 0x9000 = .error (failed .deviceNotFound demo)) ∧
    ∃ t v u, resolve (.absolute 0xF000) demo = .ok (0xF000, t) ∧ t.memRead 0xF000 = .ok (v, u) ∧ v = 0x77 ∧
      u.memWrite 0xF000 0x78 = .error (failed .readOnlyViolation demo) ∧ u.memWrite 0xF000 0x76 = .error (failed .readOnlyViolation demo) :=
  ⟨rfl, ⟨_, rfl, rfl⟩, _, _, _, rfl, rfl, by decide, rfl, rfl⟩

/-- SbcSubtractsWithBorrow: the instruction goes on. -/
theorem witness_SbcSubtractsWithBorrow : ∃ u, exec (.sbcImm 0x05) demo = .next u := ⟨_, rfl⟩

/-- IncDecMemory and ShiftMemory: the three accesses, the results of 0x42 (`C` is 1 in `demo`), and the wraps. -/
theorem witness_readModifyWrite :
    (∃ t1 t2 v, resolve (.zeroPage 0x10) demo = .ok (0x0010, t1) ∧ t1.memRead 0x0010 = .ok (v, t2) ∧ v = 0x42 ∧
      ∀ r ∈ [(0x43 : Byte), 0x41, 0x84, 0x21, 0x85, 0xA1], ∃ t3, t2.memWrite 0x0010 r = .ok t3) ∧
    (0x43 : Byte).toNat = ((0x42 : Byte).toNat + 1) % 256 ∧ (0x41 : Byte).toNat = ((0x42 : Byte).toNat + 255) % 256 ∧
    (0x00 : Byte).toNat = ((0xFF : Byte).toNat + 1) % 256 ∧ (0xFF : Byte).toNat = ((0x00 : Byte).toNat + 255) % 256 ∧
    shifted .ASL (demo.flag .C) 0x42 = some ((0x84 : Byte).toNat, false) ∧
    shifted .LSR (demo.flag .C) 0x42 = some ((0x21 : Byte).toNat, false) ∧
    shifted .ROL (demo.flag .C) 0x42 = some ((0x85 : Byte).toNat, false) ∧
    shifted .ROR (demo.flag .C) 0x42 = some ((0xA1 : Byte).toNat, false) := by
  refine ⟨⟨_, _, _, rfl, rfl, by decide, ?_⟩, by decide, by decide, by decide, by decide, by decide, by decide, by decide,
    by decide⟩
  intro r hr
  simp only [List.mem_cons, List.not_mem_nil, or_false] at hr
  rcases hr with rfl | rfl | rfl | rfl | rfl | rfl <;> exact ⟨_, rfl⟩

/-- ShiftAccumulator. -/
theorem witness_ShiftAccumulator :
    ∀ i ∈ [Instr.aslAcc, .lsrAcc, .rolAcc, .rorAcc], i.operand = .accumulator := by decide

/-- BranchesFollowFlags: taken and not, at the ends of the offset's range (vectors B13, B14). -/
theorem witness_BranchesFollowFlags :
    (Instr.bcs 0x80).operand = .relative 0x80 ∧ demo.flag .C = true ∧ (Instr.beq 0x7F).operand = .relative 0x7F ∧
    demo.flag .Z = false := by decide

/-- JmpSetsPC: both forms. -/
theorem witness_JmpSetsPC :
    (∃ t, resolve (.absolute 0x0300) demo = .ok (0x0300, t)) ∧ (∃ t, resolve (.indirect 0x0024) demo = .ok (0x4000, t)) ∧
    (Instr.jmpAbs 0x0300).operand = .mode (.absolute 0x0300) ∧ (Instr.jmpInd 0x0024).operand = .mode (.indirect 0x0024) :=
  ⟨⟨_, rfl⟩, ⟨_, rfl⟩, rfl, rfl⟩

theorem shortStack_inv : shortStack.Inv := by
  refine ⟨by decide, by decide, ?_⟩
  intro d hd
  simp only [shortStack, List.mem_cons, List.not_mem_nil, or_false] at hd
  rcases hd with rfl | rfl
  · exact ⟨by decide, by decide⟩
  · exact ⟨by decide, by decide⟩

/-- JsrPushesAndJumps, the error clauses: the first push fails, the second alone fails after the first is written. -/
theorem witness_JsrPushesAndJumps_errors :
    ({ romStack with lea := 0x0300 } : State).push8 (hi (romStack.pc - 1)) =
      .error (failed .readOnlyViolation romStack) ∧
    shortStack.Inv ∧ shortStack.peek (stackAddr shortStack.sp) = some 0x00 ∧
    ∃ t, ({ shortStack with lea := 0x0300 } : State).push8 (hi (shortStack.pc - 1)) = .ok t ∧
      t.push8 (lo (shortStack.pc - 1)) = .error (failed .deviceNotFound t) ∧
      exec (.jsr 0x0300) shortStack = .fault (failed .deviceNotFound t) :=
  ⟨rfl, shortStack_inv, by decide, _, rfl, rfl, rfl⟩

/-- RtsPullsPlusOne, the error clauses: the first pull fails, the second alone fails. -/
theorem witness_RtsPullsPlusOne_errors :
    shortStack.pull8 = .error (failed .outOfRange shortStack) ∧
    ∃ l t, ({ shortStack with sp := 0xFF } : State).pull8 = .ok (l, t) ∧
      t.pull8 = .error (failed .outOfRange shortStack) :=
  ⟨rfl, _, _, rfl, rfl⟩

/-- JsrPushesAndJumps, also where `SP` wraps between the two pushes (vector J4). -/
theorem witness_JsrPushesAndJumps :
    (∃ t u, ({ demo with lea := 0x0300 } : State).push8 0x01 = .ok t ∧ t.push8 0xFF = .ok u) ∧
    ∃ t u, ({ demo with sp := 0x00, lea := 0x0300 } : State).push8 0x01 = .ok t ∧ t.push8 0xFF = .ok u :=
  ⟨⟨_, _, rfl, rfl⟩, _, _, rfl, rfl⟩

/-- RtsPullsPlusOne (vector J5). -/
theorem witness_RtsPullsPlusOne : ∃ l h t u, demo.pull8 = .ok (l, t) ∧ t.pull8 = .ok (h, u) ∧ l = 0x07 ∧ h = 0x03 :=
  ⟨_, _, _, _, rfl, rfl, by decide, by decide⟩

/-- RtiPullsStatusAndPC. -/
theorem witness_RtiPullsStatusAndPC :
    ∃ b l h t u v, demo.pull8 = .ok (b, t) ∧ (t.setStatus b).pull8 = .ok (l, u) ∧ u.pull8 = .ok (h, v) :=
  ⟨_, _, _, _, _, _, rfl, rfl, rfl⟩

/-- PullsUndoPushes: both clauses. -/
theorem witness_PullsUndoPushes :
    demo.Inv ∧ (∃ b0 b1, demo.peek (stackAddr demo.sp) = some b0 ∧ demo.peek (stackAddr (demo.sp - 1)) = some b1) ∧
    (∃ t u, exec (.jsr 0x0300) demo = .next t ∧ exec .rts { t with pc := 0x0301 } = .next u) ∧
    ∃ t u, exec .pha demo = .next t ∧ exec .pla { t with a := 0x00, pc := 0x0203 } = .next u :=
  ⟨witness_invariant, ⟨_, _, rfl, rfl⟩, ⟨_, _, rfl, rfl⟩, _, _, rfl, rfl⟩

/-- BrkAdvancesByTwo, HltReportsHalt, NoOperationsOnlyAdvance. -/
theorem witness_single_byte_steps :
    unassignedOpcodes.contains demo.cfg.haltOpcode = true ∧ demo.peek 0x0300 = some 0x00 ∧
    demo.peek 0x0203 = some demo.cfg.haltOpcode ∧ demo.peek 0x0202 = some 0xEA ∧ demo.peek 0x0207 = some 0x02 ∧
    unassignedOpcodes.contains 0x02 = true ∧ (0x02 : Byte) ≠ demo.cfg.haltOpcode := by decide

/-- StackPrimitives: the push and the pull, also where `SP` wraps (vectors J11, J13). -/
theorem witness_StackPrimitives :
    (∃ t, demo.memWrite (stackAddr demo.sp) 0x12 = .ok t) ∧ demo.peek (stackAddr (demo.sp + 1)) = some 0x07 ∧
    (∃ t, ({ demo with sp := 0x00 } : State).memWrite (stackAddr 0x00) 0x12 = .ok t) ∧
    ({ demo with sp := 0xFF } : State).peek (stackAddr (0xFF + 1)) = some 0x00 := ⟨⟨_, rfl⟩, by decide, ⟨_, rfl⟩, by decide⟩

/-- PushesCompleteWithNoFlag. -/
theorem witness_PushesCompleteWithNoFlag :
    (∃ t, demo.push8 demo.a = .ok t) ∧ ∃ t, demo.push8 0xA1 = .ok t ∧ bitOf 0xA1 5 = true ∧
      ∀ f ∈ [Flag.C, .Z, .I, .D, .B, .R, .V, .N], bitOf 0xA1 f.bit = demo.flag f := ⟨⟨_, rfl⟩, _, rfl, by decide, by decide⟩

/-- PullsLoadRegister. -/
theorem witness_PullsLoadRegister : ∃ b t, demo.pull8 = .ok (b, t) := ⟨_, _, rfl⟩

/-- StoresWriteRegister: each mnemonic; a store to the terminal too. -/
theorem witness_StoresWriteRegister :
    (∃ t u, resolve (.zeroPage 0x10) demo = .ok (0x0010, t) ∧ t.memWrite 0x0010 demo.a = .ok u) ∧
    (∃ t u, resolve (.zeroPageY 0x10) demo = .ok (0x0020, t) ∧ t.memWrite 0x0020 demo.x = .ok u) ∧
    (∃ t u, resolve (.absolute 0xD021) demo = .ok (0xD021, t) ∧ t.memWrite 0xD021 demo.y = .ok u) ∧
    (Instr.staZp 0x10).operand = .mode (.zeroPage 0x10) ∧ (Instr.stxZpy 0x10).operand = .mode (.zeroPageY 0x10) ∧
    (Instr.styAbs 0xD021).operand = .mode (.absolute 0xD021) :=
  ⟨⟨_, _, rfl, rfl⟩, ⟨_, _, rfl, rfl⟩, ⟨_, _, rfl, rfl⟩, rfl, rfl, rfl⟩

/-- FlagInstructionsWriteOneBit. -/
theorem witness_FlagInstructionsWriteOneBit :
    (Instr.clc, Flag.C, false) ∈ [(Instr.clc, Flag.C, false), (.sec, .C, true), (.cli, .I, false), (.sei, .I, true),
      (.clv, .V, false), (.cld, .D, false), (.sed, .D, true)] := by decide

/-- RegisterFrame, FlagFrame, ScratchFrame, MemoryFrame: an instruction of each shape goes on, and each clause has one
that meets its condition. -/
theorem witness_frames :
    demo.Inv ∧ (∃ t, exec (.ldaZp 0x10) demo = .next t) ∧ (∃ t, exec (.incZp 0x10) demo = .next t) ∧
    (∃ t, exec (.staAbs 0x0300) demo = .next t) ∧ (∃ t, exec .tax demo = .next t) ∧ (∃ t, exec .pha demo = .next t) ∧
    (∃ t, exec (.jsr 0x0300) demo = .next t) ∧ (∃ t, exec .rti demo = .next t) ∧ (∃ t, exec (.beq 0x02) demo = .next t) ∧
    writesA (.incZp 0x10) = false ∧ writesX (.ldaZp 0x10) = false ∧ writesY .tax = false ∧ writesSP .tax = false ∧
    Flag.V ∉ flagsWritten .LDA ∧ (∀ m, Instr.tax.operand ≠ .mode m) ∧
    (0x0011 : Word) ∉ storeAddresses (.incZp 0x10) demo ∧ (0x01FC : Word) ∉ storeAddresses .pha demo ∧
    (0x01FB : Word) ∉ storeAddresses (.jsr 0x0300) demo ∧ storeAddresses (.ldaZp 0x10) demo = [] :=
  ⟨witness_invariant, ⟨_, rfl⟩, ⟨_, rfl⟩, ⟨_, rfl⟩, ⟨_, rfl⟩, ⟨_, rfl⟩, ⟨_, rfl⟩, ⟨_, rfl⟩, ⟨_, rfl⟩, by decide, by decide,
    by decide, by decide, by decide, nofun, by decide, by decide, by decide, by decide⟩

/-- MemoryWrite: RAM inside, RAM one past the end, ROM (vectors BUS6 to BUS8). -/
theorem witness_MemoryWrite :
    demo.Inv ∧ (∃ d m, demo.route 0x7FFF = some d ∧ d.unit = .memory m ∧ m.readOnly = false ∧ d.offset 0x7FFF < m.size) ∧
    (∃ d m, demo.route 0x8000 = some d ∧ d.unit = .memory m ∧ m.readOnly = false ∧ m.size ≤ d.offset 0x8000) ∧
    ∃ d m, demo.route 0xF000 = some d ∧ d.unit = .memory m ∧ m.readOnly = true :=
  ⟨witness_invariant, ⟨_, _, rfl, rfl, rfl, by decide⟩, ⟨_, _, rfl, rfl, rfl, by decide⟩, _, _, rfl, rfl, rfl⟩

/-- MemoryByteRead, MemoryWordReadAndWrite, LoadInstallsImage: both sides of each bound (vectors BUS2, BUS3,
BUS11, BUS13 to BUS17, BUS20). -/
theorem witness_memory_words :
    (∃ d m, demo.route 0x7FFF = some d ∧ d.unit = .memory m ∧ (0x7FFF : Word).toNat - d.base.toNat < m.size) ∧
    (∃ d m, demo.route 0x8000 = some d ∧ d.unit = .memory m ∧ m.size ≤ (0x8000 : Word).toNat - d.base.toNat) ∧
    ∃ m : MemoryDevice, m = MemoryDevice.new 0x1000 false ∧ m.bytes.wf ∧ m.readOnly = false ∧ m.size ≤ 0xFFF + 1 ∧
      0xFFE + 1 < m.size ∧ (MemoryDevice.new 0x1000 true).readOnly = true ∧
      m.size < 0xFFF + ([0xAA, 0xBB] : List Byte).length ∧ 0xFFE + ([0xAA, 0xBB] : List Byte).length ≤ m.size ∧
      ([0xAA, 0xBB] : List Byte)[1]? = some 0xBB :=
  ⟨⟨_, _, rfl, rfl, by decide⟩, ⟨_, _, rfl, rfl, by decide⟩, _, rfl, by decide, rfl, by decide, by decide, rfl, by decide,
    by decide, by decide⟩

/-- KeyboardReadsAndWrites: the data address with and without a key, the control address, and one past (vectors K1 to K3,
K5 to K7); configured or not. -/
theorem witness_KeyboardReadsAndWrites :
    demo.Inv ∧ (∃ d k, demo.route 0xD010 = some d ∧ d.unit = .keyboard k ∧ d.offset 0xD010 = demo.cfg.kbdDataOff ∧
      k.queue = 0x41 :: [0x42]) ∧
    (∃ d k, State.reset.route 0xD010 = some d ∧ d.unit = .keyboard k ∧ d.offset 0xD010 = State.reset.cfg.kbdDataOff ∧
      k.queue = []) ∧
    (∃ d k, demo.route 0xD011 = some d ∧ d.unit = .keyboard k ∧ d.offset 0xD011 = demo.cfg.kbdCtrlOff) ∧
    (∃ t d k, demo.busSet 0xD011 0xFF = .ok t ∧ t.route 0xD011 = some d ∧ d.unit = .keyboard k ∧ k.configured = true) ∧
    ∃ d k, demo.route 0xD012 = some d ∧ d.unit = .keyboard k ∧ d.offset 0xD012 ≠ demo.cfg.kbdDataOff ∧
      d.offset 0xD012 ≠ demo.cfg.kbdCtrlOff :=
  ⟨witness_invariant, ⟨_, _, rfl, rfl, rfl, rfl⟩, ⟨_, _, rfl, rfl, rfl, rfl⟩, ⟨_, _, rfl, rfl, rfl⟩,
    ⟨_, _, _, rfl, rfl, rfl, rfl⟩, _, _, rfl, rfl, by decide, by decide⟩

/-- KeyboardReadsAndWrites, its words: the two registers in each order, past the device, and a second address inside the
device that is no register (vectors K8 and K9, and their offsets exchanged). -/
theorem witness_keyboard_words :
    demo.Inv ∧ (exchanged demo).Inv ∧ (wider demo).Inv ∧
    (∃ d k, demo.route 0xD010 = some d ∧ d.unit = .keyboard k ∧
      InOrder (d.offset 0xD010) demo.cfg.kbdDataOff demo.cfg.kbdCtrlOff ∧ k.queue = 0x41 :: [0x42]) ∧
    (∃ d k, State.reset.route 0xD010 = some d ∧ d.unit = .keyboard k ∧
      InOrder (d.offset 0xD010) State.reset.cfg.kbdDataOff State.reset.cfg.kbdCtrlOff ∧ k.queue = []) ∧
    (∃ d k, (exchanged demo).route 0xD010 = some d ∧ d.unit = .keyboard k ∧
      InOrder (d.offset 0xD010) (exchanged demo).cfg.kbdCtrlOff (exchanged demo).cfg.kbdDataOff ∧
      k.queue = 0x41 :: [0x42]) ∧
    (∃ d k, (exchanged State.reset).route 0xD010 = some d ∧ d.unit = .keyboard k ∧
      InOrder (d.offset 0xD010) (exchanged State.reset).cfg.kbdCtrlOff (exchanged State.reset).cfg.kbdDataOff ∧
      k.queue = []) ∧
    (∃ d k, demo.route 0xD011 = some d ∧ d.unit = .keyboard k ∧ demo.cfg.periphSize ≤ d.offset 0xD011 + 1) ∧
    ∃ d k, (wider demo).route 0xD011 = some d ∧ d.unit = .keyboard k ∧
      d.offset 0xD011 + 1 < (wider demo).cfg.periphSize ∧
      ¬ InOrder (d.offset 0xD011) (wider demo).cfg.kbdDataOff (wider demo).cfg.kbdCtrlOff ∧
      ¬ InOrder (d.offset 0xD011) (wider demo).cfg.kbdCtrlOff (wider demo).cfg.kbdDataOff :=
  ⟨witness_invariant, ⟨by decide, by decide, witness_invariant.devices⟩, ⟨by decide, by decide, witness_invariant.devices⟩,
    ⟨_, _, rfl, rfl, ⟨rfl, rfl⟩, rfl⟩, ⟨_, _, rfl, rfl, ⟨rfl, rfl⟩, rfl⟩, ⟨_, _, rfl, rfl, ⟨rfl, rfl⟩, rfl⟩,
    ⟨_, _, rfl, rfl, ⟨rfl, rfl⟩, rfl⟩, ⟨_, _, rfl, rfl, by decide⟩, _, _, rfl, rfl, by decide,
    fun h => absurd h.1 (by decide), fun h => absurd h.2 (by decide)⟩

/-- TerminalReadsAndClears: a configured terminal, written and read at its data address; on the bus its two registers and
one past them; and words: its registers in each order, past the device, and no register (vectors TM13 and TM14). -/
theorem witness_TerminalReadsAndClears :
    (∃ t : Terminal, t.configured = true ∧ (∃ t', t.set small 0 0x41 = .ok t') ∧
      ∃ v t', t.get small 0 = .ok (v, t')) ∧
    (∃ d t, demo.route 0xD020 = some d ∧ d.unit = .terminal t ∧ d.offset 0xD020 = demo.cfg.termDataOff ∧
      InOrder (d.offset 0xD020) demo.cfg.termDataOff demo.cfg.termCtrlOff ∧ d.offset 0xD020 + 1 < demo.cfg.periphSize) ∧
    (∃ d t, demo.route 0xD021 = some d ∧ d.unit = .terminal t ∧ d.offset 0xD021 = demo.cfg.termCtrlOff ∧
      demo.cfg.periphSize ≤ d.offset 0xD021 + 1) ∧
    (∃ d t, demo.route 0xD022 = some d ∧ d.unit = .terminal t ∧ d.offset 0xD022 ≠ demo.cfg.termDataOff ∧
      d.offset 0xD022 ≠ demo.cfg.termCtrlOff) ∧
    (∃ d t, (exchanged demo).route 0xD020 = some d ∧ d.unit = .terminal t ∧
      InOrder (d.offset 0xD020) (exchanged demo).cfg.termCtrlOff (exchanged demo).cfg.termDataOff ∧
      d.offset 0xD020 + 1 < (exchanged demo).cfg.periphSize) ∧
    ∃ d t, (wider demo).route 0xD021 = some d ∧ d.unit = .terminal t ∧
      d.offset 0xD021 + 1 < (wider demo).cfg.periphSize ∧
      ¬ InOrder (d.offset 0xD021) (wider demo).cfg.termDataOff (wider demo).cfg.termCtrlOff ∧
      ¬ InOrder (d.offset 0xD021) (wider demo).cfg.termCtrlOff (wider demo).cfg.termDataOff :=
  ⟨⟨{ Terminal.new small with configured := true }, rfl, ⟨_, rfl⟩, _, _, rfl⟩,
    ⟨_, _, rfl, rfl, rfl, ⟨rfl, rfl⟩, by decide⟩, ⟨_, _, rfl, rfl, rfl, by decide⟩,
    ⟨_, _, rfl, rfl, by decide, by decide⟩, ⟨_, _, rfl, rfl, ⟨rfl, rfl⟩, by decide⟩, _, _, rfl, rfl, by decide,
    fun h => absurd h.1 (by decide), fun h => absurd h.2 (by decide)⟩

/-- TerminalPrints: inside a row, at the last column, and at the last cell; unconfigured; and a routed data address. -/
theorem witness_TerminalPrints :
    small.termDataOff ≠ small.termCtrlOff ∧
    (∀ rc ∈ [(0, 0), (0, 2), (1, 2)], (DeviceUnit.terminal ⟨[[0x20, 0x20, 0x20], [0x20, 0x20, 0x20]], rc.1, rc.2,
      true⟩).wf small) ∧ (DeviceUnit.terminal (Terminal.new small)).wf small ∧
    ∃ d t, demo.route 0xD020 = some d ∧ d.unit = .terminal t ∧ d.offset 0xD020 = demo.cfg.termDataOff := by
  refine ⟨by decide, fun rc h => ?_, ⟨by decide, by decide, by decide, by decide⟩, _, _, rfl, rfl, rfl⟩
  simp only [List.mem_cons, List.not_mem_nil, or_false] at h
  rcases h with rfl | rfl | rfl <;> exact ⟨by decide, by decide, by decide, by decide⟩

/-- KeysAppendAtTheEnd. -/
theorem witness_KeysAppendAtTheEnd :
    (∃ d k, demo.devices[1]? = some d ∧ d.unit = .keyboard k) ∧
    ({ demo with arrivals := [[⟨1, 0x43⟩]] } : State).arrivals = [⟨1, 0x43⟩] :: [] ∧
    (∃ v t, (demo.kbdEnqueue ⟨1, 0x43⟩).busGet 0xD010 = .ok (v, t)) ∧
    (demo.kbdEnqueue ⟨1, 0x43⟩).busGet 0x9000 = .error .deviceNotFound := ⟨⟨_, _, rfl, rfl⟩, rfl, ⟨_, _, rfl⟩, rfl⟩

end Sys2Proof.Tests
end

section
/-! PROOFS. The frame of a step: what an instruction, and the whole step, keeps of the state, said once. Its fields give
the invariant (00_scope.md R5, 10_state.md R15, 20_memory.md R44, R55), and with it `HALTED` (R20), the device map and
the contents of every ROM. -/

namespace Sys2Proof.Machine

/-! ## The frame -/

/-- What every instruction but `HLT` keeps: the open parameters, the phase, `HALTED`, bit 5 of `P` once it is 1, and of
the devices the records, the contents of every ROM and the form. -/
structure State.Frame (s t : State) : Prop where
  cfg : t.cfg = s.cfg
  phase : t.phase = s.phase
  halted : t.halted = s.halted
  bit5 : bitOf s.p 5 = true → bitOf t.p 5 = true
  records : t.devices.map Device.record = s.devices.map Device.record
  roms : t.devices.map Device.romBytes = s.devices.map Device.romBytes
  wf : (∀ d ∈ s.devices, d.unit.wf s.cfg) → ∀ d ∈ t.devices, d.unit.wf t.cfg

variable {i : Instr} {s t u : State}

theorem State.Frame.trans (h : s.Frame t) (g : t.Frame u) : s.Frame u :=
  ⟨g.cfg.trans h.cfg, g.phase.trans h.phase, g.halted.trans h.halted, g.bit5 ∘ h.bit5, g.records.trans h.records,
    g.roms.trans h.roms, g.wf ∘ h.wf⟩

/-- A change of CPU registers alone: the devices stay as they are. -/
theorem State.frame_of_cpu (cfg : t.cfg = s.cfg := by simp) (phase : t.phase = s.phase := by simp)
    (halted : t.halted = s.halted := by simp) (bit5 : bitOf s.p 5 = true → bitOf t.p 5 = true := by simp)
    (devices : t.devices = s.devices := by simp) : s.Frame t :=
  ⟨cfg, phase, halted, bit5, by rw [devices], by rw [devices], by rw [devices, cfg]; exact id⟩

theorem State.Frame.rfl : s.Frame s := State.frame_of_cpu

/-- Bus activity stays within the frame. -/
theorem State.Keeps.frame (h : s.Keeps t) : s.Frame t :=
  ⟨h.cfg, h.phase, h.halted, by rw [h.p]; exact id, h.records, h.roms, h.wf⟩

/-- The invariant lies within the frame. -/
theorem State.Frame.inv (h : s.Frame t) (hs : s.Inv) : t.Inv :=
  ⟨by rw [h.cfg]; exact hs.cfg, h.bit5 hs.bit5, h.wf hs.devices⟩

/-! ## The frame of the shared operations -/

theorem State.push8_frame {v : Byte} (h : s.push8 v = .ok t) : s.Frame t :=
  .trans State.frame_of_cpu (State.push8_keeps h).frame

theorem State.pull8_frame {v : Byte} (h : s.pull8 = .ok (v, t)) : s.Frame t :=
  .trans State.frame_of_cpu (State.pull8_quiet h).keeps.frame

theorem resolve_frame {m : Mode} {ea : Word} (h : resolve m s = .ok (ea, t)) : s.Frame t :=
  .trans State.frame_of_cpu (resolve_quiet h).2.keeps.frame

theorem readOperand_frame {m : Mode} {v : Byte} (h : readOperand m s = .ok (v, t)) : s.Frame t :=
  .trans State.frame_of_cpu (readOperand_quiet h).keeps.frame

theorem fetch_frame (h : fetch s = .ok (i, t)) : s.Frame t :=
  .trans State.frame_of_cpu (fetch_quiet h).keeps.frame

theorem operandBody_frame {n : Mnemonic} {f : Byte → State → State} (hf : operandBody n = some f) (v : Byte)
    (s : State) : s.Frame (f v s) := by
  cases n <;> cases hf <;> exact State.frame_of_cpu

theorem State.setModified_frame (s : State) (out : Option Bool) (r : Byte) : s.Frame (s.setModified out r) := by
  cases out with
  | none => exact State.frame_of_cpu (t := s.setZN r)
  | some b => exact State.frame_of_cpu (t := s.setShift b r)

theorem registerBody_frame {f : State → State} (hf : registerBody i = some f) (hi : i ≠ .hlt) (s : State) :
    s.Frame (f s) := by
  cases i
  case hlt => exact absurd rfl hi
  all_goals cases hf <;> exact State.frame_of_cpu

/-! ## The frame of an instruction and of a step -/

/-- Every instruction that completes, other than `HLT`, stays within the frame. -/
theorem Done.frame (h : Done i s t) (hi : i ≠ .hlt) : s.Frame t := by
  cases h with
  | operand _ hf hr => exact (readOperand_frame hr).trans (operandBody_frame hf _ _)
  | modify _ _ h1 h2 h3 =>
    have hread := (resolve_frame h1).trans (State.memRead_quiet h2).keeps.frame
    exact (hread.trans (State.memWrite_keeps h3).frame).trans (State.setModified_frame _ _ _)
  | store _ _ h1 h2 => exact (resolve_frame h1).trans (State.memWrite_keeps h2).frame
  | register hf => exact registerBody_frame hf hi s
  | branch =>
    split
    · exact State.frame_of_cpu
    · exact .rfl
  | jump _ _ h1 => exact (resolve_frame h1).trans State.frame_of_cpu
  | call _ h1 h2 =>
    exact .trans State.frame_of_cpu ((State.push8_frame h1).trans ((State.push8_frame h2).trans State.frame_of_cpu))
  | ret _ h1 h2 => exact (State.pull8_frame h1).trans ((State.pull8_frame h2).trans State.frame_of_cpu)
  | retInterrupt _ h1 h2 h3 =>
    exact (State.pull8_frame h1).trans (.trans State.frame_of_cpu
      ((State.pull8_frame h2).trans ((State.pull8_frame h3).trans State.frame_of_cpu)))
  | pushA _ h1 => exact State.push8_frame h1
  | pushStatus _ h1 => exact State.push8_frame h1
  | pullA _ h1 => exact (State.pull8_frame h1).trans State.frame_of_cpu
  | pullStatus _ h1 => exact (State.pull8_frame h1).trans State.frame_of_cpu

/-- Every instruction that completes keeps all of the frame but `HALTED`. -/
theorem exec_frame (h : exec i s = .next t) : ({ s with halted := t.halted } : State).Frame t := by
  by_cases hi : i = .hlt
  · subst hi
    cases h
    exact State.frame_of_cpu
  · have hf := (exec_done h).frame hi
    exact ⟨hf.cfg, hf.phase, rfl, hf.bit5, hf.records, hf.roms, hf.wf⟩

/-- What a step that completes did: it fetched an instruction and ran it (R100). -/
theorem step_next (h : step s = .next t) : ∃ i u, fetch s.beginStep = .ok (i, u) ∧ exec i u = .next t := by
  obtain ⟨⟨i, u⟩, hf, he⟩ := proceed_next h
  exact ⟨i, u, hf, he⟩

/-- A step that completes keeps all of the frame but `HALTED`, and ends the setup. -/
theorem step_frame (h : step s = .next t) : ({ s.beginStep with halted := t.halted } : State).Frame t := by
  obtain ⟨i, u, hf, he⟩ := step_next h
  have hu := fetch_frame hf
  have hb : ({ s.beginStep with halted := t.halted } : State).Frame { u with halted := t.halted } :=
    ⟨hu.cfg, hu.phase, rfl, hu.bit5, hu.records, hu.roms, hu.wf⟩
  exact hb.trans (exec_frame he)

/-- What a step that ends in an error leaves of the devices (R211 item 1). -/
theorem step_leaves {kind : BusError} {left : Aftermath} (h : step s = .fault (.busError kind left)) :
    s.Leaves left := by
  have hb : s.beginStep.Leaves left := by
    rcases proceed_fault h with hf | ⟨⟨i, u⟩, hf, he⟩
    · exact fetch_leaves hf
    · exact ((fetch_quiet hf).keeps.trans_leaves (exec_leaves he)).congr rfl rfl
  exact hb.congr rfl rfl

/-- Settles O9: the invariant lies within the frame of a step, and an error leaves the form of every device. -/
theorem stepKeepsInvariant : Obligations.StepKeepsInvariant := by
  intro s hs
  refine ⟨fun t h => (step_frame h).inv ⟨hs.cfg, hs.bit5, hs.devices⟩, fun kind left h => ?_⟩
  exact (step_leaves h).wf hs.devices

end Sys2Proof.Machine
end

section
/-! PROOFS. The outcomes of a step (00_scope.md R8): every instruction goes on, or ends with an error of a kind that a
step can meet; and the step halts exactly when the opcode fetched is `HALT_OPCODE` (R20, R86, R170). -/

namespace Sys2Proof

/-! ## The opcode value of what a layout builds -/

/-- The instruction a layout builds from an operand word, of which a one-byte operand is the low byte. -/
def Layout.build (l : Layout) (w : Word) : Instr :=
  match l with
  | .bare i => i
  | .padded i => i
  | .byte k => k (lo w)
  | .word k => k w

theorem mem_of_findRow {op : Byte} {l : Layout} {rows : List (Byte × Layout)} (h : findRow op rows = some l) :
    (op, l) ∈ rows := by
  induction rows with
  | nil => cases h
  | cons row rows ih =>
    unfold findRow at h
    split at h
    · next ho =>
      cases h
      simp [← ho]
    · exact List.mem_cons_of_mem _ (ih h)

/-- A row of R84 builds instructions of its own opcode value: both sides of the table's equation compute. -/
theorem opcode_build_of_row {op : Byte} {l : Layout} (h : (op, l) ∈ opcodeTable) (halt : Byte) (w : Word) :
    (l.build w).opcode halt = op := by
  have rows : opcodeTable.map (fun row => (row.2.build w).opcode halt) = opcodeTable.map Prod.fst := rfl
  exact List.map_eq_map_iff.mp rows _ h

/-- Every opcode byte decodes to instructions of that opcode value (R84, R86, R87). -/
theorem opcode_build_layoutOf (halt op : Byte) (w : Word) : ((layoutOf halt op).build w).opcode halt = op := by
  unfold layoutOf
  split
  · next ho => exact ho.symm
  · split
    · next hl => exact opcode_build_of_row (mem_of_findRow hl) halt w
    · rfl

end Sys2Proof

namespace Sys2Proof.Machine

variable {i : Instr} {s t u : State}

/-! ## Which step halts -/

/-- A fetched instruction is built by the layout of the opcode fetched (R102, R103). -/
theorem fetchOperand_build {l : Layout} (h : fetchOperand l s = .ok (i, t)) : ∃ w, i = l.build w := by
  cases l with
  | bare j => cases h; exact ⟨0, rfl⟩
  | padded j => cases h; exact ⟨0, rfl⟩
  | byte k =>
    cases hf : s.fetch8 with
    | error e => simp [fetchOperand, hf, Except.map] at h
    | ok p =>
      simp only [fetchOperand, hf, Except.map, Except.ok.injEq, Prod.mk.injEq] at h
      exact ⟨joinWord 0 p.1, by simp [Layout.build, h.1]⟩
  | word k =>
    cases hf : s.fetch16 with
    | error e => simp [fetchOperand, hf, Except.map] at h
    | ok p =>
      simp only [fetchOperand, hf, Except.map, Except.ok.injEq, Prod.mk.injEq] at h
      exact ⟨p.1, h.1.symm⟩

/-- Once the opcode is fetched, what is left of the fetch is the operand. -/
theorem fetch_of_fetch8 {op : Byte} (h : s.fetch8 = .ok (op, t)) :
    fetch s = fetchOperand (layoutOf s.cfg.haltOpcode op) t := by
  rw [← (State.fetch8_quiet h).keeps.cfg]
  simp [fetch, h, Except.bind]

/-- An instruction fetched has the opcode value fetched (R101, R102). -/
theorem opcode_of_fetch {op : Byte} (h : s.fetch8 = .ok (op, t)) (hf : fetch s = .ok (i, u)) :
    i.opcode s.cfg.haltOpcode = op := by
  rw [fetch_of_fetch8 h] at hf
  obtain ⟨w, rfl⟩ := fetchOperand_build hf
  exact opcode_build_layoutOf _ _ w

/-- A step whose opcode is `HALT_OPCODE` fetches no operand and halts (R86, R170). -/
theorem step_of_haltOpcode (h : s.beginStep.fetch8 = .ok (s.cfg.haltOpcode, u)) :
    step s = .next { u with halted := true } := by
  have hf : fetch s.beginStep = .ok (.hlt, u) := by
    rw [fetch_of_fetch8 h]
    simp [State.beginStep, layoutOf, fetchOperand]
  simp [step, hf, exec, execHlt]

/-- `HALTED` after a step says whether the instruction fetched was `HLT` (R20, R170). -/
theorem step_halted_iff (hf : fetch s.beginStep = .ok (i, u)) (h : step s = .next t) :
    t.halted = true ↔ i = .hlt := by
  have he : exec i u = .next t := by simpa [step, hf] using h
  constructor
  · intro ht
    by_contra hi
    rw [((exec_done he).frame hi).halted, (fetch_frame hf).halted] at ht
    cases ht
  · rintro rfl
    cases he
    rfl

/-- Once the opcode is fetched, the step halts exactly when it is `HALT_OPCODE` (R8). -/
theorem step_halts_iff {op : Byte} (h : s.beginStep.fetch8 = .ok (op, u)) :
    (∃ t, step s = .next t ∧ t.halted = true) ↔ op = s.cfg.haltOpcode := by
  constructor
  · rintro ⟨t, hs, ht⟩
    obtain ⟨i, v, hf, -⟩ := step_next hs
    rw [← opcode_of_fetch h hf, (step_halted_iff hf hs).mp ht]
    rfl
  · rintro rfl
    exact ⟨_, step_of_haltOpcode h, rfl⟩

/-! ## The errors a step can meet -/

/-- A kind of error that a step can meet (R212): any but `load`'s (R224). -/
def StepError (kind : BusError) : Prop := kind ∈ [.deviceNotFound, .outOfRange, .readOnlyViolation]

@[simp] theorem stepError_iff (kind : BusError) : StepError kind ↔ kind ≠ .imageTooLarge := by
  cases kind <;> simp [StepError]

/-- A fault that carries a kind of error a step can meet. -/
def StepFault : Fault → Prop
  | .busError kind _ => StepError kind

/-- The operation fails, if at all, with an error of which `P` holds. -/
def FailsWith {ε α : Type} (P : ε → Prop) (r : Except ε α) : Prop := ∀ e, r = .error e → P e

section
variable {ε α β : Type} {P : ε → Prop} {r : Except ε α}

@[simp] theorem failsWith_ok (v : α) : FailsWith P (.ok v : Except ε α) ↔ True := by simp [FailsWith]

@[simp] theorem failsWith_error (e : ε) : FailsWith P (.error e : Except ε α) ↔ P e := by simp [FailsWith]

theorem FailsWith.map (h : FailsWith P r) (f : α → β) : FailsWith P (r.map f) := by
  cases r with
  | ok v => simp [Except.map]
  | error e => simpa [Except.map] using h

theorem FailsWith.bind {f : α → Except ε β} (h : FailsWith P r) (hf : ∀ v, FailsWith P (f v)) :
    FailsWith P (r.bind f) := by
  cases r with
  | ok v => exact hf v
  | error e => simpa [Except.bind] using h

end

/-! The operations of one device (R45 to R48, R51, R52, R54, R58, R59). -/

theorem MemoryDevice.get_fails (m : MemoryDevice) (idx : Nat) : FailsWith StepError (m.get idx) := by
  unfold MemoryDevice.get
  split <;> simp

theorem MemoryDevice.getWord_fails (m : MemoryDevice) (idx : Nat) : FailsWith StepError (m.getWord idx) := by
  unfold MemoryDevice.getWord
  split <;> simp

theorem MemoryDevice.set_fails (m : MemoryDevice) (idx : Nat) (v : Byte) : FailsWith StepError (m.set idx v) := by
  unfold MemoryDevice.set
  split
  · simp
  · split <;> simp

theorem Keyboard.get_fails (c : Config) (k : Keyboard) (off : Nat) : FailsWith StepError (k.get c off) := by
  unfold Keyboard.get
  split
  · split <;> simp
  · split <;> simp

theorem Keyboard.set_fails (c : Config) (k : Keyboard) (off : Nat) (v : Byte) :
    FailsWith StepError (k.set c off v) := by
  unfold Keyboard.set
  split
  · simp
  · split <;> simp

theorem Terminal.get_fails (c : Config) (t : Terminal) (off : Nat) : FailsWith StepError (t.get c off) := by
  unfold Terminal.get
  split <;> simp

theorem Terminal.set_fails (c : Config) (t : Terminal) (off : Nat) (v : Byte) :
    FailsWith StepError (t.set c off v) := by
  unfold Terminal.set
  split
  · simp
  · split <;> simp

theorem Device.get_fails (c : Config) (d : Device) (off : Nat) : FailsWith StepError (d.get c off) := by
  unfold Device.get
  split
  · exact (MemoryDevice.get_fails _ _).map _
  · exact (Keyboard.get_fails _ _ _).map _
  · exact (Terminal.get_fails _ _ _).map _

theorem Device.set_fails (c : Config) (d : Device) (off : Nat) (v : Byte) : FailsWith StepError (d.set c off v) := by
  unfold Device.set
  split
  · exact (MemoryDevice.set_fails _ _ _).map _
  · exact (Keyboard.set_fails _ _ _ _).map _
  · exact (Terminal.set_fails _ _ _ _).map _

theorem Device.getPair_fails (c : Config) (d : Device) (off : Nat) : FailsWith StepError (d.getPair c off) := by
  unfold Device.getPair
  split
  · exact (Device.get_fails _ _ _).bind fun _ => (Device.get_fails _ _ _).map _
  · simp

theorem Device.getWord_fails (c : Config) (d : Device) (off : Nat) : FailsWith StepError (d.getWord c off) := by
  unfold Device.getWord
  split
  · exact (MemoryDevice.getWord_fails _ _).map _
  · exact Device.getPair_fails _ _ _
  · exact Device.getPair_fails _ _ _

/-! The bus operations of a step (R37 to R39). -/

theorem State.busGet_fails (s : State) (addr : Word) : FailsWith StepError (s.busGet addr) := by
  unfold State.busGet
  split
  · simp
  · exact (Device.get_fails _ _ _).map _

theorem State.busGetWord_fails (s : State) (addr : Word) : FailsWith StepError (s.busGetWord addr) := by
  unfold State.busGetWord
  split
  · simp
  · exact (Device.getWord_fails _ _ _).map _

theorem State.busSet_fails (s : State) (addr : Word) (v : Byte) : FailsWith StepError (s.busSet addr v) := by
  unfold State.busSet
  split
  · simp
  · exact (Device.set_fails _ _ _ _).map _

/-- An access fails with the kind of its bus operation (R104). -/
theorem State.access_fails {α : Type} (s : State) {op : State → Except BusError α}
    (h : ∀ t, FailsWith StepError (op t)) : FailsWith StepFault (s.access op) := by
  intro e he
  obtain ⟨kind, hk, rfl⟩ := State.access_error he
  exact h _ kind hk

/-! The CPU's primitives (R7, R12) and the operands (R106 to R115). -/

theorem State.memRead_fails (s : State) (addr : Word) : FailsWith StepFault (s.memRead addr) :=
  s.access_fails fun t => t.busGet_fails addr

theorem State.memReadWord_fails (s : State) (addr : Word) : FailsWith StepFault (s.memReadWord addr) :=
  s.access_fails fun t => t.busGetWord_fails addr

theorem State.memWrite_fails (s : State) (addr : Word) (v : Byte) : FailsWith StepFault (s.memWrite addr v) :=
  s.access_fails fun t => t.busSet_fails addr v

theorem State.push8_fails (s : State) (v : Byte) : FailsWith StepFault (s.push8 v) := (s.memWrite_fails _ v).map _

theorem State.pull8_fails (s : State) : FailsWith StepFault s.pull8 := State.memRead_fails _ _

theorem resolve_fails (m : Mode) (s : State) : FailsWith StepFault (resolve m s) := by
  cases m with
  | indirect w => exact (s.memReadWord_fails _).map _
  | indexedIndirect nn => exact (s.memReadWord_fails _).map _
  | indirectIndexed nn => exact (s.memReadWord_fails _).map _
  | _ => simp [resolve]

theorem readOperand_fails (m : Mode) (s : State) : FailsWith StepFault (readOperand m s) := by
  cases m with
  | immediate nn => simp [readOperand, resolve, Except.map]
  | _ =>
    simp only [readOperand]
    exact (resolve_fails _ s).bind fun (ea, t) => t.memRead_fails ea

theorem fetchOperand_fails (l : Layout) (s : State) : FailsWith StepFault (fetchOperand l s) := by
  cases l with
  | bare j => simp [fetchOperand]
  | padded j => simp [fetchOperand]
  | byte k => exact ((s.memRead_fails _).map _).map _
  | word k => exact ((s.memReadWord_fails _).map _).map _

theorem fetch_fails (s : State) : FailsWith StepFault (fetch s) :=
  ((s.memRead_fails _).map _).bind fun (_, t) => fetchOperand_fails _ t

/-! ## What `exec` is, by the shape of the instruction -/

variable {m : Mode}

theorem exec_eq_withOperand {f : Byte → State → State} (ho : i.operand = .mode m)
    (hf : operandBody i.mnemonic = some f) : exec i s = withOperand m s f := by
  cases i <;> cases ho <;> cases hf <;> rfl

theorem exec_eq_readModifyWrite {op : Bool → Byte → Byte} (ho : i.operand = .mode m)
    (hop : modifiedByte i.mnemonic = some op) :
    exec i s = readModifyWrite m s (op (s.flag .C)) fun v t =>
      t.setModified ((carryOut i.mnemonic).map fun out => out v) (op (s.flag .C) v) := by
  cases i <;> cases ho <;> cases hop <;> rfl

theorem exec_eq_store {r : State → Byte} (ho : i.operand = .mode m) (hr : storedRegister i.mnemonic = some r) :
    exec i s = store m s (r s) := by
  cases i <;> cases ho <;> cases hr <;> rfl

/-- Every instruction has one of the shapes of `Done`, by its mnemonic and operand. -/
theorem instr_shape (i : Instr) :
    (∃ m f, i.operand = .mode m ∧ operandBody i.mnemonic = some f) ∨
      (∃ m op, i.operand = .mode m ∧ modifiedByte i.mnemonic = some op) ∨
      (∃ m r, i.operand = .mode m ∧ storedRegister i.mnemonic = some r) ∨
      (∃ m, i.operand = .mode m ∧ i.mnemonic = .JMP) ∨
      (∃ f, registerBody i = some f) ∨
      (∃ rr f b, i.operand = .relative rr ∧ branchCondition i.mnemonic = some (f, b)) ∨
      (∃ w, i = .jsr w) ∨ i ∈ [.rts, .rti, .pha, .php, .pla, .plp] := by
  cases i <;> simp [Instr.operand, Instr.mnemonic, operandBody, modifiedByte, storedRegister, registerBody,
    branchCondition]

/-! ## The outcomes of an instruction and of a step -/

/-- The outcomes R8 allows: a next state, or an error of a kind a step can meet; no refusal. -/
def NextOrError : Out → Prop
  | .next _ => True
  | .fault e => StepFault e
  | .refused _ => False

@[simp] theorem nextOrError_next (t : State) : NextOrError (.next t) := trivial

theorem proceed_nextOrError {α : Type} {r : Except Fault α} {k : α → Out} (h : FailsWith StepFault r)
    (hk : ∀ v, NextOrError (k v)) : NextOrError (proceed r k) := by
  cases r with
  | ok v => exact hk v
  | error e => exact h e rfl

theorem withOperand_nextOrError (m : Mode) (s : State) (f : Byte → State → State) :
    NextOrError (withOperand m s f) :=
  proceed_nextOrError (readOperand_fails m s) fun _ => trivial

theorem readModifyWrite_nextOrError (m : Mode) (s : State) (op : Byte → Byte) (f : Byte → State → State) :
    NextOrError (readModifyWrite m s op f) :=
  proceed_nextOrError (resolve_fails m s) fun (_, t) => proceed_nextOrError (t.memRead_fails _) fun (_, u) =>
    proceed_nextOrError (u.memWrite_fails _ _) fun _ => trivial

theorem store_nextOrError (m : Mode) (s : State) (v : Byte) : NextOrError (store m s v) :=
  proceed_nextOrError (resolve_fails m s) fun (_, t) => proceed_nextOrError (t.memWrite_fails _ _) fun _ => trivial

theorem jmp_nextOrError (m : Mode) (s : State) : NextOrError (jmp m s) :=
  proceed_nextOrError (resolve_fails m s) fun _ => trivial

theorem execJsr_nextOrError (w : Word) (s : State) : NextOrError (execJsr w s) :=
  proceed_nextOrError (resolve_fails _ s) fun (_, t) => proceed_nextOrError (t.push8_fails _) fun u =>
    proceed_nextOrError (u.push8_fails _) fun _ => trivial

theorem execRts_nextOrError (s : State) : NextOrError (execRts s) :=
  proceed_nextOrError s.pull8_fails fun (_, t) => proceed_nextOrError t.pull8_fails fun _ => trivial

theorem execRti_nextOrError (s : State) : NextOrError (execRti s) :=
  proceed_nextOrError s.pull8_fails fun (v, t) => proceed_nextOrError (t.setStatus v).pull8_fails fun (_, u) =>
    proceed_nextOrError u.pull8_fails fun _ => trivial

/-- Every instruction goes on or ends in an error of a step: one case for each shape. -/
theorem exec_nextOrError (i : Instr) (s : State) : NextOrError (exec i s) := by
  rcases instr_shape i with ⟨m, f, ho, hf⟩ | ⟨m, op, ho, hop⟩ | ⟨m, r, ho, hr⟩ | ⟨m, ho, hm⟩ | ⟨f, hf⟩ |
    ⟨rr, f, b, ho, hc⟩ | ⟨w, rfl⟩ | hi
  · rw [exec_eq_withOperand ho hf]
    exact withOperand_nextOrError m s f
  · rw [exec_eq_readModifyWrite ho hop]
    exact readModifyWrite_nextOrError m s _ _
  · rw [exec_eq_store ho hr]
    exact store_nextOrError m s (r s)
  · rw [exec_jmp hm ho]
    exact jmp_nextOrError m s
  · rw [exec_of_done (.register hf)]
    trivial
  · rw [exec_of_done (.branch ho hc)]
    trivial
  · exact execJsr_nextOrError w s
  · simp only [List.mem_cons, List.not_mem_nil, or_false] at hi
    rcases hi with rfl | rfl | rfl | rfl | rfl | rfl
    · exact execRts_nextOrError s
    · exact execRti_nextOrError s
    · exact proceed_nextOrError (s.push8_fails _) fun _ => trivial
    · exact proceed_nextOrError (s.push8_fails _) fun _ => trivial
    · exact proceed_nextOrError s.pull8_fails fun _ => trivial
    · exact proceed_nextOrError s.pull8_fails fun _ => trivial

/-- A step goes on or ends in an error of a step (R8, R104). -/
theorem step_nextOrError (s : State) : NextOrError (step s) :=
  proceed_nextOrError (fetch_fails _) fun (i, u) => exec_nextOrError i u

/-- Settles O13: no outcome is a refusal, `HALTED` tells halt from next, and the opcode fetched decides it. -/
theorem stepHasThreeOutcomes : Obligations.StepHasThreeOutcomes := by
  intro s
  have ho := step_nextOrError s
  refine ⟨?_, fun r h => by rwa [h] at ho, fun op u h => step_halts_iff h⟩
  match hs : step s with
  | .next t =>
    cases ht : t.halted with
    | false => exact .inl ⟨t, rfl, ht, by simp [reportOf, ht]⟩
    | true => exact .inr (.inl ⟨t, rfl, ht, by simp [reportOf, ht]⟩)
  | .fault (.busError kind left) =>
    rw [hs] at ho
    exact .inr (.inr ⟨kind, left, rfl, ho, rfl⟩)
  | .refused r =>
    rw [hs] at ho
    exact ho.elim

end Sys2Proof.Machine
end
section
/-! PROOFS. The flags `D`, `I` and `B` take part in nothing but what `PHP` pushes (10_state.md R16 to R18): the bus, the
operands and the stack work alike whatever `P` holds, and every other body uses `P` only by flags it tests or writes one
at a time. -/

namespace Sys2Proof.Machine

variable {i : Instr} {s t : State} {q : Byte}

/-! ## Another `P` -/

/-- The state with another `P`. -/
def State.withP (s : State) (q : Byte) : State := { s with p := q }

/-- What bus activity made of the devices and the schedule, put into the state with another `P`. -/
theorem State.Keeps.withP (h : s.Keeps t) :
    ({ s.withP q with devices := t.devices, arrivals := t.arrivals } : State) = t.withP q := by
  conv_rhs => rw [h.cpu]
  rfl

theorem State.memRead_withP {addr : Word} {v : Byte} (h : s.memRead addr = .ok (v, t)) :
    (s.withP q).memRead addr = .ok (v, t.withP q) := by
  rw [State.memRead_of_cpu (s := s) rfl, h, ← (State.memRead_quiet h).keeps.withP]
  rfl

theorem State.memReadWord_withP {addr w : Word} (h : s.memReadWord addr = .ok (w, t)) :
    (s.withP q).memReadWord addr = .ok (w, t.withP q) := by
  rw [State.memReadWord_of_cpu (s := s) rfl, h, ← (State.memReadWord_quiet h).keeps.withP]
  rfl

theorem State.memWrite_withP {addr : Word} {v : Byte} (h : s.memWrite addr v = .ok t) :
    (s.withP q).memWrite addr v = .ok (t.withP q) := by
  rw [State.memWrite_of_cpu (s := s) rfl, h, ← (State.memWrite_keeps h).withP]
  rfl

theorem State.push8_withP {v : Byte} (h : s.push8 v = .ok t) : (s.withP q).push8 v = .ok (t.withP q) := by
  obtain ⟨u, hu, rfl⟩ := State.push8_ok h
  have hq : (s.withP q).memWrite (stackAddr (s.withP q).sp) v = .ok (u.withP q) := State.memWrite_withP hu
  rw [State.push8, hq, ← (State.memWrite_keeps hu).sp]
  rfl

theorem State.pull8_withP {v : Byte} (h : s.pull8 = .ok (v, t)) : (s.withP q).pull8 = .ok (v, t.withP q) :=
  State.memRead_withP (s := { s with sp := s.sp + 1#8 }) h

theorem resolve_withP {m : Mode} {ea : Word} (h : resolve m s = .ok (ea, t)) :
    resolve m (s.withP q) = .ok (ea, t.withP q) := by
  have hmap : ∀ {a : Word} {f : Word → State → Word}, (∀ w u, f w (u.withP q) = f w u) →
      (s.memReadWord a).map (fun (w, u) => u.resolved (f w u)) = .ok (ea, t) →
      ((s.withP q).memReadWord a).map (fun (w, u) => u.resolved (f w u)) = .ok (ea, t.withP q) := by
    intro a f hf h
    cases hr : s.memReadWord a with
    | error e => simp [hr, Except.map] at h
    | ok p =>
      simp only [hr, Except.map, State.resolved, Except.ok.injEq, Prod.mk.injEq] at h
      obtain ⟨rfl, rfl⟩ := h
      simp only [State.memReadWord_withP (w := p.1) (t := p.2) hr, Except.map, State.resolved, hf]
      rfl
  cases m with
  | indirect w => exact hmap (f := fun w _ => w) (fun _ _ => rfl) h
  | indexedIndirect nn => exact hmap (f := fun w _ => w) (fun _ _ => rfl) h
  | indirectIndexed nn => exact hmap (f := fun w u => w + zext16 u.y) (fun _ _ => rfl) h
  | _ => cases h; rfl

theorem readOperand_withP {m : Mode} {v : Byte} (h : readOperand m s = .ok (v, t)) :
    readOperand m (s.withP q) = .ok (v, t.withP q) := by
  have hbind : ∀ {m : Mode}, (resolve m s).bind (fun (ea, u) => u.memRead ea) = .ok (v, t) →
      (resolve m (s.withP q)).bind (fun (ea, u) => u.memRead ea) = .ok (v, t.withP q) := by
    intro m h
    cases hr : resolve m s with
    | error e => simp [hr, Except.bind] at h
    | ok p =>
      simp only [hr, Except.bind] at h
      simp only [resolve_withP (ea := p.1) (t := p.2) hr, Except.bind]
      exact State.memRead_withP h
  cases m with
  | immediate nn => cases h; rfl
  | _ =>
    simp only [readOperand] at h ⊢
    exact hbind h

/-! ## States that agree but for `D`, `I` and `B` -/

theorem AgreeButDIB.rfl : AgreeButDIB s s := ⟨Eq.refl _, fun _ _ => Eq.refl _⟩

/-- Agreement is about `P` alone. -/
theorem AgreeButDIB.of_p (h : AgreeButDIB s (s.withP q)) (hp : t.p = s.p) : AgreeButDIB t (t.withP q) := by
  refine ⟨Eq.refl _, fun f hf => ?_⟩
  rw [State.flag_congr hp f, ← h.2 f hf]
  exact State.flag_congr (Eq.refl q) f

section

variable {s' : State} (h : AgreeButDIB s s')
include h

/-- Agreement is kept when every other field is changed alike. -/
theorem AgreeButDIB.update {t' : State} (ht : t.p = s.p) (ht' : t'.p = s'.p)
    (he : t' = { t with p := t'.p }) : AgreeButDIB t t' :=
  ⟨he, fun f hf => by rw [State.flag_congr ht' f, State.flag_congr ht f, h.2 f hf]⟩

theorem AgreeButDIB.setFlag (f : Flag) (b : Bool) : AgreeButDIB (s.setFlag f b) (s'.setFlag f b) := by
  by_cases hR : f = .R
  · subst hR
    simpa using h
  · refine ⟨?_, fun g hg => ?_⟩
    · simp only [State.setFlag, if_neg hR]
      conv_lhs => rw [h.1]
    · rw [State.flag_setFlag _ _ _ _ hR, State.flag_setFlag _ _ _ _ hR, h.2 g hg]

theorem AgreeButDIB.setZN (v : Byte) : AgreeButDIB (s.setZN v) (s'.setZN v) := (h.setFlag _ _).setFlag _ _

theorem AgreeButDIB.setShift (b : Bool) (r : Byte) : AgreeButDIB (s.setShift b r) (s'.setShift b r) :=
  (h.setFlag _ _).setZN _

theorem AgreeButDIB.compare (r v : Byte) : AgreeButDIB (s.compare r v) (s'.compare r v) :=
  ((h.setFlag _ _).setFlag _ _).setFlag _ _

theorem AgreeButDIB.setA (r : Byte) : AgreeButDIB { s with a := r } { s' with a := r } :=
  h.update (Eq.refl _) (Eq.refl _) (congrArg (fun u : State => { u with a := r }) h.1)

theorem AgreeButDIB.loadA (r : Byte) : AgreeButDIB (s.loadA r) (s'.loadA r) := (h.setZN r).setA r

theorem AgreeButDIB.shiftA (b : Bool) (r : Byte) : AgreeButDIB (s.shiftA b r) (s'.shiftA b r) := (h.setShift b r).setA r

theorem AgreeButDIB.loadX (r : Byte) : AgreeButDIB (s.loadX r) (s'.loadX r) :=
  (h.setZN r).update (Eq.refl _) (Eq.refl _) (congrArg (fun u : State => { u with x := r }) (h.setZN r).1)

theorem AgreeButDIB.loadY (r : Byte) : AgreeButDIB (s.loadY r) (s'.loadY r) :=
  (h.setZN r).update (Eq.refl _) (Eq.refl _) (congrArg (fun u : State => { u with y := r }) (h.setZN r).1)

theorem AgreeButDIB.setPC (w : Word) : AgreeButDIB { s with pc := w } { s' with pc := w } :=
  h.update (Eq.refl _) (Eq.refl _) (congrArg (fun u : State => { u with pc := w }) h.1)

theorem AgreeButDIB.setModified (out : Option Bool) (r : Byte) :
    AgreeButDIB (s.setModified out r) (s'.setModified out r) := by
  cases out with
  | none => exact h.setZN r
  | some b => exact h.setShift b r

end

/-! The bodies. -/

theorem AgreeButDIB.addWithCarry (h : AgreeButDIB s (s.withP q)) (v : Byte) :
    AgreeButDIB (s.addWithCarry v) ((s.withP q).addWithCarry v) := by
  unfold State.addWithCarry
  rw [h.2 .C (by decide)]
  exact (((h.setFlag _ _).setFlag _ _).setZN _).setA _

theorem AgreeButDIB.operandBody {n : Mnemonic} {f : Byte → State → State} (h : AgreeButDIB s (s.withP q))
    (hf : operandBody n = some f) (v : Byte) : AgreeButDIB (f v s) (f v (s.withP q)) := by
  cases n <;> cases hf
  case ADC => exact h.addWithCarry v
  case SBC => exact h.addWithCarry (~~~v)
  case CMP | CPX | CPY => exact h.compare _ v
  case AND | ORA | EOR | LDA => exact h.loadA _
  case LDX => exact h.loadX _
  case LDY => exact h.loadY _
  case BIT => exact ((h.setFlag _ _).setFlag _ _).setFlag _ _

theorem AgreeButDIB.registerBody {f : State → State} (h : AgreeButDIB s (s.withP q))
    (hf : registerBody i = some f) : AgreeButDIB (f s) (f (s.withP q)) := by
  have hC : (s.withP q).flag .C = s.flag .C := h.2 .C (by decide)
  cases i <;> cases hf
  case aslAcc | lsrAcc => exact h.shiftA _ _
  case rolAcc | rorAcc =>
    dsimp only
    rw [hC]
    exact h.shiftA _ _
  case inx | dex | tax | tsx => exact h.loadX _
  case iny | dey | tay => exact h.loadY _
  case txa | tya => exact h.loadA _
  case clc | sec | cli | sei | clv | cld | sed => exact h.setFlag _ _
  case nop | unassigned => exact h
  case brk => exact h.setPC _
  case txs | hlt => exact h.update (Eq.refl _) (Eq.refl _) (Eq.refl _)

/-- No branch tests `D`, `I` or `B` (R16 to R18). -/
theorem not_dib_of_branchCondition {n : Mnemonic} {f : Flag} {b : Bool} (h : branchCondition n = some (f, b)) :
    f ∉ [Flag.D, .I, .B] := by
  cases n <;> cases h <;> decide

theorem storedRegister_withP {n : Mnemonic} {r : State → Byte} (h : storedRegister n = some r) :
    r (s.withP q) = r s := by
  cases n <;> cases h <;> rfl

/-! ## An instruction -/

/-- What an instruction other than `PHP` can do, it can do from the state with another `P` that differs in `D`, `I` and
`B` alone. -/
theorem Done.withP (hd : Done i s t) (hi : i ≠ .php) (h : AgreeButDIB s (s.withP q)) :
    ∃ t', Done i (s.withP q) t' ∧ AgreeButDIB t t' := by
  have hC : (s.withP q).flag .C = s.flag .C := h.2 .C (by decide)
  cases hd with
  | operand ho hf hr =>
    exact ⟨_, .operand ho hf (readOperand_withP hr), (h.of_p (readOperand_quiet hr).keeps.p).operandBody hf _⟩
  | modify ho hop h1 h2 h3 =>
    have h3' := State.memWrite_withP (q := q) h3
    rw [← hC] at h3'
    refine ⟨_, .modify ho hop (resolve_withP h1) (State.memRead_withP h2) h3', ?_⟩
    have hread := (State.memRead_quiet h2).keeps.p.trans (resolve_quiet h1).2.keeps.p
    rw [hC]
    exact (h.of_p ((State.memWrite_keeps h3).p.trans hread)).setModified _ _
  | store ho hr h1 h2 =>
    have h2' := State.memWrite_withP (q := q) h2
    rw [← storedRegister_withP (q := q) hr] at h2'
    exact ⟨_, .store ho hr (resolve_withP h1) h2',
      h.of_p ((State.memWrite_keeps h2).p.trans (resolve_quiet h1).2.keeps.p)⟩
  | register hf => exact ⟨_, .register hf, h.registerBody hf⟩
  | branch ho hc =>
    refine ⟨_, .branch ho hc, ?_⟩
    rw [h.2 _ (not_dib_of_branchCondition hc)]
    split
    · exact h.setPC _
    · exact h
  | jump hm ho h1 => exact ⟨_, .jump hm ho (resolve_withP h1), (h.of_p (resolve_quiet h1).2.keeps.p).setPC _⟩
  | call hw h1 h2 =>
    exact ⟨_, .call hw (State.push8_withP h1) (State.push8_withP h2),
      (h.of_p ((State.push8_keeps h2).p.trans (State.push8_keeps h1).p)).setPC _⟩
  | ret hi h1 h2 =>
    exact ⟨_, .ret hi (State.pull8_withP h1) (State.pull8_withP h2),
      (h.of_p ((State.pull8_quiet h2).keeps.p.trans (State.pull8_quiet h1).keeps.p)).setPC _⟩
  | retInterrupt hi h1 h2 h3 => exact ⟨_, .retInterrupt hi (State.pull8_withP h1) h2 h3, .rfl⟩
  | pushA hi h1 => exact ⟨_, .pushA hi (State.push8_withP h1), h.of_p (State.push8_keeps h1).p⟩
  | pushStatus hi' h1 => exact absurd hi' hi
  | pullA hi h1 =>
    exact ⟨_, .pullA hi (State.pull8_withP h1), (h.of_p (State.pull8_quiet h1).keeps.p).loadA _⟩
  | pullStatus hi h1 => exact ⟨_, .pullStatus hi (State.pull8_withP h1), .rfl⟩

/-- Settles O16: the second state is the first with another `P`, from which the instruction does the same. -/
theorem decimalInterruptBreakHaveNoEffect : Obligations.DecimalInterruptBreakHaveNoEffect := by
  intro i s s' t hi h he
  have hs : s' = s.withP s'.p := h.1
  rw [hs] at h ⊢
  obtain ⟨t', hd, ht⟩ := (exec_done he).withP hi h
  exact ⟨t', exec_of_done hd, ht⟩

end Sys2Proof.Machine
end
section
/-! PROOFS. The frame of each instruction: which register (10_state.md R12, R13), which flag (R27), and which of `LEA`
and `HALTED` (R19, R20) it may change. -/

namespace Sys2Proof.Machine

variable {i : Instr} {s t u : State}

/-! ## Registers -/

/-- What `i` leaves of the registers `A`, `X`, `Y` and `SP`. -/
structure RegistersKept (i : Instr) (s t : State) : Prop where
  a : writesA i = false → t.a = s.a
  x : writesX i = false → t.x = s.x
  y : writesY i = false → t.y = s.y
  sp : writesSP i = false → t.sp = s.sp

theorem RegistersKept.trans (h : RegistersKept i s t) (g : RegistersKept i t u) : RegistersKept i s u :=
  ⟨fun w => (g.a w).trans (h.a w), fun w => (g.x w).trans (h.x w), fun w => (g.y w).trans (h.y w),
    fun w => (g.sp w).trans (h.sp w)⟩

theorem State.Keeps.registers (h : s.Keeps t) : RegistersKept i s t :=
  ⟨fun _ => h.a, fun _ => h.x, fun _ => h.y, fun _ => h.sp⟩

/-- A change of the state that writes none of the four. -/
theorem registersKept_of_eq (a : t.a = s.a := by rfl) (x : t.x = s.x := by rfl) (y : t.y = s.y := by rfl)
    (sp : t.sp = s.sp := by rfl) : RegistersKept i s t := ⟨fun _ => a, fun _ => x, fun _ => y, fun _ => sp⟩

theorem resolve_registers {m : Mode} {ea : Word} (h : resolve m s = .ok (ea, t)) : RegistersKept i s t :=
  .trans registersKept_of_eq (resolve_quiet h).2.keeps.registers

theorem readOperand_registers {m : Mode} {v : Byte} (h : readOperand m s = .ok (v, t)) : RegistersKept i s t :=
  .trans registersKept_of_eq (readOperand_quiet h).keeps.registers

/-- An instruction that writes `SP` may change it before bus activity. -/
theorem registersKept_of_sp {b : Byte} (hi : writesSP i = true) (h : ({ s with sp := b } : State).Keeps t) :
    RegistersKept i s t :=
  ⟨fun _ => h.a, fun _ => h.x, fun _ => h.y, fun w => by simp [hi] at w⟩

theorem State.push8_registers {v : Byte} (hi : writesSP i = true) (h : s.push8 v = .ok t) : RegistersKept i s t :=
  registersKept_of_sp hi (State.push8_keeps h)

theorem State.pull8_registers {v : Byte} (hi : writesSP i = true) (h : s.pull8 = .ok (v, t)) : RegistersKept i s t :=
  registersKept_of_sp hi (State.pull8_quiet h).keeps

theorem operandBody_registers {f : Byte → State → State} (hf : operandBody i.mnemonic = some f) (v : Byte)
    (s : State) : RegistersKept i s (f v s) := by
  cases hm : i.mnemonic <;> rw [hm] at hf <;> cases hf <;>
    constructor <;> simp [writesA, writesX, writesY, hm]

theorem State.setModified_registers (s : State) (out : Option Bool) (r : Byte) :
    RegistersKept i s (s.setModified out r) := by
  cases out <;> exact registersKept_of_eq (by simp [State.setModified]) (by simp [State.setModified])
    (by simp [State.setModified]) (by simp [State.setModified])

theorem registerBody_registers {f : State → State} (hf : registerBody i = some f) (s : State) :
    RegistersKept i s (f s) := by
  cases i <;> cases hf <;>
    constructor <;> simp [writesA, writesX, writesY, writesSP, Instr.mnemonic, Instr.operand]

/-- Every instruction that completes leaves the registers it does not write. -/
theorem Done.registers (h : Done i s t) : RegistersKept i s t := by
  cases h with
  | operand _ hf hr => exact (readOperand_registers hr).trans (operandBody_registers hf _ _)
  | modify _ _ h1 h2 h3 =>
    have hbus := (State.memRead_quiet h2).keeps.trans (State.memWrite_keeps h3)
    exact ((resolve_registers h1).trans hbus.registers).trans (State.setModified_registers _ _ _)
  | store _ _ h1 h2 => exact (resolve_registers h1).trans (State.memWrite_keeps h2).registers
  | register hf => exact registerBody_registers hf s
  | branch => split <;> exact registersKept_of_eq
  | jump _ _ h1 => exact (resolve_registers h1).trans registersKept_of_eq
  | call hw h1 h2 =>
    have hi : writesSP i = true := by rw [hw]; rfl
    exact .trans registersKept_of_eq
      ((State.push8_registers hi h1).trans ((State.push8_registers hi h2).trans registersKept_of_eq))
  | ret hi h1 h2 =>
    have hi : writesSP i = true := by rw [hi]; rfl
    exact (State.pull8_registers hi h1).trans ((State.pull8_registers hi h2).trans registersKept_of_eq)
  | retInterrupt hi h1 h2 h3 =>
    have hi : writesSP i = true := by rw [hi]; rfl
    exact (State.pull8_registers hi h1).trans (.trans registersKept_of_eq
      ((State.pull8_registers hi h2).trans ((State.pull8_registers hi h3).trans registersKept_of_eq)))
  | pushA hi h1 | pushStatus hi h1 => exact State.push8_registers (by rw [hi]; rfl) h1
  | pullA hi h1 =>
    subst hi
    exact (State.pull8_registers rfl h1).trans ⟨nofun, by simp, by simp, nofun⟩
  | pullStatus hi h1 => exact (State.pull8_registers (by rw [hi]; rfl) h1).trans registersKept_of_eq

/-- Settles O47: the registers by the shape of the instruction, the rest by the frame. -/
theorem registerFrame : Obligations.RegisterFrame := by
  intro i s t h
  have hr := (exec_done h).registers
  exact ⟨hr.a, hr.x, hr.y, hr.sp, (exec_frame h).cfg, (exec_frame h).phase⟩

/-! ## Flags -/

theorem operandBody_flag {n : Mnemonic} {f : Byte → State → State} {g : Flag} (hf : operandBody n = some f)
    (hg : g ∉ flagsWritten n) (v : Byte) (s : State) : (f v s).flag g = s.flag g := by
  cases n <;> cases hf <;>
    simp_all [flagsWritten, State.flag_addWithCarry, State.flag_compare, State.flag_bitTest, State.flag_loadA,
      State.flag_loadX, State.flag_loadY, State.flag_setZN]

theorem setModified_flag {n : Mnemonic} {op : Bool → Byte → Byte} {g : Flag} (hop : modifiedByte n = some op)
    (hg : g ∉ flagsWritten n) (v r : Byte) (s : State) :
    (s.setModified ((carryOut n).map fun out => out v) r).flag g = s.flag g := by
  cases n <;> cases hop <;>
    simp_all [flagsWritten, carryOut, State.setModified, State.flag_setShift, State.flag_setZN]

theorem registerBody_flag {f : State → State} {g : Flag} (hf : registerBody i = some f)
    (hg : g ∉ flagsWritten i.mnemonic) (s : State) : (f s).flag g = s.flag g := by
  cases i <;> cases hf <;>
    simp_all [flagsWritten, Instr.mnemonic, State.flag_shiftA, State.flag_setShift, State.flag_loadA, State.flag_loadX,
      State.flag_loadY, State.flag_setZN, State.flag_setFlag]
  all_goals rfl

/-- Only the reserved bit is outside a load of the whole of `P` (R15, R27). -/
theorem Flag.eq_R_of_not_loaded {g : Flag} (hg : g ∉ [Flag.C, .Z, .I, .D, .B, .V, .N]) : g = .R := by
  cases g <;> simp_all

/-- Every instruction that completes leaves the flags that R27 does not give its mnemonic. -/
theorem Done.flag {g : Flag} (h : Done i s t) (hg : g ∉ flagsWritten i.mnemonic) : t.flag g = s.flag g := by
  cases h with
  | operand _ hf hr => rw [operandBody_flag hf hg, readOperand_flag hr]
  | modify _ hop h1 h2 h3 =>
    rw [setModified_flag hop hg, (State.memWrite_keeps h3).flag, (State.memRead_quiet h2).keeps.flag, resolve_flag h1]
  | store _ _ h1 h2 => rw [(State.memWrite_keeps h2).flag, resolve_flag h1]
  | register hf => exact registerBody_flag hf hg s
  | branch => split <;> rfl
  | jump _ _ h1 => exact resolve_flag h1 g
  | call _ h1 h2 => exact (State.push8_flag h2 g).trans (State.push8_flag h1 g)
  | ret _ h1 h2 => exact (State.pull8_flag h2 g).trans (State.pull8_flag h1 g)
  | retInterrupt hi | pullStatus hi =>
    subst hi
    rw [Flag.eq_R_of_not_loaded hg, State.flag_R, State.flag_R]
  | pushA _ h1 | pushStatus _ h1 => exact State.push8_flag h1 g
  | pullA hi h1 =>
    subst hi
    rw [← State.pull8_flag h1, State.flag_loadA, State.flag_setZN]
    simp_all [flagsWritten, Instr.mnemonic]

/-- Settles O48: the flags by the shape of the instruction. -/
theorem flagFrame : Obligations.FlagFrame := fun _ _ _ _ h hg => (exec_done h).flag hg

/-! ## `LEA` and `HALTED` -/

theorem readOperand_lea {m : Mode} {v : Byte} {ea : Word} (h : readOperand m s = .ok (v, t))
    (hr : resolve m s = .ok (ea, u)) : t.lea = ea := by
  cases m with
  | immediate nn =>
    cases h
    cases hr
    rfl
  | _ =>
    simp only [readOperand, hr, Except.bind] at h
    exact (State.memRead_quiet h).keeps.lea.trans (resolve_quiet hr).1

theorem operandBody_lea {n : Mnemonic} {f : Byte → State → State} (hf : operandBody n = some f) (v : Byte)
    (s : State) : (f v s).lea = s.lea := by
  cases n <;> cases hf <;> simp

theorem State.setModified_lea (s : State) (out : Option Bool) (r : Byte) : (s.setModified out r).lea = s.lea := by
  cases out <;> simp [State.setModified]

theorem registerBody_lea {f : State → State} (hf : registerBody i = some f) (s : State) : (f s).lea = s.lea := by
  cases i <;> cases hf <;> simp

/-- An instruction that uses the CPU alone has no addressing mode. -/
theorem operand_ne_mode_of_registerBody {f : State → State} (hf : registerBody i = some f) (m : Mode) :
    i.operand ≠ .mode m := by
  cases i <;> cases hf <;> nofun

theorem State.push8_lea {v : Byte} (h : s.push8 v = .ok t) : t.lea = s.lea := (State.push8_keeps h).lea

theorem State.pull8_lea {v : Byte} (h : s.pull8 = .ok (v, t)) : t.lea = s.lea := (State.pull8_quiet h).keeps.lea

/-- An instruction with an addressing mode leaves the address it resolved in `LEA` (R19). -/
theorem Done.lea_of_mode {m : Mode} {ea : Word} (h : Done i s t) (hm : i.operand = .mode m)
    (hr : resolve m s = .ok (ea, u)) : t.lea = ea := by
  cases h with
  | operand ho hf h1 =>
    cases ho.symm.trans hm
    rw [operandBody_lea hf, readOperand_lea h1 hr]
  | modify ho hop h1 h2 h3 =>
    cases ho.symm.trans hm
    cases h1.symm.trans hr
    rw [State.setModified_lea, (State.memWrite_keeps h3).lea, (State.memRead_quiet h2).keeps.lea, (resolve_quiet hr).1]
  | store ho _ h1 h2 =>
    cases ho.symm.trans hm
    cases h1.symm.trans hr
    rw [(State.memWrite_keeps h2).lea, (resolve_quiet hr).1]
  | register hf => exact absurd hm (operand_ne_mode_of_registerBody hf m)
  | branch ho => cases ho.symm.trans hm
  | jump _ ho h1 =>
    cases ho.symm.trans hm
    cases h1.symm.trans hr
    exact (resolve_quiet hr).1
  | call hw h1 h2 =>
    subst hw
    cases hm
    cases hr
    exact (State.push8_lea h2).trans (State.push8_lea h1)
  | ret hi | retInterrupt hi | pushA hi | pushStatus hi | pullA hi | pullStatus hi => subst hi; cases hm

/-- Every other instruction leaves `LEA` (R19). -/
theorem Done.lea_of_no_mode (h : Done i s t) (hm : ∀ m, i.operand ≠ .mode m) : t.lea = s.lea := by
  cases h with
  | operand ho | modify ho | store ho | jump _ ho => exact absurd ho (hm _)
  | register hf => exact registerBody_lea hf s
  | branch => split <;> rfl
  | call hw =>
    subst hw
    exact absurd rfl (hm _)
  | ret _ h1 h2 => exact (State.pull8_lea h2).trans (State.pull8_lea h1)
  | retInterrupt _ h1 h2 h3 =>
    have hstatus := (State.pull8_lea h2).trans (State.setStatus_lea _ _)
    exact (State.pull8_lea h3).trans (hstatus.trans (State.pull8_lea h1))
  | pushA _ h1 | pushStatus _ h1 => exact State.push8_lea h1
  | pullA _ h1 => simp [State.pull8_lea h1]
  | pullStatus _ h1 => exact (State.setStatus_lea _ _).trans (State.pull8_lea h1)

/-- Settles O49: `LEA` by the shape of the instruction, `HALTED` by the frame. -/
theorem scratchFrame : Obligations.ScratchFrame := fun _ _ _ h =>
  ⟨(exec_done h).lea_of_no_mode, fun _ _ _ hm hr => (exec_done h).lea_of_mode hm hr,
    fun hi => ((exec_done h).frame hi).halted⟩

end Sys2Proof.Machine
end
section
/-! PROOFS. The host's calls and the stack: reset and what it leaves (10_state.md R26; 70_reset_and_hazards.md R230 to
R238), the host's reads and writes of registers (10_state.md R21, R22), `HALTED` (R20), and the stack primitives
(R12). -/

namespace Sys2Proof.Machine

variable {s : State}

/-! ## Reset -/

/-- What reset makes of a machine set up, once it has read the vector `w` (R230). -/
def State.afterReset (s : State) (w : Word) : State :=
  { s with pc := w, a := s.cfg.resetA, x := s.cfg.resetX, y := s.cfg.resetY, sp := s.cfg.resetSP,
           p := s.cfg.resetStatus ||| 0x20#8, lea := 0x0000#16, halted := false, phase := .running }

/-- Reset takes the vector from memory with no side effect (R230, R231). -/
theorem State.hostReset_of_peekWord {w : Word} (hp : s.phase = .setup) (h : s.peekWord 0xFFFC#16 = some w) :
    s.hostReset = .next (s.afterReset w) := by
  simp [State.hostReset, hp, State.busGetWord_of_peek h, State.afterReset]

/-- A failed read of the vector is the outcome (R232). -/
theorem State.hostReset_of_error {kind : BusError} (hp : s.phase = .setup)
    (h : s.busGetWord 0xFFFC#16 = .error kind) : s.hostReset = .fault kind := by
  simp [State.hostReset, hp, h]

/-- Reset is performed once (R238). -/
theorem State.hostReset_of_running (hp : s.phase = .running) : s.hostReset = .refused .lateReset := by
  simp [State.hostReset, hp]

theorem State.busGetWord_of_unrouted {addr : Word} (h : s.route addr = none) :
    s.busGetWord addr = .error .deviceNotFound := by
  simp [State.busGetWord, h]

/-- A word read past the end of a memory device fails (R47). -/
theorem State.busGetWord_past_end {addr : Word} {d : Device} {m : MemoryDevice} (hr : s.route addr = some d)
    (hu : d.unit = .memory m) (hm : m.size ≤ d.offset addr + 1) : s.busGetWord addr = .error .outOfRange := by
  simp [State.busGetWord, hr, Device.getWord, hu, MemoryDevice.getWord, hm, Except.map]

/-- Reset stores the status parameter as every whole write of `P` does (R15). -/
theorem State.flag_afterReset (w : Word) {f : Flag} (hf : f ≠ .R) :
    (s.afterReset w).flag f = bitOf s.cfg.resetStatus f.bit :=
  (State.flag_congr (s := s.setStatus s.cfg.resetStatus) rfl f).trans (State.flag_setStatus s _ f hf)

/-- Settles O6: one lemma for each outcome of the vector's read, and one for a reset after reset. -/
theorem resetLoadsTheVector : Obligations.ResetLoadsTheVector := by
  refine fun s => ⟨fun hp => ⟨fun w hw => ?_, fun hr => ?_, fun d m hr hu hm => ?_⟩, State.hostReset_of_running⟩
  · exact ⟨_, State.hostReset_of_peekWord hp hw, rfl, bitOf_forced_bit5 _, fun f hf => State.flag_afterReset w hf⟩
  · exact State.hostReset_of_error hp (State.busGetWord_of_unrouted hr)
  · exact State.hostReset_of_error hp (State.busGetWord_past_end hr hu hm)

/-- Each device of the default map is as created, with nothing loaded (R44, R50, R55). -/
theorem defaultDevices_wf : ∀ d ∈ defaultDevices, d.unit.wf Config.default := by
  have hempty : ∀ size readOnly c, (DeviceUnit.memory (MemoryDevice.new size readOnly)).wf c :=
    fun _ _ _ => ⟨Memory.wf_nil, nofun⟩
  have hblank := blankGrid_wf Config.default
  intro d hd
  simp only [defaultDevices, List.mem_cons, List.not_mem_nil, or_false] at hd
  rcases hd with rfl | rfl | rfl | rfl
  · exact hempty _ _ _
  · trivial
  · exact ⟨hblank.1, hblank.2, by decide, by decide⟩
  · exact hempty _ _ _

/-- Settles O10: the default devices are as created, and an empty ROM holds the vector 0x0000. -/
theorem resetMeetsInvariant : Obligations.ResetMeetsInvariant :=
  ⟨⟨by decide, by decide, defaultDevices_wf⟩, State.hostReset_of_peekWord (w := 0x0000#16) rfl (by decide)⟩

/-! ## Registers, flags and `HALTED` -/

/-- Settles O8: `beginStep` forgets `HALTED`, and of all instructions `HLT` alone sets it. -/
theorem haltedReportsHlt : Obligations.HaltedReportsHlt :=
  ⟨fun _ _ => rfl, fun _ _ _ _ hf h => step_halted_iff hf h⟩

/-- A flag write changes `P` alone (R7). -/
theorem State.setFlag_eq (s : State) (f : Flag) (b : Bool) : s.setFlag f b = { s with p := (s.setFlag f b).p } := by
  by_cases hf : f = .R
  · subst hf
    simp
  · simp [State.setFlag, hf]

/-- The snapshot's status shows each flag (R21). -/
theorem State.bitOf_status (s : State) (g : Flag) :
    bitOf s.status g.bit = if g = .R then true else bitOf s.p g.bit := by
  by_cases hg : g = .R
  · subst hg
    exact s.flag_R
  · rw [if_neg hg]
    exact s.flag_eq_bit g hg

/-- Settles O60: the host's flag write is the CPU's, which naming bit 5 makes no write. -/
theorem hostReadsAndSetsFlags : Obligations.HostReadsAndSetsFlags := by
  refine fun s f b => ⟨s.setFlag_eq f b, fun g => ?_, s.bitOf_status, rfl⟩
  unfold State.setStatusFlag
  by_cases hf : f = .R
  · simp [hf]
  · simp [State.flag_setFlag s f g b hf, hf]

/-! ## The stack -/

/-- The stack address is in page one (R12). -/
theorem stackAddr_toNat (sp : Byte) : (stackAddr sp).toNat = 0x100 + sp.toNat := by
  simp only [stackAddr, zext16]
  bv_omega

/-- A push whose write succeeds decrements `SP` after it (R12). -/
theorem State.push8_of_memWrite {t : State} {v : Byte} (h : s.memWrite (stackAddr s.sp) v = .ok t) :
    s.push8 v = .ok { t with sp := s.sp - 1#8 } := by
  simp [State.push8, h, Except.map, (State.memWrite_keeps h).sp]

/-- The host's turn does not look at `SP`. -/
theorem State.hostTurn_withSP (s : State) (b : Byte) :
    ({ s with sp := b } : State).hostTurn = { s.hostTurn with sp := b } := by
  rw [State.hostTurn_of_cpu (s := s) rfl]
  conv_rhs => rw [(State.hostTurn_quiet s).cpu]

/-- A pull of a byte that memory holds increments `SP` and reads it (R12). -/
theorem State.pull8_of_peek {b : Byte} (h : s.peek (stackAddr (s.sp + 1#8)) = some b) :
    s.pull8 = .ok (b, { s.hostTurn with sp := s.sp + 1#8 }) := by
  rw [← State.hostTurn_withSP]
  exact State.memRead_of_peek (s := { s with sp := s.sp + 1#8 }) h

/-- Settles O38: the address, the push and the pull. -/
theorem stackPrimitives : Obligations.StackPrimitives := by
  refine fun s v => ⟨stackAddr_toNat s.sp, fun t h => ?_, fun b h => ?_⟩
  · exact ⟨_, State.push8_of_memWrite h, rfl, by simp only; bv_omega⟩
  · exact ⟨_, State.pull8_of_peek h, rfl, by simp only; bv_omega⟩

end Sys2Proof.Machine
end
section
/-! PROOFS. What a step can never change of memory and of the device map (20_memory.md R31, R32, R46, R65), and what an
instruction stores to (60_exceptions.md R212): every other byte reads as before (20_memory.md R62, R63). -/

namespace Sys2Proof.Machine

variable {i : Instr} {s t u : State}

/-! ## The device map and the contents of every ROM -/

/-- After reset the device map is closed (R235, R238). -/
theorem State.registerDevice_of_running (hp : s.phase = .running) (name : String) (unit : DeviceUnit) (base : Word) :
    s.registerDevice name unit base = .refused .lateRegistration := by
  simp [State.registerDevice, hp]

/-- Before reset a record that fits is appended, and no other (R32, 93 U10). -/
theorem State.registerDevice_of_setup (hp : s.phase = .setup) (name : String) (unit : DeviceUnit) (base : Word) :
    s.registerDevice name unit base =
      if (⟨name, base, unit⟩ : Device).fits s.cfg then .next { s with devices := s.devices ++ [⟨name, base, unit⟩] }
      else .refused .badRecord := by
  simp [State.registerDevice, hp]

/-- A record fits when it is not empty and ends inside the address space (R34). -/
theorem Device.fits_iff (c : Config) (d : Device) :
    d.fits c = true ↔ 1 ≤ d.size c ∧ d.base.toNat + d.size c ≤ 0x10000 := by
  simp [Device.fits]

/-- Settles O11: the map lies within the frame of a step, and registration asks for the phase and the fit. -/
theorem deviceMapIsFixed : Obligations.DeviceMapIsFixed := by
  intro s
  refine ⟨fun t h => ?_, fun kind left h => (step_leaves h).records, ?_⟩
  · have hf := step_frame h
    exact ⟨hf.records, hf.cfg, hf.phase⟩
  · rintro name base unit d rfl
    refine ⟨fun hp => State.registerDevice_of_running hp .., fun hp hd => ?_, fun hp hd => ?_⟩
    · rw [State.registerDevice_of_setup hp, if_pos ((Device.fits_iff _ _).mpr hd)]
    · rw [State.registerDevice_of_setup hp, if_neg]
      rw [Device.fits_iff]
      dsimp only
      omega

/-- Settles O12: the contents of every ROM lie within the frame of a step, and an error leaves them too. -/
theorem stepNeverChangesRom : Obligations.StepNeverChangesRom := fun _ =>
  ⟨fun _ h => (step_frame h).roms, fun _ _ h => (step_leaves h).roms⟩

/-! ## Stores to a list of addresses -/

/-- From `s` to `t` memory is stored to at the addresses of `l` alone: every other byte reads as before, and if `l` is
empty every memory device keeps its contents. -/
structure State.StoresTo (l : List Word) (s t : State) : Prop where
  peek : ∀ a, a ∉ l → t.peek a = s.peek a
  bytes : l = [] → t.devices.map Device.memoryBytes = s.devices.map Device.memoryBytes

variable {l k : List Word}

theorem State.StoresTo.trans (h : s.StoresTo l t) (g : t.StoresTo l u) : s.StoresTo l u :=
  ⟨fun a ha => (g.peek a ha).trans (h.peek a ha), fun hl => (g.bytes hl).trans (h.bytes hl)⟩

theorem State.StoresTo.mono (h : s.StoresTo l t) (hl : l ⊆ k) : s.StoresTo k t :=
  ⟨fun a ha => h.peek a fun hm => ha (hl hm), fun hk => h.bytes (List.subset_nil.mp (hk ▸ hl))⟩

/-- Memory is the devices', so a change of CPU registers stores nothing. -/
theorem State.storesTo_of_cpu (cfg : t.cfg = s.cfg := by simp) (devices : t.devices = s.devices := by simp) :
    s.StoresTo l t :=
  ⟨fun a _ => by simp only [State.peek, State.route, cfg, devices], fun _ => by rw [devices]⟩

/-- The shapes decide the contents of every memory device. -/
theorem bytes_of_shapes {ds es : List Device} (h : ds.map Device.shape = es.map Device.shape) :
    ds.map Device.memoryBytes = es.map Device.memoryBytes := by
  simpa [Function.comp_def, Device.shape] using congrArg (List.map Prod.snd) h

theorem State.Quiet.storesTo (h : s.Quiet t) : s.StoresTo l t := ⟨fun a _ => h.peek a, fun _ => bytes_of_shapes h.shapes⟩

/-! ## The shared operations -/

theorem State.memWrite_storesTo {a : Word} {v : Byte} (h : s.memWrite a v = .ok t)
    (hw : ∀ d ∈ s.devices, d.unit.wf s.cfg) : s.StoresTo [a] t :=
  ⟨fun _ hb => State.memWrite_peek_ne h hw (List.ne_of_not_mem_cons hb), nofun⟩

theorem State.push8_storesTo {v : Byte} (h : s.push8 v = .ok t)
    (hw : ∀ d ∈ s.devices, d.unit.wf s.cfg) : s.StoresTo [stackAddr s.sp] t := by
  obtain ⟨u, hu, rfl⟩ := State.push8_ok h
  exact (State.memWrite_storesTo hu hw).trans State.storesTo_of_cpu

theorem State.pull8_storesTo {v : Byte} (h : s.pull8 = .ok (v, t)) : s.StoresTo l t :=
  .trans State.storesTo_of_cpu (State.pull8_quiet h).storesTo

theorem resolve_storesTo {m : Mode} {ea : Word} (h : resolve m s = .ok (ea, t)) : s.StoresTo l t :=
  .trans State.storesTo_of_cpu (resolve_quiet h).2.storesTo

theorem readOperand_storesTo {m : Mode} {v : Byte} (h : readOperand m s = .ok (v, t)) : s.StoresTo l t :=
  .trans State.storesTo_of_cpu (readOperand_quiet h).storesTo

theorem operandBody_storesTo {n : Mnemonic} {f : Byte → State → State} (hf : operandBody n = some f) (v : Byte)
    (s : State) : s.StoresTo l (f v s) := by
  cases n <;> cases hf <;> exact State.storesTo_of_cpu

theorem State.setModified_storesTo (s : State) (out : Option Bool) (r : Byte) : s.StoresTo l (s.setModified out r) := by
  cases out with
  | none => exact State.storesTo_of_cpu (t := s.setZN r)
  | some b => exact State.storesTo_of_cpu (t := s.setShift b r)

theorem registerBody_storesTo {f : State → State} (hf : registerBody i = some f) (s : State) : s.StoresTo l (f s) := by
  cases i <;> cases hf <;> exact State.storesTo_of_cpu

/-! ## What an instruction stores to -/

/-- A read-modify-write stores to its effective address (R141). -/
theorem storeAddresses_of_modify {m : Mode} {op : Bool → Byte → Byte} {ea : Word} (ho : i.operand = .mode m)
    (hop : modifiedByte i.mnemonic = some op) (hr : resolve m s = .ok (ea, t)) : storeAddresses i s = [ea] := by
  cases hm : i.mnemonic <;> rw [hm] at hop <;> cases hop <;> simp [storeAddresses, hm, ho, hr]

/-- A store stores to its effective address (R183 to R185). -/
theorem storeAddresses_of_store {m : Mode} {r : State → Byte} {ea : Word} (ho : i.operand = .mode m)
    (hr : storedRegister i.mnemonic = some r) (h : resolve m s = .ok (ea, t)) : storeAddresses i s = [ea] := by
  cases hm : i.mnemonic <;> rw [hm] at hr <;> cases hr <;> simp [storeAddresses, hm, ho, h]

/-- Every instruction that completes stores to its own addresses alone. -/
theorem Done.storesTo (h : Done i s t) (hw : ∀ d ∈ s.devices, d.unit.wf s.cfg) :
    s.StoresTo (storeAddresses i s) t := by
  cases h with
  | operand _ hf hr => exact (readOperand_storesTo hr).trans (operandBody_storesTo hf _ _)
  | modify ho hop h1 h2 h3 =>
    rw [storeAddresses_of_modify ho hop h1]
    have hread := ((resolve_frame h1).trans (State.memRead_quiet h2).keeps.frame).wf hw
    exact ((resolve_storesTo h1).trans (State.memRead_quiet h2).storesTo).trans
      ((State.memWrite_storesTo h3 hread).trans (State.setModified_storesTo _ _ _))
  | store ho hr h1 h2 =>
    rw [storeAddresses_of_store ho hr h1]
    exact (resolve_storesTo h1).trans (State.memWrite_storesTo h2 ((resolve_frame h1).wf hw))
  | register hf => exact registerBody_storesTo hf s
  | branch =>
    split
    · exact State.storesTo_of_cpu
    · exact State.storesTo_of_cpu
  | jump _ _ h1 => exact (resolve_storesTo h1).trans State.storesTo_of_cpu
  | call hi h1 h2 =>
    subst hi
    have hfirst := State.push8_storesTo h1 hw
    have hsecond := State.push8_storesTo h2 ((State.push8_frame h1).wf hw)
    rw [(State.push8_keeps h1).sp] at hsecond
    exact .trans State.storesTo_of_cpu ((hfirst.mono (List.cons_subset_cons _ (List.nil_subset _))).trans
      ((hsecond.mono (List.subset_cons_self ..)).trans State.storesTo_of_cpu))
  | ret _ h1 h2 => exact (State.pull8_storesTo h1).trans ((State.pull8_storesTo h2).trans State.storesTo_of_cpu)
  | retInterrupt _ h1 h2 h3 =>
    exact (State.pull8_storesTo h1).trans (.trans State.storesTo_of_cpu
      ((State.pull8_storesTo h2).trans ((State.pull8_storesTo h3).trans State.storesTo_of_cpu)))
  | pushA hi h1 | pushStatus hi h1 =>
    subst hi
    exact State.push8_storesTo h1 hw
  | pullA _ h1 => exact (State.pull8_storesTo h1).trans State.storesTo_of_cpu
  | pullStatus _ h1 => exact (State.pull8_storesTo h1).trans State.storesTo_of_cpu

/-- Settles O50: the addresses by the shape of the instruction. -/
theorem memoryFrame : Obligations.MemoryFrame := by
  intro i s t hs h
  have hst := (exec_done h).storesTo hs.devices
  exact ⟨hst.peek, hst.bytes⟩

end Sys2Proof.Machine
end
section
/-! PROOFS. Routing (20_memory.md R35) and the memory device behind the bus: its byte and word operations (R45 to R48) and
the load of an image (R41, R49). -/

namespace Sys2Proof

/-! ## A word's two bytes as numbers (00_scope.md R6) -/

theorem joinWord_toNat (h l : Byte) : (joinWord h l).toNat = 256 * h.toNat + l.toNat := by
  rw [joinWord, BitVec.toNat_append, ← Nat.shiftLeft_add_eq_or_of_lt l.isLt, Nat.shiftLeft_eq]
  omega

theorem lo_eq_ofNat (w : Word) : lo w = BitVec.ofNat 8 (w.toNat % 256) :=
  BitVec.eq_of_toNat_eq (by simp [lo])

theorem hi_eq_ofNat (w : Word) : hi w = BitVec.ofNat 8 (w.toNat / 256) :=
  BitVec.eq_of_toNat_eq (by simp [hi, Nat.shiftRight_eq_div_pow])

end Sys2Proof

namespace Sys2Proof.Machine

variable {s : State} {addr : Word} {d : Device} {m : MemoryDevice} {idx : Nat} {v : Byte} {w : Word}

/-! ## Routing -/

/-- The interval of a record (R35, D10). -/
theorem Device.claims_iff (c : Config) (d : Device) (addr : Word) :
    d.claims c addr = true ↔
      d.base.toNat ≤ addr.toNat ∧ (if c.routeEndInclusive then addr.toNat ≤ d.base.toNat + d.size c
        else addr.toNat < d.base.toNat + d.size c) := by
  cases hc : c.routeEndInclusive <;> simp [Device.claims, hc]

/-- Settles O51: the router's search, with the match test spelt out. -/
theorem routingIsFirstMatch : Obligations.RoutingIsFirstMatch := by
  intro s addr d
  simp only [← Device.claims_iff, State.route, List.find?_eq_some_iff_append]
  constructor
  · rintro ⟨hd, before, after, hds, hb⟩
    exact ⟨before, after, hds, hd, by simpa using hb⟩
  · rintro ⟨before, after, hds, hd, hb⟩
    exact ⟨hd, before, after, hds, by simpa using hb⟩

/-! ## The byte operations -/

theorem MemoryDevice.get_inside (h : idx < m.size) : m.get idx = .ok (m.bytes.read idx) := by
  simp [MemoryDevice.get, h]

theorem MemoryDevice.get_of_read (h : idx < m.size) (hv : m.bytes.read idx = v) : m.get idx = .ok v := by
  rw [MemoryDevice.get_inside h, hv]

theorem MemoryDevice.get_outside (h : m.size ≤ idx) : m.get idx = .error .outOfRange := by
  simp [MemoryDevice.get, h]

/-- Reading looks at the buffer alone. -/
theorem MemoryDevice.get_congr {m' : MemoryDevice} {j : Nat} (hs : m'.size = m.size)
    (hb : m'.bytes.read j = m.bytes.read j) : m'.get j = m.get j := by
  simp [MemoryDevice.get, hs, hb]

theorem MemoryDevice.set_readOnly (h : m.readOnly = true) : m.set idx v = .error .readOnlyViolation := by
  simp [MemoryDevice.set, h]

theorem MemoryDevice.set_outside (hr : m.readOnly = false) (h : m.size ≤ idx) : m.set idx v = .error .outOfRange := by
  simp [MemoryDevice.set, hr, h]

theorem MemoryDevice.set_inside (hr : m.readOnly = false) (h : idx < m.size) :
    m.set idx v = .ok { m with bytes := m.bytes.write idx v } := by
  simp [MemoryDevice.set, hr, h]

/-- A byte read routed to a memory device is the device's, and leaves the state as it is (R37, R45). -/
theorem State.busGet_memory (hr : s.route addr = some d) (hu : d.unit = .memory m) :
    s.busGet addr = (m.get (d.offset addr)).map fun v => (v, s) := by
  have hself : s.putRouted addr d = s := State.putRouted_self hr rfl
  simp only [State.busGet, hr, Device.get, hu]
  cases m.get (d.offset addr) <;> simp [Except.map, hself]

/-- A byte write routed to a memory device is the device's (R38, R46). -/
theorem State.busSet_memory (hr : s.route addr = some d) (hu : d.unit = .memory m) :
    s.busSet addr v =
      (m.set (d.offset addr) v).map fun m' => s.putRouted addr { d with unit := .memory m' } := by
  simp only [State.busSet, hr, Device.set, hu]
  cases m.set (d.offset addr) v <;> rfl

/-- Memory holds a byte where the routed device does. -/
theorem State.peek_memory (hr : s.route addr = some d) (hu : d.unit = .memory m) :
    s.peek addr = (m.get (d.offset addr)).toOption := by
  simp [State.peek, hr, Device.peek, hu]

/-- Settles O52: one equation of the device's write for each outcome. -/
theorem memoryWrite : Obligations.MemoryWrite := by
  intro s addr v d m hs hr hu
  have hset := State.busSet_memory (v := v) hr hu
  refine ⟨fun ho => ?_, fun ho hi => ?_, fun ho hi => ?_⟩
  · rw [hset, MemoryDevice.set_readOnly ho]
    rfl
  · rw [hset, MemoryDevice.set_outside ho hi]
    rfl
  · rw [MemoryDevice.set_inside ho hi] at hset
    have hp : s.peek addr = some (m.bytes.read (d.offset addr)) := by
      rw [State.peek_memory hr hu, MemoryDevice.get_inside hi]
      rfl
    exact ⟨_, hset, rfl, State.busSet_peek_same hset hs.devices hp, fun a ha => State.busSet_peek_ne hset hs.devices ha⟩

/-- A routed address is at most one past the end of a memory device (R35). -/
theorem State.route_memory_bounds (hr : s.route addr = some d) (hu : d.unit = .memory m) :
    d.base.toNat ≤ addr.toNat ∧ addr.toNat ≤ d.base.toNat + m.size := by
  have hc := State.route_claims hr
  rw [Device.claims_iff] at hc
  simp only [Device.size, hu] at hc
  split at hc <;> omega

/-- Settles O53: inside the buffer or past it, and no address past it but the end is routed. -/
theorem memoryByteRead : Obligations.MemoryByteRead := by
  intro s addr d m hr hu
  have hget := State.busGet_memory hr hu
  have hend := State.route_memory_bounds hr hu
  refine ⟨fun h => ⟨by omega, ?_⟩, fun h => ?_⟩
  · rw [hget, MemoryDevice.get_outside (idx := d.offset addr) h]
    rfl
  · rw [hget, MemoryDevice.get_inside (idx := d.offset addr) h]
    rfl

/-! ## The word operations -/

theorem MemoryDevice.getWord_outside (h : m.size ≤ idx + 1) : m.getWord idx = .error .outOfRange := by
  simp [MemoryDevice.getWord, h]

theorem MemoryDevice.getWord_inside (h : idx + 1 < m.size) :
    m.getWord idx = .ok (joinWord (m.bytes.read (idx + 1)) (m.bytes.read idx)) := by
  simp [MemoryDevice.getWord, h]

theorem MemoryDevice.setWord_readOnly (h : m.readOnly = true) : m.setWord idx w = .error .readOnlyViolation := by
  simp [MemoryDevice.setWord, h]

theorem MemoryDevice.setWord_outside (hr : m.readOnly = false) (h : m.size ≤ idx + 1) :
    m.setWord idx w = .error .outOfRange := by
  simp [MemoryDevice.setWord, hr, h]

/-- The contents after a word write (R48). -/
def Memory.writeWord (b : Memory) (idx : Nat) (w : Word) : Memory := (b.write idx (lo w)).write (idx + 1) (hi w)

theorem MemoryDevice.setWord_inside (hr : m.readOnly = false) (h : idx + 1 < m.size) :
    m.setWord idx w = .ok { m with bytes := m.bytes.writeWord idx w } := by
  simp [MemoryDevice.setWord, hr, h, Memory.writeWord]

section

variable {b : Memory} (hb : b.wf)
include hb

theorem Memory.writeWord_wf : (b.writeWord idx w).wf := Memory.write_wf _ _ (b.write_wf _ _ hb)

theorem Memory.read_writeWord_high : (b.writeWord idx w).read (idx + 1) = hi w :=
  Memory.read_write_same _ _ (b.write_wf _ _ hb)

theorem Memory.read_writeWord_low : (b.writeWord idx w).read idx = lo w := by
  rw [Memory.writeWord, Memory.read_write_ne _ (b.write_wf _ _ hb) (by omega), b.read_write_same _ _ hb]

theorem Memory.read_writeWord_ne {j : Nat} (h : j ≠ idx) (h' : j ≠ idx + 1) :
    (b.writeWord idx w).read j = b.read j := by
  rw [Memory.writeWord, Memory.read_write_ne _ (b.write_wf _ _ hb) h', b.read_write_ne _ hb h]

end

/-- Settles O54: the read's and the write's outcomes, and the contents after a word write. -/
theorem memoryWordReadAndWrite : Obligations.MemoryWordReadAndWrite := by
  refine fun m idx => ⟨MemoryDevice.getWord_outside, fun h => ?_, fun w hb =>
    ⟨MemoryDevice.setWord_readOnly, MemoryDevice.setWord_outside, fun hr h => ?_⟩⟩
  · exact ⟨_, _, _, MemoryDevice.getWord_inside h, MemoryDevice.get_inside (by omega), MemoryDevice.get_inside h,
      joinWord_toNat _ _⟩
  · refine ⟨_, MemoryDevice.setWord_inside hr h, ?_, ?_, fun j hj hj' => ?_, Memory.writeWord_wf hb, rfl⟩
    · exact MemoryDevice.get_of_read (Nat.lt_of_succ_lt h) ((Memory.read_writeWord_low hb).trans (lo_eq_ofNat w))
    · exact MemoryDevice.get_of_read h ((Memory.read_writeWord_high hb).trans (hi_eq_ofNat w))
    · exact MemoryDevice.get_congr rfl (Memory.read_writeWord_ne hb hj hj')

/-! ## Loading an image -/

variable {data : List Byte} {start : Nat}

theorem MemoryDevice.load_too_large (h : m.size < start + data.length) :
    m.load start data = .error .imageTooLarge := by
  simp [MemoryDevice.load, h]

theorem MemoryDevice.load_fits (h : start + data.length ≤ m.size) :
    m.load start data = .ok { m with
      bytes := m.bytes.writeAll start data, writeCursor := start + data.length, loaded := true } := by
  simp [MemoryDevice.load, Nat.not_lt.mpr h]

/-- After reset every load is refused (R238). -/
theorem State.busLoad_of_running (hp : s.phase = .running) : s.busLoad data addr = .refused .lateLoad := by
  simp [State.busLoad, hp]

section

variable (hp : s.phase = .setup)
include hp

theorem State.busLoad_unrouted (hr : s.route addr = none) : s.busLoad data addr = .fault .deviceNotFound := by
  simp [State.busLoad, hp, hr]

/-- A keyboard and a terminal take no image (R54, R59, 93 U8). -/
theorem State.busLoad_peripheral (hr : s.route addr = some d) (hu : ∀ m, d.unit ≠ .memory m) :
    s.busLoad data addr = .refused .peripheralLoad := by
  cases hk : d.unit with
  | memory m => exact absurd hk (hu m)
  | keyboard k => simp [State.busLoad, hp, hr, hk]
  | terminal t => simp [State.busLoad, hp, hr, hk]

/-- A memory device takes one image (93 U9). -/
theorem State.busLoad_loaded (hr : s.route addr = some d) (hu : d.unit = .memory m) (hl : m.loaded = true) :
    s.busLoad data addr = .refused .secondLoad := by
  simp [State.busLoad, hp, hr, hu, hl]

theorem State.busLoad_of_error {kind : BusError} (hr : s.route addr = some d) (hu : d.unit = .memory m)
    (hl : m.loaded = false) (h : m.load (d.offset addr) data = .error kind) :
    s.busLoad data addr = .fault kind := by
  simp [State.busLoad, hp, hr, hu, hl, h]

theorem State.busLoad_of_ok {m' : MemoryDevice} (hr : s.route addr = some d) (hu : d.unit = .memory m)
    (hl : m.loaded = false) (h : m.load (d.offset addr) data = .ok m') :
    s.busLoad data addr = .next (data.length, s.putRouted addr { d with unit := .memory m' }) := by
  simp [State.busLoad, hp, hr, hu, hl, h]

end

/-- Settles O55: the device's load by whether the image fits, the bus's by one lemma for each outcome. -/
theorem loadInstallsImage : Obligations.LoadInstallsImage := by
  refine ⟨fun m start data hb => ⟨MemoryDevice.load_too_large, fun h => ?_⟩, fun s data addr =>
    ⟨State.busLoad_of_running, fun hp => ?_⟩⟩
  · refine ⟨_, MemoryDevice.load_fits h, rfl, Memory.writeAll_wf _ _ hb, fun j v hj => ?_, fun j hj => ?_⟩
    · have hlt : j < data.length := (List.getElem?_eq_some_iff.mp hj).1
      exact MemoryDevice.get_of_read (by dsimp only; omega) (Memory.read_writeAll_inside data hb hj)
    · refine MemoryDevice.get_congr rfl ?_
      rcases hj with hj | hj
      · exact Memory.read_writeAll_lt data hb hj
      · exact Memory.read_writeAll_ge data hb hj
  · refine ⟨State.busLoad_unrouted hp, fun d hr => ⟨State.busLoad_peripheral hp hr, fun m hu => ?_⟩⟩
    exact ⟨State.busLoad_loaded hp hr hu, fun hl =>
      ⟨fun _ => State.busLoad_of_error hp hr hu hl, fun _ => State.busLoad_of_ok hp hr hu hl⟩⟩

end Sys2Proof.Machine
end
section
/-! PROOFS. The peripherals behind the bus: what the keyboard and the terminal have in common, two registers and a word
operation that is the low byte's, then the high byte's (20_memory.md R54, R59); and the keyboard (R50 to R53). -/

namespace Sys2Proof.Machine

variable {c : Config} {s : State} {addr : Word} {d d₁ d₂ : Device} {off : Nat} {v l h : Byte} {w : Word}

/-! ## A routed operation -/

section

variable (hr : s.route addr = some d)
include hr

theorem State.busGet_of_ok (hg : d.get s.cfg (d.offset addr) = .ok (v, d₁)) :
    s.busGet addr = .ok (v, s.putRouted addr d₁) := by
  simp [State.busGet, hr, hg, Except.map]

theorem State.busGet_of_error {kind : BusError} (hg : d.get s.cfg (d.offset addr) = .error kind) :
    s.busGet addr = .error kind := by
  simp [State.busGet, hr, hg, Except.map]

theorem State.busSet_of_ok (hg : d.set s.cfg (d.offset addr) v = .ok d₁) :
    s.busSet addr v = .ok (s.putRouted addr d₁) := by
  simp [State.busSet, hr, hg, Except.map]

theorem State.busSet_of_error {kind : BusError} (hg : d.set s.cfg (d.offset addr) v = .error kind) :
    s.busSet addr v = .error kind := by
  simp [State.busSet, hr, hg, Except.map]

end

/-! ## The two registers of a peripheral -/

/-- The device is a peripheral with its data register at offset `a` and its control register at offset `b` (R50, R55). -/
inductive Device.HasRegisters (c : Config) (d : Device) : Nat → Nat → Prop where
  | keyboard {k : Keyboard} (hu : d.unit = .keyboard k) : Device.HasRegisters c d c.kbdDataOff c.kbdCtrlOff
  | terminal {t : Terminal} (hu : d.unit = .terminal t) : Device.HasRegisters c d c.termDataOff c.termCtrlOff

/-- The registers follow from the record. -/
theorem Device.HasRegisters.of_record {a b : Nat} (hd : d.HasRegisters c a b) (hrec : d₁.record = d.record) :
    d₁.HasRegisters c a b := by
  have hkind : d₁.unit.kind = d.unit.kind := congrArg (·.2.2) hrec
  cases hd with
  | keyboard hu =>
    rw [hu] at hkind
    cases hu₁ : d₁.unit <;> rw [hu₁] at hkind <;> cases hkind
    exact .keyboard hu₁
  | terminal hu =>
    rw [hu] at hkind
    cases hu₁ : d₁.unit <;> rw [hu₁] at hkind <;> cases hkind
    exact .terminal hu₁

/-- If a word's two addresses are not the two registers in some order and the first is a register, the second is none. -/
theorem not_register_of_not_inOrder {a b : Nat} (hab : ¬ InOrder off a b) (hba : ¬ InOrder off b a)
    (ho : off = a ∨ off = b) : off + 1 ≠ a ∧ off + 1 ≠ b := by
  unfold InOrder at hab hba
  omega

section

variable {a b : Nat} (hd : d.HasRegisters c a b)
include hd

/-- A read at neither register is out of range (R51, R58, D20). -/
theorem Device.get_no_register (ha : off ≠ a) (hb : off ≠ b) : d.get c off = .error .outOfRange := by
  cases hd with
  | keyboard hu => simp [Device.get, hu, Keyboard.get, ha, hb, Except.map]
  | terminal hu => simp [Device.get, hu, Terminal.get, ha, hb, Except.map]

/-- A write at neither register is out of range (R52, R58, D20). -/
theorem Device.set_no_register (ha : off ≠ a) (hb : off ≠ b) : d.set c off v = .error .outOfRange := by
  cases hd with
  | keyboard hu => simp [Device.set, hu, Keyboard.set, ha, hb, Except.map]
  | terminal hu => simp [Device.set, hu, Terminal.set, ha, hb, Except.map]

/-- A read at a register succeeds (R51, R58). -/
theorem Device.get_register (ho : off = a ∨ off = b) : ∃ v d₁, d.get c off = .ok (v, d₁) := by
  cases hd with
  | keyboard hu =>
    simp only [Device.get, hu, Keyboard.get]
    split
    · split <;> exact ⟨_, _, rfl⟩
    · next hne =>
      rw [if_pos (ho.resolve_left hne)]
      exact ⟨_, _, rfl⟩
  | terminal hu =>
    simp only [Device.get, hu, Terminal.get, if_pos ho]
    exact ⟨_, _, rfl⟩

/-- A write at a register succeeds (R52, R56, R57). -/
theorem Device.set_register (ho : off = a ∨ off = b) : ∃ d₁, d.set c off v = .ok d₁ := by
  cases hd with
  | keyboard hu =>
    simp only [Device.set, hu, Keyboard.set]
    split
    · exact ⟨_, rfl⟩
    · next hne =>
      rw [if_pos (ho.resolve_right hne)]
      exact ⟨_, rfl⟩
  | terminal hu =>
    simp only [Device.set, hu, Terminal.set]
    split
    · exact ⟨_, rfl⟩
    · next hne =>
      rw [if_pos (ho.resolve_right hne)]
      exact ⟨_, rfl⟩

/-! ## The word operations of a peripheral -/

theorem Device.getWord_eq_getPair : d.getWord c off = d.getPair c off := by
  cases hd with
  | keyboard hu | terminal hu => simp [Device.getWord, hu]

theorem Device.setWord_eq_setPair : d.setWord c off w = d.setPair c off w := by
  cases hd with
  | keyboard hu | terminal hu => simp [Device.setWord, hu]

/-- A word read past the device, or where an address is no register, is out of range (R54, R59; log 14). -/
theorem Device.getWord_out_of_range
    (ho : c.periphSize ≤ off + 1 ∨ ¬ InOrder off a b ∧ ¬ InOrder off b a) :
    d.getWord c off = .error .outOfRange := by
  rw [Device.getWord_eq_getPair hd, Device.getPair]
  split
  · next hin =>
    obtain ⟨hab, hba⟩ := ho.resolve_left (by omega)
    by_cases hlow : off = a ∨ off = b
    · obtain ⟨ha, hb⟩ := not_register_of_not_inOrder hab hba hlow
      obtain ⟨l, d₁, h1⟩ := Device.get_register hd hlow
      have h2 := Device.get_no_register (hd.of_record (Device.get_quiet h1).keeps.record) ha hb
      simp [h1, h2, Except.bind, Except.map]
    · obtain ⟨ha, hb⟩ := not_or.mp hlow
      simp [Device.get_no_register hd ha hb, Except.bind]
  · rfl

/-- A word write past the device, or where an address is no register, is out of range (R54, R59; log 14). -/
theorem Device.setWord_out_of_range
    (ho : c.periphSize ≤ off + 1 ∨ ¬ InOrder off a b ∧ ¬ InOrder off b a) :
    d.setWord c off w = .error .outOfRange := by
  rw [Device.setWord_eq_setPair hd, Device.setPair]
  split
  · next hin =>
    obtain ⟨hab, hba⟩ := ho.resolve_left (by omega)
    by_cases hlow : off = a ∨ off = b
    · obtain ⟨ha, hb⟩ := not_register_of_not_inOrder hab hba hlow
      obtain ⟨d₁, h1⟩ := Device.set_register (v := lo w) hd hlow
      have h2 := Device.set_no_register (v := hi w) (hd.of_record (Device.set_keeps h1).record) ha hb
      simp [h1, h2, Except.bind]
    · obtain ⟨ha, hb⟩ := not_or.mp hlow
      simp [Device.set_no_register hd ha hb, Except.bind]
  · rfl

end

section

variable {a b : Nat} (hr : s.route addr = some d) (hd : d.HasRegisters s.cfg a b)
include hr hd

/-- A byte access at no register (R51, R52, R58). -/
theorem State.bus_no_register (ha : d.offset addr ≠ a) (hb : d.offset addr ≠ b) :
    s.busGet addr = .error .outOfRange ∧ ∀ v, s.busSet addr v = .error .outOfRange :=
  ⟨State.busGet_of_error hr (Device.get_no_register hd ha hb),
    fun _ => State.busSet_of_error hr (Device.set_no_register hd ha hb)⟩

/-- A word access that is not of the two registers (R54, R59). -/
theorem State.busWord_out_of_range (ho : s.cfg.periphSize ≤ d.offset addr + 1 ∨
      ¬ InOrder (d.offset addr) a b ∧ ¬ InOrder (d.offset addr) b a) :
    s.busGetWord addr = .error .outOfRange ∧ ∀ w, s.busSetWord addr w = .error .outOfRange := by
  refine ⟨?_, fun w => ?_⟩
  · simp [State.busGetWord, hr, Device.getWord_out_of_range hd ho, Except.map]
  · simp [State.busSetWord, hr, Device.setWord_out_of_range hd ho, Except.map]

/-- A word read inside the device: the low byte's read, then the high byte's (R39, R54, R59). -/
theorem State.busGetWord_of_pair (hin : d.offset addr + 1 < s.cfg.periphSize)
    (h1 : d.get s.cfg (d.offset addr) = .ok (l, d₁)) (h2 : d₁.get s.cfg (d.offset addr + 1) = .ok (h, d₂)) :
    s.busGetWord addr = .ok (joinWord h l, s.putRouted addr d₂) := by
  simp [State.busGetWord, hr, Device.getWord_eq_getPair hd, Device.getPair, hin, h1, h2, Except.bind, Except.map]

/-- A word write inside the device: the low byte's write, then the high byte's (R40, R54, R59). -/
theorem State.busSetWord_of_pair (hin : d.offset addr + 1 < s.cfg.periphSize)
    (h1 : d.set s.cfg (d.offset addr) (lo w) = .ok d₁) (h2 : d₁.set s.cfg (d.offset addr + 1) (hi w) = .ok d₂) :
    s.busSetWord addr w = .ok (s.putRouted addr d₂) := by
  simp [State.busSetWord, hr, Device.setWord_eq_setPair hd, Device.setPair, hin, h1, h2, Except.bind, Except.map]

end

/-! ## The keyboard -/

/-- The constraints on the keyboard's offsets (R5). -/
theorem Config.kbd_of_wf (hc : c.wf = true) :
    c.kbdDataOff ≠ c.kbdCtrlOff ∧ c.kbdDataOff < c.periphSize ∧ c.kbdCtrlOff < c.periphSize := by
  simp only [Config.wf, Bool.and_eq_true, bne_iff_ne, decide_eq_true_eq] at hc
  tauto

variable {k k₁ : Keyboard}

theorem Keyboard.get_data_nil (ho : off = c.kbdDataOff) (hq : k.queue = []) : k.get c off = .ok (0x00#8, k) := by
  simp [Keyboard.get, ho, hq]

theorem Keyboard.get_data_cons {key : Byte} {rest : List Byte} (ho : off = c.kbdDataOff) (hq : k.queue = key :: rest) :
    k.get c off = .ok (key ||| 0x80#8, { k with queue := rest }) := by
  simp [Keyboard.get, ho, hq]

theorem Keyboard.get_ctrl (hne : c.kbdDataOff ≠ c.kbdCtrlOff) (ho : off = c.kbdCtrlOff) :
    k.get c off = .ok (if k.queue = [] then 0x00#8 else 0x80#8, k) := by
  simp [Keyboard.get, ho, hne.symm]

theorem Keyboard.set_ctrl (ho : off = c.kbdCtrlOff) :
    k.set c off v = .ok { k with configured := !k.configured } := by
  simp [Keyboard.set, ho]

theorem Keyboard.set_data (hne : c.kbdDataOff ≠ c.kbdCtrlOff) (ho : off = c.kbdDataOff) : k.set c off v = .ok k := by
  simp [Keyboard.set, ho, hne]

theorem Device.get_keyboard (hu : d.unit = .keyboard k) (hg : k.get c off = .ok (v, k₁)) :
    d.get c off = .ok (v, { d with unit := .keyboard k₁ }) := by
  simp [Device.get, hu, hg, Except.map]

theorem Device.set_keyboard (hu : d.unit = .keyboard k) (hg : k.set c off v = .ok k₁) :
    d.set c off v = .ok { d with unit := .keyboard k₁ } := by
  simp [Device.set, hu, hg, Except.map]

section

variable {k₂ : Keyboard} (hr : s.route addr = some d) (hu : d.unit = .keyboard k)
include hr hu

/-- A byte read that takes no key leaves the state as it is (R51). -/
theorem State.busGet_keyboard_same (hg : k.get s.cfg (d.offset addr) = .ok (v, k)) : s.busGet addr = .ok (v, s) := by
  rw [State.busGet_of_ok hr (Device.get_keyboard hu hg), State.putRouted_self hr hu]

theorem State.busGetWord_keyboard (hin : d.offset addr + 1 < s.cfg.periphSize)
    (h1 : k.get s.cfg (d.offset addr) = .ok (l, k₁)) (h2 : k₁.get s.cfg (d.offset addr + 1) = .ok (h, k₂)) :
    s.busGetWord addr = .ok (joinWord h l, s.putRouted addr { d with unit := .keyboard k₂ }) :=
  State.busGetWord_of_pair hr (.keyboard hu) hin (Device.get_keyboard hu h1) (Device.get_keyboard rfl h2)

theorem State.busSetWord_keyboard (hin : d.offset addr + 1 < s.cfg.periphSize)
    (h1 : k.set s.cfg (d.offset addr) (lo w) = .ok k₁) (h2 : k₁.set s.cfg (d.offset addr + 1) (hi w) = .ok k₂) :
    s.busSetWord addr w = .ok (s.putRouted addr { d with unit := .keyboard k₂ }) :=
  State.busSetWord_of_pair hr (.keyboard hu) hin (Device.set_keyboard hu h1) (Device.set_keyboard rfl h2)

/-- A word read of the data register, then the control register (R54, D19): it pops, then looks. -/
theorem State.busGetWord_keyboard_data_ctrl (hc : s.cfg.wf = true)
    (ho : InOrder (d.offset addr) s.cfg.kbdDataOff s.cfg.kbdCtrlOff) :
    (k.queue = [] → s.busGetWord addr = .ok (0x0000#16, s)) ∧
      ∀ key rest, k.queue = key :: rest →
        s.busGetWord addr = .ok (joinWord (if rest = [] then 0x00#8 else 0x80#8) (key ||| 0x80#8),
          s.putRouted addr { d with unit := .keyboard { k with queue := rest } }) := by
  obtain ⟨hne, -, hctrl⟩ := Config.kbd_of_wf hc
  obtain ⟨hlow, hhigh⟩ := ho
  have hin := hhigh.trans_lt hctrl
  refine ⟨fun hq => ?_, fun key rest hq => ?_⟩
  · rw [State.busGetWord_keyboard hr hu hin (Keyboard.get_data_nil hlow hq) (Keyboard.get_ctrl hne hhigh), if_pos hq,
      State.putRouted_self hr hu]
    rfl
  · exact State.busGetWord_keyboard hr hu hin (Keyboard.get_data_cons hlow hq) (Keyboard.get_ctrl hne hhigh)

/-- A word read of the control register, then the data register (R54, D19): it looks, then pops. -/
theorem State.busGetWord_keyboard_ctrl_data (hc : s.cfg.wf = true)
    (ho : InOrder (d.offset addr) s.cfg.kbdCtrlOff s.cfg.kbdDataOff) :
    (k.queue = [] → s.busGetWord addr = .ok (0x0000#16, s)) ∧
      ∀ key rest, k.queue = key :: rest →
        s.busGetWord addr = .ok (joinWord (key ||| 0x80#8) 0x80#8,
          s.putRouted addr { d with unit := .keyboard { k with queue := rest } }) := by
  obtain ⟨hne, hdata, -⟩ := Config.kbd_of_wf hc
  obtain ⟨hlow, hhigh⟩ := ho
  have hin := hhigh.trans_lt hdata
  refine ⟨fun hq => ?_, fun key rest hq => ?_⟩
  · rw [State.busGetWord_keyboard hr hu hin (Keyboard.get_ctrl hne hlow) (Keyboard.get_data_nil hhigh hq), if_pos hq,
      State.putRouted_self hr hu]
    rfl
  · rw [State.busGetWord_keyboard hr hu hin (Keyboard.get_ctrl hne hlow) (Keyboard.get_data_cons hhigh hq),
      if_neg (by simp [hq])]

/-- A word write of the two registers, in either order, toggles `configured` once (R54, D19). -/
theorem State.busSetWord_keyboard_registers (hc : s.cfg.wf = true)
    (ho : InOrder (d.offset addr) s.cfg.kbdDataOff s.cfg.kbdCtrlOff ∨
      InOrder (d.offset addr) s.cfg.kbdCtrlOff s.cfg.kbdDataOff) :
    s.busSetWord addr w =
      .ok (s.putRouted addr { d with unit := .keyboard { k with configured := !k.configured } }) := by
  obtain ⟨hne, hdata, hctrl⟩ := Config.kbd_of_wf hc
  rcases ho with ⟨hlow, hhigh⟩ | ⟨hlow, hhigh⟩
  · exact State.busSetWord_keyboard hr hu (hhigh.trans_lt hctrl) (Keyboard.set_data hne hlow) (Keyboard.set_ctrl hhigh)
  · exact State.busSetWord_keyboard hr hu (hhigh.trans_lt hdata) (Keyboard.set_ctrl hlow) (Keyboard.set_data hne hhigh)

end

/-- Settles O56: the keyboard's own read and write at each register, behind the bus. -/
theorem keyboardReadsAndWrites : Obligations.KeyboardReadsAndWrites := by
  intro s addr d k hs hr hu
  have hne := (Config.kbd_of_wf hs.cfg).1
  have hreg := Device.HasRegisters.keyboard (c := s.cfg) hu
  refine ⟨fun ho hq => ?_, fun key rest ho hq => ?_, fun ho => ?_, fun v ho => ?_, fun v ho => ?_,
    State.bus_no_register hr hreg, State.busWord_out_of_range hr hreg,
    State.busGetWord_keyboard_data_ctrl hr hu hs.cfg, State.busGetWord_keyboard_ctrl_data hr hu hs.cfg,
    fun w => State.busSetWord_keyboard_registers hr hu hs.cfg⟩
  · exact State.busGet_keyboard_same hr hu (Keyboard.get_data_nil ho hq)
  · exact State.busGet_of_ok hr (Device.get_keyboard hu (Keyboard.get_data_cons ho hq))
  · exact State.busGet_keyboard_same hr hu (Keyboard.get_ctrl hne ho)
  · exact State.busSet_of_ok hr (Device.set_keyboard hu (Keyboard.set_ctrl ho))
  · rw [State.busSet_of_ok hr (Device.set_keyboard hu (Keyboard.set_data hne ho)), State.putRouted_self hr hu]

/-! ## The host's key appends -/

/-- Settles O59: the append at its device, and the CPU's read after it. -/
theorem keysAppendAtTheEnd : Obligations.KeysAppendAtTheEnd := by
  intro s n key d k hd hu
  refine ⟨⟨_, rfl, rfl, ?_, fun j hj => ?_⟩, ?_⟩
  · simp [hd, Device.enqueue, hu, Keyboard.enqueue]
  · simp [Ne.symm hj]
  · rintro rest addr u harr rfl
    have hturn : s.hostTurn = ({ s with arrivals := rest } : State).kbdEnqueue ⟨n, key⟩ := by
      simp [State.hostTurn, harr]
    rw [← hturn]
    exact ⟨fun v t hg => State.access_of_ok hg, fun kind hg => State.access_of_error hg⟩

end Sys2Proof.Machine
end
section
/-! PROOFS. The terminal behind the bus (20_memory.md R55 to R59): what a read answers, what a control write clears, and
what a data write prints (R57). -/

namespace Sys2Proof.Machine

variable {c : Config} {s : State} {addr : Word} {d : Device} {off : Nat} {v : Byte} {w : Word} {t t₁ : Terminal}

/-! ## Reads and writes -/

theorem Terminal.get_register (ho : off = c.termDataOff ∨ off = c.termCtrlOff) : t.get c off = .ok (0x00#8, t) := by
  simp [Terminal.get, ho]

/-- A read answers 0x00 and leaves the terminal as it is (R58, D21). -/
theorem Terminal.get_ok (hg : t.get c off = .ok (v, t₁)) : v = 0x00#8 ∧ t₁ = t := by
  unfold Terminal.get at hg
  split at hg <;> cases hg
  exact ⟨rfl, rfl⟩

/-- A control write clears, whatever the byte (R56). -/
theorem Terminal.set_ctrl (ho : off = c.termCtrlOff) : t.set c off v = .ok (t.clear c) := by
  simp [Terminal.set, ho]

theorem Terminal.set_data (hne : c.termDataOff ≠ c.termCtrlOff) (ho : off = c.termDataOff) :
    t.set c off v = .ok (if t.configured then t.print c v else t) := by
  simp [Terminal.set, ho, hne]

@[simp] theorem Terminal.newLine_configured : (t.newLine c).configured = t.configured := by
  unfold Terminal.newLine
  split <;> rfl

@[simp] theorem Terminal.print_configured : (t.print c v).configured = t.configured := by
  unfold Terminal.print Terminal.putCell
  split
  · simp
  · dsimp only
    split <;> simp

/-- No write leaves configured mode (R56, R57). -/
theorem Terminal.set_configured (ht : t.configured = true) (hg : t.set c off v = .ok t₁) : t₁.configured = true := by
  unfold Terminal.set at hg
  split at hg
  · cases hg
    rfl
  · split at hg <;> cases hg
    simp [ht]

/-- Every cell of a cleared terminal is blank (R56). -/
theorem Terminal.cell_clear {r k : Nat} (hr : r < c.termRows) (hk : k < c.termCols) :
    (t.clear c).cell r k = some c.termBlank := by
  simp [Terminal.cell, Terminal.clear, blankGrid, blankRow, hr, hk]

theorem Device.get_terminal (hu : d.unit = .terminal t) (hg : t.get c off = .ok (v, t₁)) :
    d.get c off = .ok (v, { d with unit := .terminal t₁ }) := by
  simp [Device.get, hu, hg, Except.map]

theorem Device.set_terminal (hu : d.unit = .terminal t) (hg : t.set c off v = .ok t₁) :
    d.set c off v = .ok { d with unit := .terminal t₁ } := by
  simp [Device.set, hu, hg, Except.map]

section

variable {t₂ : Terminal} (hr : s.route addr = some d) (hu : d.unit = .terminal t)
include hr hu

theorem State.busGet_terminal (ho : d.offset addr = s.cfg.termDataOff ∨ d.offset addr = s.cfg.termCtrlOff) :
    s.busGet addr = .ok (0x00#8, s) := by
  rw [State.busGet_of_ok hr (Device.get_terminal hu (Terminal.get_register ho)), State.putRouted_self hr hu]

/-- A word read of the two registers reads 0x00 twice (R59, D19). -/
theorem State.busGetWord_terminal (hin : d.offset addr + 1 < s.cfg.periphSize)
    (ho : InOrder (d.offset addr) s.cfg.termDataOff s.cfg.termCtrlOff ∨
      InOrder (d.offset addr) s.cfg.termCtrlOff s.cfg.termDataOff) :
    s.busGetWord addr = .ok (0x0000#16, s) := by
  unfold InOrder at ho
  rw [State.busGetWord_of_pair hr (.terminal hu) hin
      (Device.get_terminal hu (Terminal.get_register (by tauto)))
      (Device.get_terminal rfl (Terminal.get_register (by tauto))), State.putRouted_self hr hu]
  rfl

theorem State.busSetWord_terminal (hin : d.offset addr + 1 < s.cfg.periphSize)
    (h1 : t.set s.cfg (d.offset addr) (lo w) = .ok t₁) (h2 : t₁.set s.cfg (d.offset addr + 1) (hi w) = .ok t₂) :
    s.busSetWord addr w = .ok (s.putRouted addr { d with unit := .terminal t₂ }) :=
  State.busSetWord_of_pair hr (.terminal hu) hin (Device.set_terminal hu h1) (Device.set_terminal rfl h2)

end

/-- Settles O57: the terminal a control write leaves is the cleared one, the same from any terminal. -/
theorem terminalReadsAndClears : Obligations.TerminalReadsAndClears := by
  refine fun c t => ⟨t.clear c, ⟨rfl, rfl, rfl, fun _ _ => Terminal.cell_clear⟩,
    fun v => ⟨Terminal.set_ctrl rfl, Terminal.set_ctrl rfl⟩, fun ht _ _ _ => Terminal.set_configured ht,
    fun _ _ _ => Terminal.get_ok, ?_⟩
  rintro s addr d rfl hr hu
  have hreg := Device.HasRegisters.terminal (c := s.cfg) hu
  refine ⟨State.busGet_terminal hr hu, fun v ho => ?_, State.bus_no_register hr hreg,
    State.busWord_out_of_range hr hreg, fun hin => ⟨State.busGetWord_terminal hr hu hin, fun w ho => ?_, fun w ho => ?_⟩⟩
  · exact State.busSet_of_ok hr (Device.set_terminal hu (Terminal.set_ctrl ho))
  · obtain ⟨hlow, hhigh⟩ := ho
    exact State.busSetWord_terminal hr hu hin (Terminal.set_data (by omega) hlow) (Terminal.set_ctrl hhigh)
  · obtain ⟨hlow, hhigh⟩ := ho
    have hne : s.cfg.termDataOff ≠ s.cfg.termCtrlOff := by omega
    exact ⟨_, Terminal.set_data hne rfl,
      State.busSetWord_terminal hr hu hin (Terminal.set_ctrl hlow) (Terminal.set_data hne hhigh)⟩

/-! ## Printing a character -/

/-- The terminal with the character stored at the cursor, which has not moved; a carriage return stores nothing
(R57). -/
def Terminal.stored (t : Terminal) (v : Byte) : Terminal :=
  if v &&& 0x7F#8 = 0x0D#8 then t else t.putCell (v &&& 0x7F#8)

@[simp] theorem Terminal.stored_row : (t.stored v).row = t.row := by
  unfold Terminal.stored
  split <;> rfl

@[simp] theorem Terminal.stored_grid_length : (t.stored v).grid.length = t.grid.length := by
  unfold Terminal.stored
  split
  · rfl
  · simp [Terminal.putCell]

/-- Before the column limit a character is stored and the cursor advances (R57). -/
theorem Terminal.print_of_inside (hv : v &&& 0x7F#8 ≠ 0x0D#8) (hcol : t.col + 1 < c.termCols) :
    t.print c v = { t.stored v with col := t.col + 1 } := by
  have hne : t.col + 1 ≠ c.termCols := by omega
  simp [Terminal.print, Terminal.stored, Terminal.putCell, hv, hne]

/-- At the column limit, and for a carriage return, the cursor goes to a new line (R57). -/
theorem Terminal.print_of_newLine (hcol : t.col < c.termCols)
    (hv : ¬ (v &&& 0x7F#8 ≠ 0x0D#8 ∧ t.col + 1 < c.termCols)) : t.print c v = (t.stored v).newLine c := by
  by_cases hcr : v &&& 0x7F#8 = 0x0D#8
  · simp [Terminal.print, Terminal.stored, hcr]
  · have hlim : ¬ t.col + 1 < c.termCols := fun h => hv ⟨hcr, h⟩
    have hlast : t.col + 1 = c.termCols := by omega
    simp [Terminal.print, Terminal.stored, Terminal.putCell, Terminal.newLine, hcr, hlast]

/-- The one cell that storing a character changes. -/
theorem Terminal.cell_stored (ht : (DeviceUnit.terminal t).wf c) (r k : Nat) :
    (t.stored v).cell r k = if v &&& 0x7F#8 ≠ 0x0D#8 ∧ r = t.row ∧ k = t.col then some (v &&& 0x7F#8)
      else t.cell r k := by
  obtain ⟨hrows, hcols, hrow, hcol⟩ := ht
  unfold Terminal.stored
  split
  · next hcr => simp [hcr]
  · next hv =>
    by_cases hr : r = t.row
    · subst hr
      have hlt : t.row < t.grid.length := by omega
      have hlen := hcols _ (List.getElem_mem hlt)
      by_cases hk : k = t.col
      · simp [Terminal.cell, Terminal.putCell, hv, hlt, hk, hlen, hcol]
      · simp [Terminal.cell, Terminal.putCell, hlt, hk, Ne.symm hk]
    · simp [Terminal.cell, Terminal.putCell, hr, Ne.symm hr]

section

variable (hlast : t.row + 1 = c.termRows)
include hlast

/-- On the last row the grid scrolls up by one (R57). -/
theorem Terminal.newLine_last :
    t.newLine c = { t with grid := t.grid.drop 1 ++ [blankRow c], col := 0 } := by
  simp [Terminal.newLine, ← hlast]

variable (hrows : t.grid.length = c.termRows)
include hrows

/-- The rows below the top one move up. -/
theorem Terminal.cell_newLine_scrolled {r : Nat} (hr : r + 1 < c.termRows) (k : Nat) :
    (t.newLine c).cell r k = t.cell (r + 1) k := by
  rw [Terminal.newLine_last hlast]
  simp [Terminal.cell, List.getElem?_append, hrows, show r < c.termRows - 1 by omega, hr]

/-- A blank row enters below. -/
theorem Terminal.cell_newLine_bottom {k : Nat} (hk : k < c.termCols) :
    (t.newLine c).cell (c.termRows - 1) k = some c.termBlank := by
  rw [Terminal.newLine_last hlast]
  simp [Terminal.cell, hrows, blankRow, hk]

end

/-- Above the last row a new line leaves the grid (R57). -/
theorem Terminal.newLine_above (h : t.row + 1 < c.termRows) :
    t.newLine c = { t with row := t.row + 1, col := 0 } := by
  simp [Terminal.newLine, Nat.ne_of_lt h]

/-- Settles O58: the character is stored, then the cursor advances or goes to a new line. -/
theorem terminalPrints : Obligations.TerminalPrints := by
  intro c t v ht hne
  refine ⟨_, Terminal.set_data hne rfl, ?_, fun hc => by simp [hc], fun hc => ?_⟩
  · rintro s addr d rfl hr hu ho
    exact State.busSet_of_ok hr (Device.set_terminal hu (Terminal.set_data hne ho))
  rw [if_pos hc]
  refine ⟨by simp [hc], (t.stored v).cell, Terminal.cell_stored ht, ?_⟩
  obtain ⟨hrows, -, hrow, hcol⟩ := ht
  split
  · next hin =>
    rw [Terminal.print_of_inside hin.1 hin.2]
    exact ⟨Terminal.stored_row, rfl, fun _ _ => rfl⟩
  · next hnl =>
    rw [Terminal.print_of_newLine hcol hnl]
    split
    · next habove =>
      rw [Terminal.newLine_above (by simpa using habove)]
      exact ⟨by simp, rfl, fun _ _ => rfl⟩
    · have hlast : (t.stored v).row + 1 = c.termRows := by
        rw [Terminal.stored_row]
        omega
      have hgrid : (t.stored v).grid.length = c.termRows := by simpa using hrows
      refine ⟨?_, ?_, fun r k hr => Terminal.cell_newLine_scrolled hlast hgrid hr k,
        fun k hk => Terminal.cell_newLine_bottom hlast hgrid hk⟩
      · simp [Terminal.newLine_last hlast]
      · simp [Terminal.newLine_last hlast]

end Sys2Proof.Machine
end

section
/-! PROOFS. Decoding and encoding (30_encoding.md R80 to R91). The decoder reads the layout of the opcode value: what it
answers is said once over the layout (`decode_eq_ok_iff`), and the encoder gives back what the layout reads
(`encode_build_layoutOf`). -/

namespace Sys2Proof

/-! ## The bytes a layout reads -/

/-- The operand bytes from which a layout builds its instruction (R81), little-endian (R60). -/
def Layout.operandBytes (l : Layout) (w : Word) : List Byte :=
  match l with
  | .bare _ => []
  | .padded _ => []
  | .byte _ => [lo w]
  | .word _ => [lo w, hi w]

/-- How many bytes a layout skips unread: `BRK`'s padding (R163). -/
def Layout.padding : Layout → Nat
  | .padded _ => 1
  | _ => 0

/-- Everything the decoder can answer, and when (R80 to R82). -/
theorem decode_eq_ok_iff {halt : Byte} {bytes rest : List Byte} {i : Instr} :
    decode halt bytes = .ok (i, rest) ↔
      ∃ op w tail, bytes = op :: ((layoutOf halt op).operandBytes w ++ tail) ∧
        i = (layoutOf halt op).build w ∧ rest = tail.drop (layoutOf halt op).padding := by
  constructor
  · intro h
    cases bytes with
    | nil => cases h
    | cons op after =>
      refine ⟨op, ?_⟩
      cases hl : layoutOf halt op with
      | bare j =>
        simp only [decode, hl] at h
        cases h
        exact ⟨0, rest, rfl, rfl, rfl⟩
      | padded j =>
        simp only [decode, hl] at h
        cases h
        exact ⟨0, after, rfl, rfl, rfl⟩
      | byte k =>
        rcases after with _ | ⟨nn, tail⟩ <;> simp only [decode, hl] at h <;> cases h
        exact ⟨joinWord 0 nn, rest, by simp [Layout.operandBytes, Layout.build, Layout.padding]⟩
      | word k =>
        rcases after with _ | ⟨ll, _ | ⟨hh, tail⟩⟩ <;> simp only [decode, hl] at h <;> cases h
        exact ⟨joinWord hh ll, rest, by simp [Layout.operandBytes, Layout.build, Layout.padding]⟩
  · rintro ⟨op, w, tail, rfl, rfl, rfl⟩
    cases hl : layoutOf halt op <;> simp [decode, hl, Layout.operandBytes, Layout.build, Layout.padding]

/-! ## What the layout of an opcode value can be -/

/-- R84's table and R87's list hold every opcode value. -/
theorem unassigned_of_findRow (op : Byte) (h : findRow op opcodeTable = none) :
    unassignedOpcodes.contains op = true := by
  have every : ∀ op : Byte, (findRow op opcodeTable).isNone → unassignedOpcodes.contains op = true := by decide +kernel
  exact every op (by simp [h])

/-- What holds of `HLT`, of the rows of R84 and of the unassigned values holds of every layout the decoder finds. -/
theorem layoutOf_cases {halt op : Byte} {P : Layout → Prop} (hhlt : op = halt → P (.bare .hlt))
    (hrow : ∀ l, (op, l) ∈ opcodeTable → P l)
    (hun : op ≠ halt → unassignedOpcodes.contains op = true → P (.bare (.unassigned op))) : P (layoutOf halt op) := by
  unfold layoutOf
  split
  · next ho => exact hhlt ho
  · next hne =>
    split
    · next l hl => exact hrow l (mem_of_findRow hl)
    · next hnone => exact hun hne (unassigned_of_findRow op hnone)

/-- A row of R84 reads what the encoder writes, 0x00 for the padding (log 15): both sides of the table's equation
compute. -/
theorem encode_build_of_row {op : Byte} {l : Layout} (h : (op, l) ∈ opcodeTable) (halt : Byte) (w : Word) :
    encode halt (l.build w) = op :: (l.operandBytes w ++ List.replicate l.padding 0x00) := by
  have rows : opcodeTable.map (fun row => encode halt (row.2.build w)) =
      opcodeTable.map (fun row => row.1 :: (row.2.operandBytes w ++ List.replicate row.2.padding 0x00)) := rfl
  exact List.map_eq_map_iff.mp rows _ h

/-- A row of R84 builds well-formed instructions. -/
theorem wf_build_of_row {op : Byte} {l : Layout} (h : (op, l) ∈ opcodeTable) (halt : Byte) (w : Word) :
    (l.build w).wf halt = true := by
  have rows : opcodeTable.all (fun row => (row.2.build w).wf halt) = true := rfl
  exact List.all_eq_true.mp rows _ h

/-- Among the rows of R84, `BRK`'s alone has padding (R81). -/
theorem padding_of_row {op : Byte} {l : Layout} (h : (op, l) ∈ opcodeTable) (w : Word) :
    l.padding = 0 ∨ l.build w = .brk := by
  have rows : opcodeTable.all (fun row => row.2.padding == 0 || row.2.build w == .brk) = true := rfl
  simpa using List.all_eq_true.mp rows _ h

/-- The layout found for an opcode value reads what the encoder writes (R80, R81, R84). -/
theorem encode_build_layoutOf (halt op : Byte) (w : Word) :
    encode halt ((layoutOf halt op).build w) =
      op :: ((layoutOf halt op).operandBytes w ++ List.replicate (layoutOf halt op).padding 0x00) := by
  refine layoutOf_cases ?_ (fun l hl => encode_build_of_row hl halt w) (fun _ _ => rfl)
  rintro rfl
  rfl

/-- The layout found for an opcode value builds well-formed instructions (R86, R87). -/
theorem wf_build_layoutOf (halt op : Byte) (w : Word) : ((layoutOf halt op).build w).wf halt = true := by
  refine layoutOf_cases (fun _ => ?_) (fun l hl => wf_build_of_row hl halt w) fun hne ho => ?_
  · rfl
  · simpa [Layout.build, Instr.wf, hne] using ho

/-- Only `BRK` has padding (R81, R82). -/
theorem padding_layoutOf (halt op : Byte) (w : Word) :
    (layoutOf halt op).padding = 0 ∨ (layoutOf halt op).build w = .brk :=
  layoutOf_cases (fun _ => .inl rfl) (fun _ hl => padding_of_row hl w) (fun _ _ => .inl rfl)

end Sys2Proof

namespace Sys2Proof.Laws.Coding

/-! ## The layout of an instruction's own opcode value -/

/-- The family `Coding` over all 153 constructors: each case is the constructor's own lemma. -/
theorem statement (i : Instr) : Statement i :=
  Instr.casesOn (motive := Statement) i
    adcImm adcZp adcZpx adcAbs adcAbx adcAby adcIzx adcIzy sbcImm sbcZp sbcZpx sbcAbs sbcAbx sbcAby sbcIzx sbcIzy
    cmpImm cmpZp cmpZpx cmpAbs cmpAbx cmpAby cmpIzx cmpIzy cpxImm cpxZp cpxAbs cpyImm cpyZp cpyAbs andImm andZp
    andZpx andAbs andAbx andAby andIzx andIzy oraImm oraZp oraZpx oraAbs oraAbx oraAby oraIzx oraIzy eorImm eorZp
    eorZpx eorAbs eorAbx eorAby eorIzx eorIzy aslAcc aslZp aslZpx aslAbs aslAbx lsrAcc lsrZp lsrZpx lsrAbs lsrAbx
    rolAcc rolZp rolZpx rolAbs rolAbx rorAcc rorZp rorZpx rorAbs rorAbx incZp incZpx incAbs incAbx decZp decZpx
    decAbs decAbx inx dex iny dey bitZp bitAbs bpl bmi bvc bvs bcc bcs bne beq jmpAbs jmpInd jsr rts rti brk hlt pha
    pla php plp txs tsx ldaImm ldaZp ldaZpx ldaAbs ldaAbx ldaAby ldaIzx ldaIzy ldxImm ldxZp ldxZpy ldxAbs ldxAby
    ldyImm ldyZp ldyZpx ldyAbs ldyAbx staZp staZpx staAbs staAbx staAby staIzx staIzy stxZp stxZpy stxAbs styZp
    styZpx styAbs tax tay txa tya clc sec cli sei clv cld sed nop unassigned

/-- A layout that makes `i` from `i`'s own operand bytes makes it from an operand word. -/
theorem Builds.exists_build {l : Layout} {i : Instr} (h : Builds l i) : ∃ w, i = l.build w := by
  cases l with
  | bare j => exact ⟨0, h.1.symm⟩
  | padded j => exact ⟨0, h.1.symm⟩
  | byte k =>
    obtain ⟨nn, hk, -⟩ := h
    exact ⟨joinWord 0 nn, by simp [Layout.build, hk]⟩
  | word k =>
    obtain ⟨w, hk, -⟩ := h
    exact ⟨w, hk.symm⟩

end Sys2Proof.Laws.Coding

namespace Sys2Proof

/-! ## The statements -/

/-- Settles O3: the instruction is built by the layout of its opcode value, so the decoder reads what the encoder
wrote and skips the padding it wrote. -/
theorem decodeOfEncode : Obligations.DecodeOfEncode := by
  intro halt hhalt i hwf rest
  obtain ⟨w, hi⟩ := (Laws.Coding.statement i halt hhalt hwf).exists_build
  have hbytes := encode_build_layoutOf halt (i.opcode halt) w
  rw [← hi] at hbytes
  rw [hbytes, decode_eq_ok_iff]
  exact ⟨i.opcode halt, w, List.replicate (layoutOf halt (i.opcode halt)).padding 0x00 ++ rest, by simp, hi, by simp⟩

/-- Settles O4: what decodes was read by the layout of its opcode value, and without padding the encoder writes back
all that was read. -/
theorem encodeOfDecode : Obligations.EncodeOfDecode := by
  intro halt bytes rest i h hbrk
  obtain ⟨op, w, tail, rfl, rfl, rfl⟩ := decode_eq_ok_iff.mp h
  have hpad : (layoutOf halt op).padding = 0 := (padding_layoutOf halt op w).resolve_right hbrk
  exact ⟨wf_build_layoutOf halt op w, by simp [encode_build_layoutOf, hpad]⟩

/-- Settles O5: two bytes hold the operand of every layout. -/
theorem everyOpcodeDecodes : Obligations.EveryOpcodeDecodes := by
  intro halt op b1 b2
  have enough : ∀ l : Layout, ∃ tail, [b1, b2] = l.operandBytes (joinWord b2 b1) ++ tail := by
    intro l
    cases l <;> simp [Layout.operandBytes]
  obtain ⟨tail, htail⟩ := enough (layoutOf halt op)
  exact ⟨_, _, decode_eq_ok_iff.mpr ⟨op, _, tail, by rw [htail], rfl, rfl⟩, opcode_build_layoutOf halt op _⟩

/-- Settles O1: each list is what the encoder writes for its instruction. -/
theorem sourceBytesDecode : Obligations.SourceBytesDecode := fun halt hhalt =>
  have decodes := decodeOfEncode halt hhalt
  ⟨decodes (.ldaImm 0x05) rfl [], decodes (.staZp 0x10) rfl [], decodes .brk rfl [], decodes .nop rfl []⟩

/-- Settles O2: each list is what the encoder writes for its instruction, the byte after the unassigned opcode aside. -/
theorem familyWordsDecode : Obligations.FamilyWordsDecode :=
  have decodes := decodeOfEncode 0xDB rfl
  ⟨decodes (.adcAbx 0x1234) rfl [], decodes .rorAcc rfl [], decodes (.beq 0xFE) rfl [],
    decodes (.jmpInd 0x10FF) rfl [], decodes (.jsr 0x030B) rfl [], decodes .hlt rfl [], decodes .plp rfl [],
    decodes (.stxZpy 0x10) rfl [], decodes (.ldaIzy 0x30) rfl [], decodes .clv rfl [],
    decodes (.unassigned 0x02) rfl [0x00]⟩

end Sys2Proof
end
section
/-! PROOFS. Addressing and operands (40_step_and_addressing.md R103, R106 to R117): the effective address of each mode as
a number, the operand read there, the target of a branch, and where an instruction leaves `PC` (R105). -/

namespace Sys2Proof.Machine

variable {i : Instr} {s t : State}

/-! ## Addresses as numbers (00_scope.md R6, R140) -/

theorem zext16_toNat (b : Byte) : (zext16 b).toNat = b.toNat := by
  simp only [zext16]
  bv_omega

/-- A zero-page sum wraps in 8 bits (R108, R109, R114). -/
theorem zext16_add_toNat (b x : Byte) : (zext16 (b + x)).toNat = (b.toNat + x.toNat) % 256 := by
  rw [zext16_toNat, BitVec.toNat_add]

/-- An absolute sum wraps in 16 bits (R111, R112, R115). -/
theorem add_zext16_toNat (w : Word) (x : Byte) : (w + zext16 x).toNat = (w.toNat + x.toNat) % 65536 := by
  rw [BitVec.toNat_add, zext16_toNat]

/-- A branch target as a number: the offset is signed, and the sum wraps (R117, D14). -/
theorem State.branchTarget_toNat (s : State) (rr : Byte) :
    ((s.branchTarget rr).toNat : Int) = (s.pc.toNat + rr.toInt) % 65536 := by
  have hsext : (sext16 rr).toInt = rr.toInt := BitVec.toInt_signExtend_of_le (by decide)
  have hmod : ((sext16 rr).toNat : Int) % 65536 = rr.toInt % 65536 := by
    rw [← hsext, BitVec.toInt_eq_toNat_bmod]
    exact Int.bmod_emod.symm
  rw [State.branchTarget, BitVec.toNat_add]
  omega

/-! ## Resolving an address -/

/-- Settles O17: each mode's sum, as a number. -/
theorem directModesResolve : Obligations.DirectModesResolve := by
  intro s m n h
  rcases h with ⟨nn, rfl, hn⟩ | ⟨nn, rfl, hn⟩ | ⟨nn, rfl, hn⟩ | ⟨nn, rfl, hn⟩ | ⟨w, rfl, hn⟩ | ⟨w, rfl, hn⟩ |
    ⟨w, rfl, hn⟩
  · exact ⟨s.pc - 1#16, by rw [hn]; bv_omega, rfl⟩
  · exact ⟨_, (zext16_toNat nn).trans hn.symm, rfl⟩
  · exact ⟨_, (zext16_add_toNat nn s.x).trans hn.symm, rfl⟩
  · exact ⟨_, (zext16_add_toNat nn s.y).trans hn.symm, rfl⟩
  · exact ⟨w, hn.symm, rfl⟩
  · exact ⟨_, (add_zext16_toNat w s.x).trans hn.symm, rfl⟩
  · exact ⟨_, (add_zext16_toNat w s.y).trans hn.symm, rfl⟩

/-- Settles O18: the pointer's address is the one the number names, and the word is read there with no side effect. -/
theorem pointerModesResolve : Obligations.PointerModesResolve := by
  intro s m ptr base n hp h
  have hread := State.memReadWord_of_peek hp
  rcases h with ⟨rfl, rfl⟩ | ⟨nn, rfl, hptr, rfl⟩ | ⟨nn, rfl, hptr, rfl⟩
  · exact ⟨base, rfl, by simp [resolve, hread, Except.map, State.resolved]⟩
  · obtain rfl : zext16 (nn + s.x) = ptr := BitVec.eq_of_toNat_eq ((zext16_add_toNat nn s.x).trans hptr.symm)
    exact ⟨base, rfl, by simp [resolve, hread, Except.map, State.resolved]⟩
  · obtain rfl : zext16 nn = ptr := BitVec.eq_of_toNat_eq ((zext16_toNat nn).trans hptr.symm)
    exact ⟨_, add_zext16_toNat base s.y, by simp [resolve, hread, Except.map, State.resolved]⟩

/-! ## Reading an operand -/

/-- An operand that is not immediate is read at its effective address (R103). -/
theorem readOperand_eq_bind {m : Mode} (hm : ∀ nn, m ≠ .immediate nn) (s : State) :
    readOperand m s = (resolve m s).bind fun (ea, t) => t.memRead ea := by
  cases m with
  | immediate nn => exact absurd rfl (hm nn)
  | _ => rfl

/-- Settles O19: the immediate's byte is in the instruction, and any other is read where the address resolved. -/
theorem operandIsByteAtAddress : Obligations.OperandIsByteAtAddress := by
  refine fun s m ea t h => ⟨?_, fun v hm hv => ?_⟩
  · rintro nn rfl
    cases h
    rfl
  · rw [readOperand_eq_bind hm, h]
    exact State.memRead_of_peek hv

/-! ## The branches -/

/-- The instructions with a relative operand are the eight branches (R117, R150). -/
theorem branchCondition_of_relative {rr : Byte} (ho : i.operand = .relative rr) :
    ∃ f b, branchCondition i.mnemonic = some (f, b) := by
  cases i <;> cases ho <;> exact ⟨_, _, rfl⟩

/-- Settles O31: what a branch can do, with its target as a number. -/
theorem branchesFollowFlags : Obligations.BranchesFollowFlags := by
  intro i rr s ho
  obtain ⟨f, b, hc⟩ := branchCondition_of_relative ho
  refine ⟨f, b, _, hc, exec_of_done (.branch ho hc), ?_⟩
  by_cases hf : s.flag f = b
  · rw [if_pos hf]
    exact ⟨rfl, fun _ => s.branchTarget_toNat rr, fun hne => absurd hf hne⟩
  · rw [if_neg hf]
    exact ⟨rfl, fun heq => absurd heq hf, fun _ => rfl⟩

/-! ## Where an instruction leaves `PC` -/

theorem operandBody_pc {n : Mnemonic} {f : Byte → State → State} (hf : operandBody n = some f) (v : Byte) (s : State) :
    (f v s).pc = s.pc := by
  cases n <;> cases hf <;> simp

theorem State.setModified_pc (s : State) (out : Option Bool) (r : Byte) : (s.setModified out r).pc = s.pc := by
  cases out <;> simp [State.setModified]

theorem registerBody_pc {f : State → State} (hf : registerBody i = some f) (hi : i ≠ .brk) (s : State) :
    (f s).pc = s.pc := by
  cases i
  case brk => exact absurd rfl hi
  all_goals cases hf <;> simp

/-- The branches are among the instructions that set `PC` (R11). -/
theorem setsPC_of_branchCondition {p : Flag × Bool} (hc : branchCondition i.mnemonic = some p) : setsPC i = true := by
  cases hm : i.mnemonic <;> rw [hm] at hc <;> cases hc <;> simp [setsPC, hm]

/-- An instruction that sets no target leaves `PC` past its bytes; only `BRK` moves it (R105, R163). -/
theorem Done.pc (h : Done i s t) (hset : setsPC i = false) (hi : i ≠ .brk) : t.pc = s.pc := by
  have hnot : setsPC i ≠ true := by simp [hset]
  cases h with
  | operand _ hf hr => exact (operandBody_pc hf _ _).trans (readOperand_quiet hr).keeps.pc
  | modify _ _ h1 h2 h3 =>
    have hread := (State.memRead_quiet h2).keeps.pc.trans (resolve_quiet h1).2.keeps.pc
    exact (State.setModified_pc _ _ _).trans ((State.memWrite_keeps h3).pc.trans hread)
  | store _ _ h1 h2 => exact (State.memWrite_keeps h2).pc.trans (resolve_quiet h1).2.keeps.pc
  | register hf => exact registerBody_pc hf hi s
  | branch _ hc => exact absurd (setsPC_of_branchCondition hc) hnot
  | jump hm => exact absurd (by simp [setsPC, hm]) hnot
  | call hw => exact absurd (by rw [hw]; rfl) hnot
  | ret hr | retInterrupt hr => exact absurd (by rw [hr]; rfl) hnot
  | pushA _ h1 | pushStatus _ h1 => exact (State.push8_keeps h1).pc
  | pullA _ h1 => exact (State.loadA_pc _ _).trans (State.pull8_quiet h1).keeps.pc
  | pullStatus _ h1 => exact (State.pull8_quiet h1).keeps.pc

/-- Settles O15: `BRK` skips its padding, and every other such instruction leaves `PC` where the fetch put it. -/
theorem sequentialAdvance : Obligations.SequentialAdvance := by
  intro i s t h hset
  by_cases hi : i = .brk
  · subst hi
    cases h
    rfl
  · simpa [hi] using (exec_done h).pc hset hi

end Sys2Proof.Machine
end
section
/-! PROOFS. The fetch of an instruction that memory holds (40_step_and_addressing.md R100 to R103), and the bus errors that
end a step (R104; 60_exceptions.md R210 to R214): where a device holds no byte for the fetch, and in the body of an
instruction by its shape. -/

namespace Sys2Proof.Machine

open Sys2Proof.Laws.Coding

variable {i : Instr} {s t : State} {addr : Word} {d d₁ : Device} {m : MemoryDevice} {e : Fault}

/-! ## The fetch of what memory holds -/

/-- A fetch of a byte that memory holds takes the host's turn and moves `PC` past the byte (R62). -/
theorem State.fetch8_of_peek {v : Byte} (h : s.peek s.pc = some v) :
    s.fetch8 = .ok (v, { s.hostTurn with pc := s.pc + 1#16 }) := by
  simp [State.fetch8, State.memRead_of_peek h, Except.map]

theorem State.fetch16_of_peekWord {w : Word} (h : s.peekWord s.pc = some w) :
    s.fetch16 = .ok (w, { s.hostTurn with pc := s.pc + 2#16 }) := by
  simp [State.fetch16, State.memReadWord_of_peek h, Except.map]

/-- The state once the opcode at `PC` is fetched from memory. -/
def State.pastOpcode (s : State) : State := { s.hostTurn with pc := s.pc + 1#16 }

theorem State.hostTurn_pastOpcode (s : State) :
    s.pastOpcode.hostTurn = { s.hostTurn.hostTurn with pc := s.pc + 1#16 } :=
  State.hostTurn_withPC _ _

/-- Memory holds after the opcode's fetch what it held before it. -/
theorem State.peek_pastOpcode (s : State) (addr : Word) : s.pastOpcode.peek addr = s.peek addr :=
  (State.hostTurn_quiet s).peek addr

theorem State.peekWord_pastOpcode (s : State) (addr : Word) : s.pastOpcode.peekWord addr = s.peekWord addr :=
  (State.hostTurn_quiet s).peekWord addr

/-- With the opcode in memory, what is left of the fetch is the operand, by the opcode's layout (R101, R102). -/
theorem fetch_of_opcode {op : Byte} (h : s.peek s.pc = some op) :
    fetch s = fetchOperand (layoutOf s.cfg.haltOpcode op) s.pastOpcode :=
  fetch_of_fetch8 (State.fetch8_of_peek h)

/-- A layout that builds `i` fetches `i` where memory holds its operand (R103). -/
theorem fetchOperand_of_holdsCode {l : Layout} (hb : Builds l i) (h : s.HoldsCode i) :
    fetchOperand l s.pastOpcode = .ok (i, { State.hostTurns (fetchReads i) s with
      pc := s.pc + BitVec.ofNat 16 (fetchedBytes s.cfg.haltOpcode i).length }) := by
  obtain ⟨-, harg⟩ := h
  cases l with
  | bare j =>
    obtain ⟨rfl, hbytes⟩ := hb
    simp [fetchOperand, fetchReads, fetchedBytes, hbytes, State.hostTurns, State.pastOpcode]
  | padded j =>
    obtain ⟨rfl, rfl⟩ := hb
    rfl
  | byte k =>
    obtain ⟨nn, rfl, hbytes⟩ := hb
    rw [hbytes] at harg
    have hf := State.fetch8_of_peek ((s.peek_pastOpcode (s.pc + 1#16)).trans harg)
    simp only [fetchOperand, hf, Except.map, State.hostTurn_pastOpcode]
    simp [fetchReads, fetchedBytes, hbytes, State.hostTurns, State.pastOpcode, BitVec.add_assoc]
  | word k =>
    obtain ⟨w, rfl, hbytes⟩ := hb
    rw [hbytes] at harg
    have hf := State.fetch16_of_peekWord ((s.peekWord_pastOpcode (s.pc + 1#16)).trans harg)
    simp only [fetchOperand, hf, Except.map, State.hostTurn_pastOpcode]
    simp [fetchReads, fetchedBytes, hbytes, State.hostTurns, State.pastOpcode, BitVec.add_assoc]

/-- Settles O7: the opcode's layout builds the instruction from the operand that memory holds. -/
theorem stepRunsDecodedInstruction : Obligations.StepRunsDecodedInstruction := by
  intro s i hhalt hwf h
  have hf := (fetch_of_opcode (s := s.beginStep) h.1).trans
    (fetchOperand_of_holdsCode (s := s.beginStep) (statement i _ hhalt hwf) h)
  simp [step, hf]

/-! ## Where a device holds no byte -/

/-- Bus activity that stores nothing routes every address to a device of the same shape. -/
theorem State.Quiet.route_shape (h : s.Quiet t) (addr : Word) :
    (t.route addr).map Device.shape = (s.route addr).map Device.shape := by
  have hfind := find_of_shapes (c := s.cfg) (b := addr) (fun d => some d.shape) (fun _ _ hd => congrArg some hd) h.shapes
  simpa only [State.route, h.keeps.cfg, Option.map_eq_bind, Function.comp_def] using hfind

theorem State.Quiet.route_none (h : s.Quiet t) (hr : s.route addr = none) : t.route addr = none := by
  simpa [hr] using h.route_shape addr

theorem State.Quiet.route_record (h : s.Quiet t) (hr : s.route addr = some d) :
    ∃ d₁, t.route addr = some d₁ ∧ d₁.record = d.record := by
  have hs := h.route_shape addr
  rw [hr] at hs
  obtain ⟨d₁, h₁, hd⟩ := Option.map_eq_some_iff.mp hs
  exact ⟨d₁, h₁, Device.record_of_shape hd⟩

/-- A memory device keeps its kind and its size with its record (R32). -/
theorem Device.memory_of_record (hu : d.unit = .memory m) (hrec : d₁.record = d.record) :
    ∃ m₁, d₁.unit = .memory m₁ ∧ m₁.size = m.size := by
  have hkind : d₁.unit.kind = d.unit.kind := congrArg (·.2.2) hrec
  cases hu₁ : d₁.unit with
  | memory m₁ =>
    rw [hu₁, hu] at hkind
    exact ⟨m₁, rfl, (DeviceKind.memory.inj hkind).1⟩
  | _ =>
    rw [hu₁, hu] at hkind
    cases hkind

/-- The device has no byte at the offset: past a memory device's buffer, or at neither register of a peripheral (R45, R51,
R58). -/
inductive Device.NoByte (c : Config) (d : Device) (off : Nat) : Prop where
  | memory {m : MemoryDevice} (hu : d.unit = .memory m) (h : m.size ≤ off) : Device.NoByte c d off
  | peripheral {a b : Nat} (hd : d.HasRegisters c a b) (ha : off ≠ a) (hb : off ≠ b) : Device.NoByte c d off

/-- A read there is out of range, after any change that keeps the record. -/
theorem Device.NoByte.get {c : Config} {off : Nat} (h : d.NoByte c off) (hrec : d₁.record = d.record) :
    d₁.get c off = .error .outOfRange := by
  cases h with
  | memory hu h =>
    obtain ⟨m₁, hu₁, hm⟩ := Device.memory_of_record hu hrec
    simp [Device.get, hu₁, MemoryDevice.get_outside (hm ▸ h), Except.map]
  | peripheral hd ha hb => exact Device.get_no_register (hd.of_record hrec) ha hb

theorem State.busGet_of_unrouted (h : s.route addr = none) : s.busGet addr = .error .deviceNotFound := by
  simp [State.busGet, h]

/-- Where a device has no byte, the read stays out of range after bus activity that stores nothing. -/
theorem State.Quiet.busGet_no_byte (h : s.Quiet t) (hr : s.route addr = some d)
    (hd : d.NoByte s.cfg (d.offset addr)) : t.busGet addr = .error .outOfRange := by
  obtain ⟨d₁, hr₁, hrec⟩ := h.route_record hr
  refine State.busGet_of_error hr₁ ?_
  rw [h.keeps.cfg, Device.offset, Device.base_of_record hrec]
  exact hd.get hrec

/-- So does a word's read past the end of a memory device (R47). -/
theorem State.Quiet.busGetWord_past_end (h : s.Quiet t) (hr : s.route addr = some d) (hu : d.unit = .memory m)
    (hm : m.size ≤ d.offset addr + 1) : t.busGetWord addr = .error .outOfRange := by
  obtain ⟨d₁, hr₁, hrec⟩ := h.route_record hr
  obtain ⟨m₁, hu₁, hsize⟩ := Device.memory_of_record hu hrec
  refine State.busGetWord_past_end hr₁ hu₁ ?_
  rw [hsize, Device.offset, Device.base_of_record hrec]
  exact hm

/-! ## An error of one access: its kind, and the devices the access found (R104, R211) -/

theorem State.memRead_of_error {kind : BusError} (h : s.hostTurn.busGet addr = .error kind) :
    s.memRead addr = .error (.busError kind s.hostTurn.aftermath) := State.access_of_error h

theorem State.memReadWord_of_error {kind : BusError} (h : s.hostTurn.busGetWord addr = .error kind) :
    s.memReadWord addr = .error (.busError kind s.hostTurn.aftermath) :=
  State.access_of_error (op := fun t => t.busGetWord addr) h

theorem State.memWrite_of_error {kind : BusError} {v : Byte} (h : s.hostTurn.busSet addr v = .error kind) :
    s.memWrite addr v = .error (.busError kind s.hostTurn.aftermath) :=
  State.access_of_error (op := fun t => t.busSet addr v) h

/-! ## An error of the fetch -/

theorem State.memRead_error_of_cpu (h : s.SameBus t) (he : s.memRead addr = .error e) : t.memRead addr = .error e := by
  rw [State.memRead_of_cpu h, he]
  rfl

theorem State.memReadWord_error_of_cpu (h : s.SameBus t) (he : s.memReadWord addr = .error e) :
    t.memReadWord addr = .error e := by
  rw [State.memReadWord_of_cpu h, he]
  rfl

theorem State.fetch8_of_error (h : s.memRead s.pc = .error e) : s.fetch8 = .error e := by
  simp [State.fetch8, h, Except.map]

theorem State.fetch16_of_error (h : s.memReadWord s.pc = .error e) : s.fetch16 = .error e := by
  simp [State.fetch16, h, Except.map]

theorem step_of_fetch_error (h : fetch s.beginStep = .error e) : step s = .fault e := by
  simp [step, h]

/-- An error of the opcode's read ends the step (R104). -/
theorem step_of_opcode_error (h : s.memRead s.pc = .error e) : step s = .fault e := by
  have hb : s.beginStep.memRead s.beginStep.pc = .error e := State.memRead_error_of_cpu rfl h
  exact step_of_fetch_error (by simp [fetch, State.fetch8_of_error hb, Except.bind])

section

variable (hhalt : unassignedOpcodes.contains s.cfg.haltOpcode = true) (hwf : i.wf s.cfg.haltOpcode = true)
  (hop : s.peek s.pc = some (i.opcode s.cfg.haltOpcode))
include hhalt hwf hop

/-- Once the opcode is fetched, an error of the operand's fetch ends the step, whichever layout builds the instruction. -/
theorem step_of_operand_error
    (h : ∀ l, Builds l i → fetchOperand l s.beginStep.pastOpcode = .error e) : step s = .fault e :=
  step_of_fetch_error ((fetch_of_opcode (s := s.beginStep) hop).trans (h _ (statement i _ hhalt hwf)))

/-- An error of the operand byte's read ends the step (R103, R104). -/
theorem step_of_byte_error (hlen : i.operand.bytes.length = 1)
    (he : s.hostTurn.memRead (s.pc + 1#16) = .error e) : step s = .fault e := by
  have hb : s.beginStep.pastOpcode.memRead s.beginStep.pastOpcode.pc = .error e :=
    State.memRead_error_of_cpu (by rw [State.pastOpcode, State.hostTurn_beginStep]; rfl) he
  refine step_of_operand_error hhalt hwf hop fun l hl => ?_
  cases l with
  | byte k => simp [fetchOperand, State.fetch8_of_error hb, Except.map]
  | bare j => simp [hl.2] at hlen
  | padded j => rw [hl.2] at hlen; cases hlen
  | word k =>
    obtain ⟨w, -, hbytes⟩ := hl
    simp [hbytes] at hlen

/-- An error of the operand word's read ends the step (R103, R104). -/
theorem step_of_word_error (hlen : i.operand.bytes.length = 2)
    (he : s.hostTurn.memReadWord (s.pc + 1#16) = .error e) : step s = .fault e := by
  have hb : s.beginStep.pastOpcode.memReadWord s.beginStep.pastOpcode.pc = .error e :=
    State.memReadWord_error_of_cpu (by rw [State.pastOpcode, State.hostTurn_beginStep]; rfl) he
  refine step_of_operand_error hhalt hwf hop fun l hl => ?_
  cases l with
  | word k => simp [fetchOperand, State.fetch16_of_error hb, Except.map]
  | bare j => simp [hl.2] at hlen
  | padded j => rw [hl.2] at hlen; cases hlen
  | byte k =>
    obtain ⟨nn, -, hbytes⟩ := hl
    simp [hbytes] at hlen

end

/-! ## An error in the body of an instruction -/

theorem readOperand_of_resolve_error {m : Mode} (h : resolve m s = .error e) : readOperand m s = .error e := by
  rw [readOperand_eq_bind (by rintro nn rfl; cases h), h]
  rfl

/-- An address that does not resolve ends the instruction, by its shape (R104). -/
theorem exec_of_resolve_error {m : Mode} (ho : i.operand = .mode m) (h : resolve m s = .error e) :
    exec i s = .fault e := by
  rcases instr_shape i with ⟨m', f, ho', hf⟩ | ⟨m', op, ho', hop⟩ | ⟨m', r, ho', hr⟩ | ⟨m', ho', hm⟩ | ⟨f, hf⟩ |
    ⟨rr, f, b, ho', -⟩ | ⟨w, rfl⟩ | hi
  · rw [exec_eq_withOperand ho hf]
    exact withOperand_of_error f (readOperand_of_resolve_error h)
  · simp [exec_eq_readModifyWrite ho hop, readModifyWrite, h]
  · simp [exec_eq_store ho hr, store, h]
  · simp [exec_jmp hm ho, jmp, h]
  · exact absurd ho (operand_ne_mode_of_registerBody hf m)
  · rw [ho] at ho'
    cases ho'
  · cases ho
    cases h
  · simp only [List.mem_cons, List.not_mem_nil, or_false] at hi
    rcases hi with rfl | rfl | rfl | rfl | rfl | rfl <;> cases ho

/-- The mnemonics that read their operand alone. -/
theorem operandBody_of_mem {n : Mnemonic}
    (h : n ∈ [.ADC, .SBC, .CMP, .CPX, .CPY, .AND, .ORA, .EOR, .BIT, .LDA, .LDX, .LDY]) :
    ∃ f, operandBody n = some f := by
  cases n <;> simp [operandBody] at h ⊢

/-- The mnemonics that read, modify and write memory. -/
theorem modifiedByte_of_mem {n : Mnemonic} (h : n ∈ [.INC, .DEC, .ASL, .LSR, .ROL, .ROR]) :
    ∃ op, modifiedByte n = some op := by
  cases n <;> simp [modifiedByte] at h ⊢

/-- The mnemonics that store a register. -/
theorem storedRegister_of_mem {n : Mnemonic} (h : n ∈ [.STA, .STX, .STY]) : ∃ r, storedRegister n = some r := by
  cases n <;> simp [storedRegister] at h ⊢

/-- A pull that fails ends each instruction that begins with one (R12, R104). -/
theorem exec_of_pull8_error (h : s.pull8 = .error e) : ∀ i ∈ [Instr.pla, .plp, .rts, .rti], exec i s = .fault e := by
  simp [exec, execPla, execPlp, execRts, execRti, h]

/-- A push that fails ends `PHA` and `PHP`. -/
theorem exec_of_push8_error (h : ∀ v, s.push8 v = .error e) : ∀ i ∈ [Instr.pha, .php], exec i s = .fault e := by
  simp [exec, execPha, execPhp, h]

/-- `JSR` resolves its own operand word, so it runs as its pushes do (R160). -/
theorem exec_jsr (w : Word) (s : State) :
    exec (.jsr w) s =
      proceed (({ s with lea := w } : State).push8 (hi (s.pc - 1#16))) fun t =>
        proceed (t.push8 (lo (s.pc - 1#16))) fun t => .next { t with pc := w } := rfl

/-! ## The statement -/

/-- Settles O20: each access fails with its kind and the devices it found, and each place where one stands in the fetch
or in a body hands its error on. -/
theorem busErrorEndsStep : Obligations.BusErrorEndsStep := by
  intro s e
  have hquiet := State.hostTurn_quiet s
  have hquiet₂ := hquiet.trans (State.hostTurn_quiet s.hostTurn)
  have hopcode : ∀ kind, s.hostTurn.busGet s.pc = .error kind → step s = .fault (.busError kind s.hostTurn.aftermath) :=
    fun kind h => step_of_opcode_error (State.memRead_of_error h)
  refine ⟨fun kind => ⟨fun _ => State.memRead_of_error, fun _ => State.memReadWord_of_error,
      fun _ _ => State.memWrite_of_error⟩,
    rfl, hopcode, fun hr => hopcode _ (State.busGet_of_unrouted (hquiet.route_none hr)), fun d hr hd => ?_,
    fun i hhalt hwf hop => ⟨fun hlen => ?_, fun hlen => ?_⟩, fun i m => exec_of_resolve_error,
    fun i m ho hn h => ?_, fun i m ea t ho ht => ⟨fun hn h => ?_, fun hn v u hv h => ?_, fun hn h => ?_⟩,
    exec_of_pull8_error, exec_of_push8_error, fun w h => ?_, fun l t hl h => ?_,
    fun b t hb => ⟨fun h => ?_, fun l u hl h => ?_⟩, fun w t ht h => ?_⟩
  -- the opcode fetch where a device has no byte
  · refine hopcode _ (hquiet.busGet_no_byte hr ?_)
    rcases hd with ⟨m, hu, hm⟩ | ⟨k, hu, ha, hb⟩ | ⟨t, hu, ha, hb⟩
    · exact .memory hu hm
    · exact .peripheral (.keyboard hu) ha hb
    · exact .peripheral (.terminal hu) ha hb
  -- the fetch of an operand byte, then of an operand word
  · have hbyte : ∀ kind, s.hostTurn.hostTurn.busGet (s.pc + 1#16) = .error kind →
        step s = .fault (.busError kind s.hostTurn.hostTurn.aftermath) :=
      fun kind h => step_of_byte_error hhalt hwf hop hlen (State.memRead_of_error h)
    exact ⟨hbyte, fun hr => hbyte _ (State.busGet_of_unrouted (hquiet₂.route_none hr)),
      fun d m hr hu hm => hbyte _ (hquiet₂.busGet_no_byte hr (.memory hu hm))⟩
  · have hword : ∀ kind, s.hostTurn.hostTurn.busGetWord (s.pc + 1#16) = .error kind →
        step s = .fault (.busError kind s.hostTurn.hostTurn.aftermath) :=
      fun kind h => step_of_word_error hhalt hwf hop hlen (State.memReadWord_of_error h)
    exact ⟨hword, fun hr => hword _ (State.busGetWord_of_unrouted (hquiet₂.route_none hr)),
      fun d m hr hu hm => hword _ (hquiet₂.busGetWord_past_end hr hu hm)⟩
  -- the operand's read; the read and the write of a read-modify-write; the write of a store
  · obtain ⟨f, hf⟩ := operandBody_of_mem hn
    rw [exec_eq_withOperand ho hf]
    exact withOperand_of_error f h
  · obtain ⟨op, hop⟩ := modifiedByte_of_mem hn
    simp [exec_eq_readModifyWrite ho hop, readModifyWrite, ht, h]
  · obtain ⟨op, hop⟩ := modifiedByte_of_mem hn
    simp [exec_eq_readModifyWrite ho hop, readModifyWrite, ht, hv, h]
  · obtain ⟨r, hr⟩ := storedRegister_of_mem hn
    simp [exec_eq_store ho hr, store, ht, h]
  -- the stack: the first push of `JSR`, the later pulls of `RTS` and `RTI`, the second push of `JSR`
  · simp [exec_jsr, h]
  · simp [exec, execRts, hl, h]
  · simp [exec, execRti, hb, h]
  · simp [exec, execRti, hb, hl, h]
  · simp [exec_jsr, ht, h]

end Sys2Proof.Machine
end
section
/-! PROOFS. The ALU instructions (41_alu.md R120 to R141): the opcode values of a mnemonic, the flags each shared
computation leaves, and the results as numbers; then each statement from the shape of its instructions. -/

namespace Sys2Proof

/-! ## The opcode values of a mnemonic (R84) -/

/-- The opcode values of a mnemonic's rows of R84; a row's mnemonic does not depend on its operand. -/
def opcodesOf (n : Mnemonic) : List Byte :=
  (opcodeTable.filter fun row => (row.2.build 0).mnemonic = n).map Prod.fst

/-- An instruction other than `HLT` and the unassigned opcodes is built by the row of R84 of its opcode value. -/
theorem exists_row {i : Instr} (hhlt : i.mnemonic ≠ .HLT) (hun : i.mnemonic ≠ .unassigned) (halt : Byte) :
    ∃ l w, (i.opcode halt, l) ∈ opcodeTable ∧ i = l.build w := by
  have hassigned : i.wf 0xDB = true ∧ i.opcode halt = i.opcode 0xDB := by
    cases i
    case hlt => exact absurd rfl hhlt
    case unassigned => exact absurd rfl hun
    all_goals exact ⟨rfl, rfl⟩
  obtain ⟨hwf, hop⟩ := hassigned
  obtain ⟨w, hi⟩ := (Laws.Coding.statement i 0xDB rfl hwf).exists_build
  rw [hop]
  revert hi
  exact layoutOf_cases (P := fun l => i = l.build w → _) (fun _ hi => absurd (congrArg Instr.mnemonic hi) hhlt)
    (fun l hrow hi => ⟨l, w, hrow, hi⟩) (fun _ _ hi => absurd (congrArg Instr.mnemonic hi) hun)

/-- The opcode value of an instruction is among its mnemonic's. -/
theorem opcode_mem {i : Instr} {n : Mnemonic} {opcodes : List Byte} (hm : i.mnemonic = n)
    (hops : opcodesOf n = opcodes) (halt : Byte) (hhlt : n ≠ .HLT := by decide) (hun : n ≠ .unassigned := by decide) :
    i.opcode halt ∈ opcodes := by
  subst hm hops
  obtain ⟨l, w, hrow, hi⟩ := exists_row hhlt hun halt
  have rows : opcodeTable.map (fun row => (row.2.build w).mnemonic) =
      opcodeTable.map (fun row => (row.2.build 0).mnemonic) := rfl
  have hmnemonic : (l.build w).mnemonic = (l.build 0).mnemonic := List.map_eq_map_iff.mp rows _ hrow
  exact List.mem_map.mpr ⟨_, List.mem_filter.mpr ⟨hrow, by simp [hmnemonic, hi]⟩, rfl⟩

end Sys2Proof

namespace Sys2Proof.Machine

variable {i : Instr} {m : Mode} {s t u : State} {e : Fault}

/-! ## The body of an instruction, by its shape -/

theorem exec_of_operand_error {f : Byte → State → State} (ho : i.operand = .mode m)
    (hf : operandBody i.mnemonic = some f) (h : readOperand m s = .error e) : exec i s = .fault e := by
  rw [exec_eq_withOperand ho hf]
  exact withOperand_of_error f h

section
variable {op : Bool → Byte → Byte} {ea : Word} {t1 t2 t3 : State} {v : Byte}

/-- The read of a read-modify-write that fails ends it (R141, R104). -/
theorem exec_of_modify_read_error (ho : i.operand = .mode m) (hop : modifiedByte i.mnemonic = some op)
    (h1 : resolve m s = .ok (ea, t1)) (h2 : t1.memRead ea = .error e) : exec i s = .fault e := by
  simp [exec_eq_readModifyWrite ho hop, readModifyWrite, h1, h2]

/-- The write of a read-modify-write that fails ends it (R141, R104). -/
theorem exec_of_modify_write_error (ho : i.operand = .mode m) (hop : modifiedByte i.mnemonic = some op)
    (h1 : resolve m s = .ok (ea, t1)) (h2 : t1.memRead ea = .ok (v, t2))
    (h3 : t2.memWrite ea (op (s.flag .C) v) = .error e) : exec i s = .fault e := by
  simp [exec_eq_readModifyWrite ho hop, readModifyWrite, h1, h2, h3]

/-- The bus activity of a read-modify-write leaves `P` to its flag computation. -/
theorem modify_keeps_p {r : Byte} (h1 : resolve m s = .ok (ea, t1)) (h2 : t1.memRead ea = .ok (v, t2))
    (h3 : t2.memWrite ea r = .ok t3) : t3.p = s.p :=
  calc
    t3.p = t2.p := (State.memWrite_keeps h3).p
    _ = t1.p := (State.memRead_quiet h2).keeps.p
    _ = s.p := (resolve_quiet h1).2.keeps.p

end

/-! ## The flags (R120, R121, R129 to R132) -/

/-- `SetZN` on a state with the flags of `s`, whatever else is written after it. -/
theorem setsZN_of_p {v : Byte} (ht : t.p = s.p) (hu : u.p = (t.setZN v).p) : SetsZN s u v := by
  refine ⟨?_, ?_, fun f hf => ?_⟩ <;> rw [State.flag_congr hu, State.flag_setZN]
  · rfl
  · rfl
  · simp only [List.mem_cons, List.not_mem_nil, or_false, not_or] at hf
    rw [if_neg hf.2, if_neg hf.1, State.flag_congr ht]

/-- `u` has `C`, `Z` and `N` from a shift that put out `out` and left `r`, and every other flag of `s` (R129 to R132). -/
def SetsShift (s u : State) (out : Bool) (r : Byte) : Prop :=
  u.flag .C = out ∧ u.flag .Z = (r == 0#8) ∧ u.flag .N = bitOf r 7 ∧
    ∀ f, f ∉ [Flag.C, .Z, .N] → u.flag f = s.flag f

theorem setsShift_of_p {out : Bool} {r : Byte} (ht : t.p = s.p) (hu : u.p = (t.setShift out r).p) :
    SetsShift s u out r := by
  refine ⟨?_, ?_, ?_, fun f hf => ?_⟩ <;> rw [State.flag_congr hu, State.flag_setShift]
  · rfl
  · rfl
  · rfl
  · simp only [List.mem_cons, List.not_mem_nil, or_false, not_or] at hf
    obtain ⟨hC, hZ, hN⟩ := hf
    rw [if_neg hN, if_neg hZ, if_neg hC, State.flag_congr ht]

/-- `u` has the sum of `A`, `v` and the carry of `s` in `A`, and its four flags (R121). -/
structure AddsWithCarry (s u : State) (v : Byte) : Prop where
  a : u.a.toNat = (s.a.toNat + v.toNat + (s.flag .C).toNat) % 256
  carry : u.flag .C = decide (0x100 ≤ s.a.toNat + v.toNat + (s.flag .C).toNat)
  overflow : u.flag .V = (bitOf s.a 7 == bitOf v 7 && bitOf u.a 7 != bitOf s.a 7)
  zero : u.flag .Z = (u.a == 0#8)
  negative : u.flag .N = bitOf u.a 7
  kept : ∀ f, f ∉ [Flag.C, .Z, .V, .N] → u.flag f = s.flag f

theorem addWithCarry_adds (ha : t.a = s.a) (hp : t.p = s.p) (v : Byte) : AddsWithCarry s (t.addWithCarry v) v := by
  have hC : t.flag .C = s.flag .C := State.flag_congr hp .C
  constructor
  case a => simp [adcResult, adcSum, ha, hC]
  case kept =>
    intro f hf
    simp only [List.mem_cons, List.not_mem_nil, or_false, not_or] at hf
    obtain ⟨hfC, hfZ, hfV, hfN⟩ := hf
    rw [State.flag_addWithCarry, if_neg hfN, if_neg hfZ, if_neg hfC, if_neg hfV, State.flag_congr hp]
  all_goals simp [State.flag_addWithCarry, adcCarry, adcOverflow, adcSum, ha, hC]

/-! ## `ADC` and `SBC` -/

/-- What `ADC` and `SBC` add: the operand, or its one's complement (R121, R122). -/
theorem exec_addWithCarry {g : Byte → Byte} {v : Byte} (ho : i.operand = .mode m)
    (hf : operandBody i.mnemonic = some fun v t => t.addWithCarry (g v)) (hr : readOperand m s = .ok (v, t)) :
    exec i s = .next (t.addWithCarry (g v)) ∧ AddsWithCarry s (t.addWithCarry (g v)) (g v) := by
  have hkeep := (readOperand_quiet hr).keeps
  exact ⟨exec_of_done (.operand ho hf hr), addWithCarry_adds (s := s) hkeep.a hkeep.p _⟩

/-- Settles O21: `AddWithCarry` of the operand. -/
theorem adcAddsWithCarry : Obligations.AdcAddsWithCarry := by
  intro i m s hm ho
  have hf : operandBody i.mnemonic = some fun v t => t.addWithCarry v := by rw [hm]; rfl
  refine ⟨fun halt => opcode_mem hm rfl halt, fun e => exec_of_operand_error ho hf, fun v t hr => ?_⟩
  obtain ⟨he, hu⟩ := exec_addWithCarry (g := id) ho hf hr
  exact ⟨_, he, rfl, hu.a, hu.carry, hu.overflow, hu.zero, hu.negative, hu.kept⟩

theorem operandBody_of_sbc (hm : i.mnemonic = .SBC) :
    operandBody i.mnemonic = some fun v t => t.addWithCarry (~~~v) := by rw [hm]; rfl

/-- The one's complement as a number (R122). -/
theorem complement_toNat (v : Byte) : (~~~v).toNat = 255 - v.toNat := BitVec.toNat_not

/-- The complement has the other sign (R122). -/
theorem beq_bitOf_complement (b : Bool) (v : Byte) : (b == bitOf (~~~v) 7) = (b != bitOf v 7) := by
  cases b <;> simp [bitOf]

/-- Settles O22: `AddWithCarry` of the operand's complement. -/
theorem sbcAddsComplement : Obligations.SbcAddsComplement := by
  intro i m s hm ho
  have hf := operandBody_of_sbc hm
  refine ⟨fun halt => opcode_mem hm rfl halt, fun e => exec_of_operand_error ho hf, fun v t hr => ?_⟩
  obtain ⟨he, hu⟩ := exec_addWithCarry ho hf hr
  have ha := hu.a
  have hcarry := hu.carry
  rw [complement_toNat] at ha hcarry
  exact ⟨_, he, rfl, ha, hcarry, by rw [hu.overflow, beq_bitOf_complement], hu.zero, hu.negative, hu.kept⟩

/-- The sign bit as a comparison. -/
theorem bitOf_sign (v : Byte) : bitOf v 7 = decide (128 ≤ v.toNat) :=
  (BitVec.msb_eq_getLsbD_last v).symm.trans (BitVec.msb_eq_decide v)

/-- A byte read as a signed number (R6). -/
theorem toInt_eq_of_sign (v : Byte) : v.toInt = if bitOf v 7 then (v.toNat : Int) - 256 else v.toNat :=
  BitVec.toInt_eq_msb_cond v

/-- Settles O23: the complement is 255 less the operand, so the sum is the difference plus 256. -/
theorem sbcSubtractsWithBorrow : Obligations.SbcSubtractsWithBorrow := by
  intro i m s t u v hm ho hr h
  obtain ⟨he, hu⟩ := exec_addWithCarry ho (operandBody_of_sbc hm) hr
  obtain rfl : t.addWithCarry (~~~v) = u := by simpa [he] using h
  have hv := v.isLt
  have hs := s.a.isLt
  have hc := (s.flag .C).toNat_le
  have ha := hu.a
  rw [complement_toNat] at ha
  refine ⟨by omega, ?_, ?_⟩
  · rw [hu.carry, complement_toNat, decide_eq_decide]
    omega
  · rw [hu.overflow, toInt_eq_of_sign, toInt_eq_of_sign]
    simp only [bitOf_sign, complement_toNat]
    generalize (t.addWithCarry (~~~v)).a.toNat = r at ha ⊢
    rw [Bool.eq_iff_iff]
    simp only [Bool.and_eq_true, beq_iff_eq, bne_iff_ne, ne_eq, decide_eq_decide, decide_eq_true_eq]
    split <;> split <;> omega

end Sys2Proof.Machine
end
section
/-! PROOFS. The comparisons, the logical operations and `BIT` (41_alu.md R123 to R128, R139), `INC` and `DEC` (R133 to
R138), and the shifts and rotates (R129 to R132). -/

namespace Sys2Proof.Machine

variable {i : Instr}

/-! ## The comparisons, the logical operations and `BIT` -/

/-- Settles O24: `Compare` of the mnemonic's register, which the operand's read keeps. -/
theorem compareSetsFlags : Obligations.CompareSetsFlags := by
  intro i m s r opcodes ho h
  obtain ⟨reg, hf, rfl, hkeep, hops⟩ : ∃ reg : State → Byte,
      operandBody i.mnemonic = some (fun v t => t.compare (reg t) v) ∧ r = reg s ∧
        (∀ v t, readOperand m s = .ok (v, t) → reg t = reg s) ∧ ∀ halt, i.opcode halt ∈ opcodes := by
    rcases h with ⟨hm, rfl, rfl⟩ | ⟨hm, rfl, rfl⟩ | ⟨hm, rfl, rfl⟩
    · exact ⟨State.a, by rw [hm]; rfl, rfl, fun _ _ hr => (readOperand_quiet hr).keeps.a, fun h => opcode_mem hm rfl h⟩
    · exact ⟨State.x, by rw [hm]; rfl, rfl, fun _ _ hr => (readOperand_quiet hr).keeps.x, fun h => opcode_mem hm rfl h⟩
    · exact ⟨State.y, by rw [hm]; rfl, rfl, fun _ _ hr => (readOperand_quiet hr).keeps.y, fun h => opcode_mem hm rfl h⟩
  refine ⟨hops, fun e => exec_of_operand_error ho hf, fun v t hr => ?_⟩
  have he := exec_of_done (.operand ho hf hr)
  rw [hkeep v t hr] at he
  refine ⟨_, he, rfl, ?_, ?_, ?_, fun f hfl => ?_⟩ <;> rw [State.flag_compare]
  · rfl
  · rfl
  · rfl
  · simp only [List.mem_cons, List.not_mem_nil, or_false, not_or] at hfl
    obtain ⟨hC, hZ, hN⟩ := hfl
    rw [if_neg hC, if_neg hZ, if_neg hN, readOperand_flag hr]

/-- Settles O25: each operation on bytes is the operation on bits at every bit. -/
theorem logicCombinesBitwise : Obligations.LogicCombinesBitwise := by
  intro i m s f opcodes ho h
  obtain ⟨op, hf, hbits, hops⟩ : ∃ op : Byte → Byte → Byte,
      operandBody i.mnemonic = some (fun v t => t.loadA (op t.a v)) ∧
        (∀ a v k, bitOf (op a v) k = f (bitOf a k) (bitOf v k)) ∧ ∀ halt, i.opcode halt ∈ opcodes := by
    rcases h with ⟨hm, rfl, rfl⟩ | ⟨hm, rfl, rfl⟩ | ⟨hm, rfl, rfl⟩
    · exact ⟨(· &&& ·), by rw [hm]; rfl, fun _ _ _ => BitVec.getLsbD_and, fun h => opcode_mem hm rfl h⟩
    · exact ⟨(· ||| ·), by rw [hm]; rfl, fun _ _ _ => BitVec.getLsbD_or, fun h => opcode_mem hm rfl h⟩
    · exact ⟨(· ^^^ ·), by rw [hm]; rfl, fun _ _ _ => BitVec.getLsbD_xor, fun h => opcode_mem hm rfl h⟩
  refine ⟨hops, fun e => exec_of_operand_error ho hf, fun v t hr => ?_⟩
  have hkeep := (readOperand_quiet hr).keeps
  have he := exec_of_done (.operand ho hf hr)
  rw [show t.a = s.a from hkeep.a] at he
  exact ⟨_, he, rfl, fun k _ => hbits _ _ k, setsZN_of_p (s := s) hkeep.p rfl⟩

/-- Settles O30: `BIT`'s flags, from an `A` that the operand's read keeps. -/
theorem bitTestsOperand : Obligations.BitTestsOperand := by
  intro i m s hm ho
  have hf : operandBody i.mnemonic = some fun v t => t.bitTest v := by rw [hm]; rfl
  refine ⟨fun halt => opcode_mem hm rfl halt, fun e => exec_of_operand_error ho hf, fun v t hr => ?_⟩
  have ha : t.a = s.a := (readOperand_quiet hr).keeps.a
  refine ⟨_, exec_of_done (.operand ho hf hr), rfl, ?_, ?_, ?_, fun f hfl => ?_⟩ <;> rw [State.flag_bitTest]
  · rw [ha]
    rfl
  · rfl
  · rfl
  · simp only [List.mem_cons, List.not_mem_nil, or_false, not_or] at hfl
    obtain ⟨hZ, hV, hN⟩ := hfl
    rw [if_neg hV, if_neg hN, if_neg hZ, readOperand_flag hr]

/-! ## `INC` and `DEC` -/

/-- An increment as a number (R140). -/
theorem add_one_toNat (v : Byte) : (v + 1#8).toNat = (v.toNat + 1) % 256 := BitVec.toNat_add v 1#8

/-- A decrement as a number: minus 1 is plus 255 (R140). -/
theorem sub_one_toNat (v : Byte) : (v - 1#8).toNat = (v.toNat + 255) % 256 := by bv_omega

/-- Settles O26: the byte written is the one the number names, and each access hands its error on. -/
theorem incDecMemory : Obligations.IncDecMemory := by
  intro i m s n opcodes ho h
  obtain ⟨op, hop, hcarry, hn, hops⟩ : ∃ op : Byte → Byte,
      modifiedByte i.mnemonic = some (fun _ v => op v) ∧ carryOut i.mnemonic = none ∧
        (∀ v, (op v).toNat = (v.toNat + n) % 256) ∧ ∀ halt, i.opcode halt ∈ opcodes := by
    rcases h with ⟨hm, rfl, rfl⟩ | ⟨hm, rfl, rfl⟩
    · exact ⟨(· + 1#8), by rw [hm]; rfl, by rw [hm]; rfl, add_one_toNat, fun h => opcode_mem hm rfl h⟩
    · exact ⟨(· - 1#8), by rw [hm]; rfl, by rw [hm]; rfl, sub_one_toNat, fun h => opcode_mem hm rfl h⟩
  refine ⟨hops, fun ea t1 h1 => ⟨fun e => exec_of_modify_read_error ho hop h1, fun v r t2 h2 hr => ?_⟩⟩
  obtain rfl : op v = r := BitVec.eq_of_toNat_eq ((hn v).trans hr.symm)
  refine ⟨fun e => exec_of_modify_write_error ho hop h1 h2, fun t3 h3 => ?_⟩
  have he := exec_of_done (.modify ho hop h1 h2 h3)
  rw [hcarry] at he
  exact ⟨_, he, rfl, setsZN_of_p (modify_keeps_p h1 h2 h3) rfl⟩

/-- Settles O27: each loads an index register with its own value plus or minus 1. -/
theorem incDecIndex : Obligations.IncDecIndex := fun s =>
  ⟨⟨_, rfl, rfl, add_one_toNat s.x, setsZN_of_p rfl rfl⟩, ⟨_, rfl, rfl, sub_one_toNat s.x, setsZN_of_p rfl rfl⟩,
    ⟨_, rfl, rfl, add_one_toNat s.y, setsZN_of_p rfl rfl⟩, ⟨_, rfl, rfl, sub_one_toNat s.y, setsZN_of_p rfl rfl⟩,
    fun _ => rfl⟩

/-! ## The shifts and rotates as numbers -/

theorem aslByte_toNat (v : Byte) : (aslByte v).toNat = 2 * v.toNat % 256 := by
  rw [aslByte, BitVec.toNat_shiftLeft, Nat.shiftLeft_eq, Nat.mul_comm]

theorem lsrByte_toNat (v : Byte) : (lsrByte v).toNat = v.toNat / 2 := by
  rw [lsrByte, BitVec.toNat_ushiftRight, Nat.shiftRight_eq_div_pow]

/-- The carry enters the bit that the shift to the left has cleared (R131). -/
theorem rolByte_toNat (c : Bool) (v : Byte) : (rolByte c v).toNat = (2 * v.toNat + c.toNat) % 256 := by
  have hclear : (v <<< 1) &&& 0x01#8 = 0#8 := by
    ext k hk
    cases k <;> simp
  have hasl := aslByte_toNat v
  rw [aslByte] at hasl
  cases c with
  | false => simpa [rolByte] using hasl
  | true =>
    rw [rolByte, if_pos rfl, ← BitVec.add_eq_or_of_and_eq_zero _ _ hclear, BitVec.toNat_add, hasl]
    simp

/-- The carry enters bit 7, above the shifted byte (R132). -/
theorem rorByte_toNat (c : Bool) (v : Byte) : (rorByte c v).toNat = v.toNat / 2 + 128 * c.toNat := by
  have hlsr := lsrByte_toNat v
  rw [lsrByte] at hlsr
  cases c with
  | false => simpa [rorByte] using hlsr
  | true =>
    have hbelow : v.toNat / 2 < 2 ^ 7 := by have := v.isLt; omega
    calc
      (rorByte true v).toNat = v.toNat / 2 ||| 2 ^ 7 * 1 := by rw [rorByte, if_pos rfl, BitVec.toNat_or, hlsr]; rfl
      _ = 2 ^ 7 * 1 + v.toNat / 2 := by rw [Nat.or_comm, Nat.two_pow_add_eq_or_of_lt hbelow]
      _ = v.toNat / 2 + 128 * true.toNat := Nat.add_comm _ _

/-- The bit shifted out to the right, as a remainder. -/
theorem bitOf_low (v : Byte) : bitOf v 0 = decide (v.toNat % 2 = 1) := by
  simp [bitOf, BitVec.getLsbD, Nat.testBit_eq_decide_div_mod_eq]

/-- The model's shifts and rotates are the spec's, as numbers (R129 to R132). -/
theorem shifted_of_modifiedByte {n : Mnemonic} {op : Bool → Byte → Byte} {out : Byte → Bool}
    (hop : modifiedByte n = some op) (hout : carryOut n = some out) (c : Bool) (v : Byte) :
    shifted n c v = some ((op c v).toNat, out v) := by
  cases n <;> cases hop <;> cases hout
  case ASL => simp only [shifted, aslByte_toNat, bitOf_sign]
  case LSR => simp only [shifted, lsrByte_toNat, bitOf_low]
  case ROL => simp only [shifted, rolByte_toNat, bitOf_sign]
  case ROR => simp only [shifted, rorByte_toNat, bitOf_low]

/-- The mnemonics that shift are the read-modify-writes with a carry out. -/
theorem modifiedByte_of_shifted {n : Mnemonic} {c : Bool} {v : Byte} {p : Nat × Bool} (h : shifted n c v = some p) :
    ∃ op out, modifiedByte n = some op ∧ carryOut n = some out := by
  cases n <;> cases h <;> exact ⟨_, _, rfl, rfl⟩

/-- The accumulator forms shift `A` as the memory forms shift a byte (R116). -/
theorem registerBody_of_accumulator (ho : i.operand = .accumulator) :
    ∃ op out, modifiedByte i.mnemonic = some op ∧ carryOut i.mnemonic = some out ∧
      registerBody i = some fun s => s.shiftA (out s.a) (op (s.flag .C) s.a) := by
  cases i <;> cases ho <;> exact ⟨_, _, rfl, rfl, rfl⟩

/-- Settles O28: the byte written is the one the number names, and the flags are from it and the bit shifted out. -/
theorem shiftMemory : Obligations.ShiftMemory := by
  intro i m s t1 t2 t3 ea v r out ho hshift h1 h2 h3
  obtain ⟨op, outOf, hop, hout⟩ := modifiedByte_of_shifted hshift
  have hnum := shifted_of_modifiedByte hop hout (s.flag .C) v
  simp only [hshift, Option.some.injEq, Prod.mk.injEq] at hnum
  obtain ⟨hr, rfl⟩ := hnum
  obtain rfl : r = op (s.flag .C) v := BitVec.eq_of_toNat_eq hr
  have he := exec_of_done (.modify ho hop h1 h2 h3)
  rw [hout] at he
  exact ⟨_, he, rfl, setsShift_of_p (modify_keeps_p h1 h2 h3) rfl⟩

/-- Settles O29: the same shift of `A`, by the CPU alone. -/
theorem shiftAccumulator : Obligations.ShiftAccumulator := by
  intro i s ho
  obtain ⟨op, out, hop, hout, hf⟩ := registerBody_of_accumulator ho
  exact ⟨_, _, _, exec_of_done (.register hf), shifted_of_modifiedByte hop hout _ _, rfl, rfl,
    setsShift_of_p rfl rfl⟩

end Sys2Proof.Machine
end
section
/-! PROOFS. Jumps, calls, returns, `BRK` and `HLT` (42_control_flow_stack.md R159 to R163, R170), and the stack (R164 to
R167, R171): what a push leaves in memory, and what the pulls of it give back. -/

namespace Sys2Proof.Machine

variable {s t u : State} {v b l h : Byte} {w : Word} {e : Fault}

/-! ## The stack slots -/

/-- Distinct values of `SP` name distinct slots (R12). -/
theorem stackAddr_ne {a b : Byte} (hab : a ≠ b) : stackAddr a ≠ stackAddr b := by
  intro heq
  have hnum := congrArg BitVec.toNat heq
  rw [stackAddr_toNat, stackAddr_toNat] at hnum
  exact hab (BitVec.eq_of_toNat_eq (by omega))

/-- A push to memory leaves its byte in the slot (R12). -/
theorem State.push8_peek_same (hpush : s.push8 v = .ok t) (hw : ∀ d ∈ s.devices, d.unit.wf s.cfg)
    (hp : s.peek (stackAddr s.sp) = some b) : t.peek (stackAddr s.sp) = some v := by
  obtain ⟨u, hu, rfl⟩ := State.push8_ok hpush
  exact State.memWrite_peek_same (t := u) hu hw hp

/-- A push leaves every other slot (R12). -/
theorem State.push8_peek_ne {a : Byte} (hpush : s.push8 v = .ok t) (hw : ∀ d ∈ s.devices, d.unit.wf s.cfg)
    (ha : a ≠ s.sp) : t.peek (stackAddr a) = s.peek (stackAddr a) :=
  (State.push8_storesTo hpush hw).peek _ (by simpa using stackAddr_ne ha)

/-- A push that fails leaves the devices as the host's turn before it did (R211 item 1). -/
theorem State.push8_error_left {kind : BusError} {left : Aftermath} (hpush : s.push8 v = .error (.busError kind left)) :
    left = s.hostTurn.aftermath := by
  obtain ⟨_, -, he⟩ := State.access_error (State.push8_error hpush)
  exact (Fault.busError.inj he).2

/-! ## The status byte -/

/-- A whole write of `P` loads every flag, and bit 5 reads 1 (R15, R16, D1). -/
theorem State.flag_setStatus_eq (s : State) (v : Byte) (f : Flag) :
    (s.setStatus v).flag f = if f = .R then true else bitOf v f.bit := by
  by_cases hf : f = .R
  · subst hf
    exact State.flag_R _
  · rw [if_neg hf, State.flag_setStatus s v f hf]

/-- The flags are the eight bits of `P` (R14). -/
theorem Flag.exists_bit : ∀ {k : Nat}, k < 8 → ∃ f : Flag, f.bit = k
  | 0, _ => ⟨.C, rfl⟩
  | 1, _ => ⟨.Z, rfl⟩
  | 2, _ => ⟨.I, rfl⟩
  | 3, _ => ⟨.D, rfl⟩
  | 4, _ => ⟨.B, rfl⟩
  | 5, _ => ⟨.R, rfl⟩
  | 6, _ => ⟨.V, rfl⟩
  | 7, _ => ⟨.N, rfl⟩

/-- `P` as read is the one byte that has every flag as it reads (R15). -/
theorem State.eq_status_of_flags (hb : ∀ f : Flag, bitOf b f.bit = s.flag f) : b = s.status := by
  refine BitVec.eq_of_getLsbD_eq fun k hk => ?_
  obtain ⟨f, rfl⟩ := Flag.exists_bit hk
  exact hb f

/-! ## Jumps, calls and returns -/

/-- Settles O32: what a jump can do. -/
theorem jmpSetsPC : Obligations.JmpSetsPC := fun _ _ _ _ _ hm ho hr => exec_of_done (.jump hm ho hr)

/-- What `JSR` can do when it completes (R160). -/
theorem exec_jsr_next (hexec : exec (.jsr w) s = .next t) :
    ∃ t₁ t₂, ({ s with lea := w } : State).push8 (hi (s.pc - 1#16)) = .ok t₁ ∧
      t₁.push8 (lo (s.pc - 1#16)) = .ok t₂ ∧ t = { t₂ with pc := w } := by
  rw [exec_jsr] at hexec
  obtain ⟨t₁, hfirst, hexec⟩ := proceed_next hexec
  obtain ⟨t₂, hsecond, hexec⟩ := proceed_next hexec
  cases hexec
  exact ⟨t₁, t₂, hfirst, hsecond, rfl⟩

/-- Once the first push of `JSR` has succeeded, an error of it is the second push's (R160, R104). -/
theorem push8_error_of_exec_jsr (hfirst : ({ s with lea := w } : State).push8 (hi (s.pc - 1#16)) = .ok t)
    (hexec : exec (.jsr w) s = .fault e) : t.push8 (lo (s.pc - 1#16)) = .error e := by
  rw [exec_jsr, hfirst, proceed_ok] at hexec
  rcases proceed_fault hexec with hsecond | ⟨_, -, hnext⟩
  · exact hsecond
  · cases hnext

/-- Settles O33: the two pushes one after the other, each with its error. -/
theorem jsrPushesAndJumps : Obligations.JsrPushesAndJumps := by
  refine fun s w => ⟨fun _ => rfl, rfl, fun e hfirst => ?_, fun t hfirst => ⟨fun e hsecond => ?_,
    fun b kind left hs hb hexec => ⟨?_, ?_⟩, fun u hsecond => ⟨exec_of_done (.call rfl hfirst hsecond), ?_, fun f => ?_⟩⟩⟩
  · rw [exec_jsr, hfirst, proceed_error]
  · rw [exec_jsr, hfirst, proceed_ok, hsecond, proceed_error]
  · exact State.push8_error_left (push8_error_of_exec_jsr hfirst hexec)
  · exact ((State.hostTurn_quiet t).peek _).trans (State.push8_peek_same (s := { s with lea := w }) hfirst hs.devices hb)
  · rw [(State.push8_keeps hsecond).sp, (State.push8_keeps hfirst).sp]
    simp only
    bv_omega
  · exact (State.push8_flag hsecond f).trans (State.push8_flag hfirst f)

/-- Settles O34: the two pulls one after the other, each with its error. -/
theorem rtsPullsPlusOne : Obligations.RtsPullsPlusOne := by
  refine fun s => ⟨fun _ => rfl, rfl, fun e hlow => exec_of_pull8_error hlow .rts (by simp), fun l t hlow =>
    ⟨fun e hhigh => ?_, fun h u hhigh => ⟨_, exec_of_done (.ret rfl hlow hhigh), rfl, ?_, ?_, fun f => ?_⟩⟩⟩
  · simp [exec, execRts, hlow, hhigh]
  · simp only [BitVec.toNat_add, joinWord_toNat]
    rfl
  · simp only
    rw [(State.pull8_quiet hhigh).keeps.sp, (State.pull8_quiet hlow).keeps.sp]
    bv_omega
  · exact (State.pull8_flag hhigh f).trans (State.pull8_flag hlow f)

/-- Settles O35: the three pulls, of which only the first writes `P`. -/
theorem rtiPullsStatusAndPC : Obligations.RtiPullsStatusAndPC := by
  intro s t u v b l h hstatus hlow hhigh
  refine ⟨_, exec_of_done (.retInterrupt rfl hstatus hlow hhigh), rfl, joinWord_toNat h l, fun f => ?_⟩
  calc
    v.flag f = u.flag f := State.pull8_flag hhigh f
    _ = (t.setStatus b).flag f := State.pull8_flag hlow f
    _ = if f = .R then true else bitOf b f.bit := State.flag_setStatus_eq t b f

/-! ## `BRK` and `HLT` -/

/-- Settles O36: memory holds the code of a `BRK` wherever it holds its opcode, for the padding is not read. -/
theorem brkAdvancesByTwo : Obligations.BrkAdvancesByTwo := by
  refine fun s => ⟨rfl, fun hhalt hop => ?_⟩
  rw [stepRunsDecodedInstruction s .brk hhalt rfl ⟨hop, trivial⟩]
  show Host.Outcome.next { s.beginStep.hostTurn with pc := s.pc + 1#16 + 1#16 } = _
  rw [State.hostTurn_beginStep, BitVec.add_assoc]
  rfl

/-- Settles O37: the fetch of `HALT_OPCODE` from memory takes the host's turn and moves `PC`. -/
theorem hltReportsHalt : Obligations.HltReportsHalt := by
  refine fun s => ⟨rfl, fun hop => ?_⟩
  rw [step_of_haltOpcode (State.fetch8_of_peek (s := s.beginStep) hop), State.hostTurn_beginStep]
  rfl

/-! ## Pushes and pulls of a register -/

/-- Settles O39: `PHP` pushes `P` as read. -/
theorem pushesCompleteWithNoFlag : Obligations.PushesCompleteWithNoFlag := fun _ _ =>
  ⟨fun hpush => exec_of_done (.pushA rfl hpush), fun _ hflags _ hpush =>
    exec_of_done (.pushStatus rfl (State.eq_status_of_flags hflags ▸ hpush))⟩

/-- Settles O40: what each pull loads. -/
theorem pullsLoadRegister : Obligations.PullsLoadRegister := fun s t b hpull =>
  ⟨⟨_, exec_of_done (.pullA rfl hpull), rfl, setsZN_of_p (s := s) (t := t) (State.pull8_quiet hpull).keeps.p rfl⟩,
    ⟨_, exec_of_done (.pullStatus rfl hpull), rfl, State.flag_setStatus_eq t b⟩⟩

/-! ## Pulls undo pushes -/

/-- `PLA` from a stack in memory takes the host's turn of its pull (R165). -/
theorem exec_pla_of_peek (hb : s.peek (stackAddr (s.sp + 1#8)) = some b) :
    exec .pla s = .next (({ s.hostTurn with sp := s.sp + 1#8 } : State).loadA b) :=
  exec_of_done (.pullA rfl (State.pull8_of_peek hb))

/-- `RTS` from a stack in memory takes the host's turns of its two pulls (R161). -/
theorem exec_rts_of_peek (hlow : s.peek (stackAddr (s.sp + 1#8)) = some l)
    (hhigh : s.peek (stackAddr (s.sp + 2#8)) = some h) :
    exec .rts s = .next { s.hostTurn.hostTurn with sp := s.sp + 2#8, pc := joinWord h l + 1#16 } := by
  have hsp : s.sp + 1#8 + 1#8 = s.sp + 2#8 := by rw [BitVec.add_assoc]; rfl
  have hnext : ({ s.hostTurn with sp := s.sp + 1#8 } : State).peek (stackAddr (s.sp + 1#8 + 1#8)) = some h := by
    rw [hsp, ← hhigh]
    exact (State.hostTurn_quiet s).peek _
  rw [exec_of_done (.ret rfl (State.pull8_of_peek hlow) (State.pull8_of_peek hnext)), State.hostTurn_withSP, hsp]

/-- What `JSR` leaves on a stack in memory: the address of its last byte, the high byte at the higher address (R171). -/
theorem exec_jsr_stack {b₀ b₁ : Byte} (hexec : exec (.jsr w) s = .next t) (hw : ∀ d ∈ s.devices, d.unit.wf s.cfg)
    (h₀ : s.peek (stackAddr s.sp) = some b₀) (h₁ : s.peek (stackAddr (s.sp - 1#8)) = some b₁) :
    t.sp = s.sp - 2#8 ∧ t.peek (stackAddr (s.sp - 1#8)) = some (lo (s.pc - 1#16)) ∧
      t.peek (stackAddr s.sp) = some (hi (s.pc - 1#16)) := by
  obtain ⟨t₁, t₂, hfirst, hsecond, rfl⟩ := exec_jsr_next hexec
  have hsp : t₁.sp = s.sp - 1#8 := (State.push8_keeps hfirst).sp
  have hw₁ := (State.push8_frame hfirst).wf hw
  have hfree : t₁.peek (stackAddr t₁.sp) = some b₁ := by
    rw [hsp, ← h₁]
    exact State.push8_peek_ne (s := { s with lea := w }) hfirst hw (by simp only; bv_omega)
  refine ⟨?_, hsp ▸ State.push8_peek_same (t := t₂) hsecond hw₁ hfree, ?_⟩
  · rw [(State.push8_keeps hsecond).sp, hsp]
    bv_omega
  · exact (State.push8_peek_ne (t := t₂) hsecond hw₁ (by rw [hsp]; bv_omega)).trans
      (State.push8_peek_same (s := { s with lea := w }) hfirst hw h₀)

/-- Settles O41: each pull reads the slot its push wrote, as no change of `A` or `PC` moves the stack. -/
theorem pullsUndoPushes : Obligations.PullsUndoPushes := by
  refine fun s t t' u b₀ hs h₀ => ⟨fun w b₁ h₁ hjsr ht' hrts => ?_, fun hpha ht' hpla => ?_⟩
  · obtain ⟨hsp, hlow, hhigh⟩ := exec_jsr_stack hjsr hs.devices h₀ h₁
    have hsp' : t'.sp = s.sp - 2#8 := (congrArg State.sp ht').trans hsp
    have hpeek (addr : Word) : t'.peek addr = t.peek addr := by rw [ht']; rfl
    have hslot₁ : t'.sp + 1#8 = s.sp - 1#8 := by bv_omega
    have hslot₂ : t'.sp + 2#8 = s.sp := by bv_omega
    rw [exec_rts_of_peek (by rw [hslot₁, hpeek, hlow]) (by rw [hslot₂, hpeek, hhigh])] at hrts
    cases hrts
    exact ⟨by simp, hslot₂⟩
  · obtain ⟨t₁, hpush, hnext⟩ := proceed_next hpha
    obtain rfl : t₁ = t := Host.Outcome.next.inj hnext
    have hsp : t₁.sp = s.sp - 1#8 := (State.push8_keeps hpush).sp
    have hsp' : t'.sp = s.sp - 1#8 := (congrArg State.sp ht').trans hsp
    have hpeek (addr : Word) : t'.peek addr = t₁.peek addr := by rw [ht']; rfl
    have hslot : t'.sp + 1#8 = s.sp := by bv_omega
    rw [exec_pla_of_peek (by rw [hslot, hpeek, State.push8_peek_same hpush hs.devices h₀])] at hpla
    cases hpla
    exact ⟨rfl, hslot⟩

end Sys2Proof.Machine
end
section
/-! PROOFS. Loads, stores, transfers, flag instructions and no-operations (43_load_store_transfer_flags.md R180 to R198;
42_control_flow_stack.md R168, R169). -/

namespace Sys2Proof.Machine

variable {i : Instr} {s : State}

/-! ## Loads and stores -/

/-- Settles O42: each loads its own register, and the operand's read keeps the flags that the load does not write. -/
theorem loadsSetRegister : Obligations.LoadsSetRegister := by
  intro i m s t v hm ho hr
  have hp : t.p = s.p := (readOperand_quiet hr).keeps.p
  have completes {f : Byte → State → State} (hf : operandBody i.mnemonic = some f) : exec i s = .next (f v t) :=
    exec_of_done (.operand ho hf hr)
  simp only [List.mem_cons, List.not_mem_nil, or_false] at hm
  rcases hm with hm | hm | hm <;> rw [hm] at completes ⊢
  · exact ⟨t.loadA v, completes rfl, setsZN_of_p hp rfl, fun _ => rfl, nofun, nofun⟩
  · exact ⟨t.loadX v, completes rfl, setsZN_of_p hp rfl, nofun, fun _ => rfl, nofun⟩
  · exact ⟨t.loadY v, completes rfl, setsZN_of_p hp rfl, nofun, nofun, fun _ => rfl⟩

/-- Settles O43: the register stored is the mnemonic's, and its write is the outcome. -/
theorem storesWriteRegister : Obligations.StoresWriteRegister := by
  intro i m s t u ea r ho h hresolve hwrite
  obtain ⟨reg, hreg, rfl⟩ : ∃ reg : State → Byte, storedRegister i.mnemonic = some reg ∧ r = reg s := by
    rcases h with ⟨hm, hr⟩ | ⟨hm, hr⟩ | ⟨hm, hr⟩ <;> rw [hm]
    · exact ⟨State.a, rfl, hr⟩
    · exact ⟨State.x, rfl, hr⟩
    · exact ⟨State.y, rfl, hr⟩
  exact exec_of_done (.store ho hreg hresolve hwrite)

/-! ## Transfers -/

/-- Settles O44: each is the load of one register with another, and `TXS` a write of `SP` alone. -/
theorem transfersCopy : Obligations.TransfersCopy := fun s =>
  ⟨⟨s.loadX s.a, rfl, rfl, setsZN_of_p rfl rfl⟩, ⟨s.loadY s.a, rfl, rfl, setsZN_of_p rfl rfl⟩,
    ⟨s.loadA s.x, rfl, rfl, setsZN_of_p rfl rfl⟩, ⟨s.loadA s.y, rfl, rfl, setsZN_of_p rfl rfl⟩,
    ⟨s.loadX s.sp, rfl, rfl, setsZN_of_p rfl rfl⟩, rfl⟩

/-! ## Flag instructions -/

/-- Settles O45: each is one flag write, and none names the reserved bit. -/
theorem flagInstructionsWriteOneBit : Obligations.FlagInstructionsWriteOneBit := by
  intro i f b s h
  obtain ⟨hbody, hf⟩ : registerBody i = some (fun s => s.setFlag f b) ∧ f ≠ .R := by
    simp only [List.mem_cons, List.not_mem_nil, or_false, Prod.mk.injEq] at h
    rcases h with ⟨rfl, rfl, rfl⟩ | ⟨rfl, rfl, rfl⟩ | ⟨rfl, rfl, rfl⟩ | ⟨rfl, rfl, rfl⟩ | ⟨rfl, rfl, rfl⟩ |
      ⟨rfl, rfl, rfl⟩ | ⟨rfl, rfl, rfl⟩ <;> exact ⟨rfl, nofun⟩
  exact ⟨_, exec_of_done (.register hbody), s.setFlag_eq f b, fun g => s.flag_setFlag f g b hf⟩

/-! ## No-operations -/

/-- A step over an instruction without an operand that memory holds runs it after the host's turn of the opcode's fetch,
with `PC` past the opcode (R100 to R102). -/
theorem step_of_no_operand (hhalt : unassignedOpcodes.contains s.cfg.haltOpcode = true)
    (hwf : i.wf s.cfg.haltOpcode = true) (hbytes : i.operand.bytes = [])
    (hop : s.peek s.pc = some (i.opcode s.cfg.haltOpcode)) :
    step s = exec i { s.hostTurn with pc := s.pc + 1#16, halted := false, phase := .running } := by
  have hcode : s.HoldsCode i := ⟨hop, by rw [hbytes]; trivial⟩
  have hreads : fetchReads i = 1 := if_pos hbytes
  have hlength : (fetchedBytes s.cfg.haltOpcode i).length = 1 := by rw [fetchedBytes, hbytes]; rfl
  have hturn : State.hostTurns 1 s.beginStep = s.hostTurn.beginStep := s.hostTurn_beginStep
  rw [stepRunsDecodedInstruction s i hhalt hwf hcode, hreads, hlength, hturn]
  rfl

/-- Settles O46: the instruction that memory holds is `NOP` or the unassigned opcode's, and neither changes anything. -/
theorem noOperationsOnlyAdvance : Obligations.NoOperationsOnlyAdvance := by
  refine fun s => ⟨rfl, fun _ => rfl, fun op hhalt hop h => ?_⟩
  rcases h with rfl | ⟨hunassigned, hne⟩
  · exact step_of_no_operand (i := .nop) hhalt rfl rfl hop
  · have hwf : (Instr.unassigned op).wf s.cfg.haltOpcode = true :=
      Bool.and_eq_true_iff.mpr ⟨hunassigned, bne_iff_ne.mpr hne⟩
    exact step_of_no_operand hhalt hwf rfl hop

end Sys2Proof.Machine
end
section
/-! PROOFS. `ImageTooLarge` (60_exceptions.md R224; 20_memory.md R43, R49): no step, no instruction, no reset and no bus
operation but `load` raises it, and when `load` does. -/

namespace Sys2Proof.Machine

variable {s : State} {data : List Byte} {addr : Word}

/-! ## The errors of a word write (R40, R48, R54, R59) and of reset (R232) -/

theorem MemoryDevice.setWord_fails (m : MemoryDevice) (idx : Nat) (w : Word) :
    FailsWith StepError (m.setWord idx w) := by
  unfold MemoryDevice.setWord
  split
  · simp
  · split <;> simp

theorem Device.setPair_fails (c : Config) (d : Device) (off : Nat) (w : Word) :
    FailsWith StepError (d.setPair c off w) := by
  unfold Device.setPair
  split
  · exact (Device.set_fails _ _ _ _).bind fun _ => Device.set_fails _ _ _ _
  · simp

theorem Device.setWord_fails (c : Config) (d : Device) (off : Nat) (w : Word) :
    FailsWith StepError (d.setWord c off w) := by
  unfold Device.setWord
  split
  · exact (MemoryDevice.setWord_fails _ _ _).map _
  · exact Device.setPair_fails _ _ _ _
  · exact Device.setPair_fails _ _ _ _

theorem State.busSetWord_fails (s : State) (addr w : Word) : FailsWith StepError (s.busSetWord addr w) := by
  unfold State.busSetWord
  split
  · simp
  · exact (Device.setWord_fails _ _ _ _).map _

/-- Reset fails with the error of its read of the vector. -/
theorem State.busGetWord_of_hostReset_fault {kind : BusError} (h : s.hostReset = .fault kind) :
    s.busGetWord 0xFFFC#16 = .error kind := by
  unfold State.hostReset at h
  split at h
  · cases h
  · split at h
    · cases h
    · next hread =>
      cases h
      exact hread

/-! ## What is not `ImageTooLarge` -/

theorem FailsWith.ne_imageTooLarge {α : Type} {r : Except BusError α} (h : FailsWith StepError r) :
    r ≠ .error .imageTooLarge :=
  fun he => (stepError_iff _).mp (h _ he) rfl

theorem NextOrError.ne_imageTooLarge {o : Out} (h : NextOrError o) (left : Aftermath) :
    o ≠ .fault (.busError .imageTooLarge left) := by
  rintro rfl
  exact (stepError_iff _).mp h rfl

/-! ## The load that raises it -/

/-- A load on the bus raises `ImageTooLarge` before reset alone, at a memory device not yet loaded, for an image that
does not fit: in every other case it has another outcome. -/
theorem State.busLoad_imageTooLarge_iff :
    s.busLoad data addr = .fault .imageTooLarge ↔
      s.phase = .setup ∧ ∃ d m, s.route addr = some d ∧ d.unit = .memory m ∧ m.loaded = false ∧
        m.size < d.offset addr + data.length := by
  constructor
  · intro h
    cases hp : s.phase with
    | running => cases (State.busLoad_of_running hp).symm.trans h
    | setup =>
      cases hr : s.route addr with
      | none => cases (State.busLoad_unrouted hp hr).symm.trans h
      | some d =>
        by_cases hmem : ∃ m, d.unit = .memory m
        · obtain ⟨m, hu⟩ := hmem
          cases hl : m.loaded with
          | true => cases (State.busLoad_loaded hp hr hu hl).symm.trans h
          | false =>
            refine ⟨rfl, d, m, rfl, hu, hl, Nat.lt_of_not_le fun hfits => ?_⟩
            cases (State.busLoad_of_ok hp hr hu hl (MemoryDevice.load_fits hfits)).symm.trans h
        · cases (State.busLoad_peripheral hp hr (not_exists.mp hmem)).symm.trans h
  · rintro ⟨hp, d, m, hr, hu, hl, hlarge⟩
    exact State.busLoad_of_error hp hr hu hl (MemoryDevice.load_too_large hlarge)

/-- Settles O14: steps, instructions and the bus operations fail with other kinds, reset with its read's, and the load is
followed case by case. -/
theorem imageTooLargeOnlyFromLoad : Obligations.ImageTooLargeOnlyFromLoad := fun s =>
  ⟨(step_nextOrError s).ne_imageTooLarge, fun i => (exec_nextOrError i s).ne_imageTooLarge,
    fun a => (s.busGet_fails a).ne_imageTooLarge, fun a => (s.busGetWord_fails a).ne_imageTooLarge,
    fun a v => (s.busSet_fails a v).ne_imageTooLarge, fun a w => (s.busSetWord_fails a w).ne_imageTooLarge,
    fun h => (s.busGetWord_fails _).ne_imageTooLarge (State.busGetWord_of_hostReset_fault h),
    fun _ _ => State.busLoad_imageTooLarge_iff⟩

end Sys2Proof.Machine
end
